-- ==== Sys2Proof/Word.lean ====
section
/-! DEFINITION. The machine's number types: 32-bit words, bytes, register numbers, and the three access widths.
Rules R6 (XLEN, NREGS), R7 (bit numbering, wrapping arithmetic) and R45 (the widths 1, 2 and 4 bytes). -/

namespace Sys2Proof

/-- A 32-bit value: a register, an address, the pc, an instruction word (R6: XLEN = 32, ILEN = 32). -/
abbrev Word := BitVec 32

/-- The addressable unit of guest memory (R30). -/
abbrev Byte := BitVec 8

/-- A register number, 0 to 31 (R10), as the 5-bit field that names it (R61). -/
abbrev RegIdx := BitVec 5

/-- The widths of a data access: 1, 2 or 4 bytes (R45). -/
inductive Width where
  | byte
  | half
  | word
  deriving DecidableEq, Repr

/-- The number of bytes of an access (R45). -/
def Width.bytes : Width → Nat
  | .byte => 1
  | .half => 2
  | .word => 4

end Sys2Proof
end

