-- ==== Sys2Proof/WellFormed.lean ====
section
/-! DEFINITION. When an instruction is one that some word encodes: the ranges of the immediates (R64 to R68) and,
for `unimp`, that its word belongs to the illegal set the spec lists (R74, R120, R161, R206, R219). All checks are
Booleans. -/

namespace Sys2Proof

/-- The range of an I- or S-immediate, -2048 to 2047 (R64, R65). -/
def immFits12 (imm : Word) : Bool :=
  decide (-2048 ≤ imm.toInt) && decide (imm.toInt ≤ 2047)

/-- A B-immediate is even and lies in -4096 to 4094 (R66). -/
def immFitsBranch (imm : Word) : Bool :=
  decide (-4096 ≤ imm.toInt) && decide (imm.toInt ≤ 4094) && decide (imm.toNat % 2 = 0)

/-- A U-immediate has its low 12 bits zero (R67). -/
def immFitsUpper (imm : Word) : Bool :=
  decide (imm.toNat % 4096 = 0)

/-- A J-immediate is even and lies in -1048576 to 1048574 (R68). -/
def immFitsJump (imm : Word) : Bool :=
  decide (-1048576 ≤ imm.toInt) && decide (imm.toInt ≤ 1048574) && decide (imm.toNat % 2 = 0)

/-- The illegal set, listed as the spec lists it: the opcode is none of the ten of R71, or the selector inside a
category is one of the unassigned values of R206 (Branch), R120 (Load, Store), R161 (Integer-Register-Op) and R219
(System with funct3 = 0). -/
def unassignedWord (w : Word) : Bool :=
  let op := w.extractLsb' 0 7
  let f3 := w.extractLsb' 12 3
  let f7 := w.extractLsb' 25 7
  if op = 0x63#7 then decide (f3 = 2#3 ∨ f3 = 3#3)
  else if op = 0x03#7 then decide (f3 = 3#3 ∨ f3 = 6#3 ∨ f3 = 7#3)
  else if op = 0x23#7 then decide (3 ≤ f3.toNat)
  else if op = 0x33#7 then decide ((f3 = 0#3 ∨ f3 = 5#3) ∧ f7 ≠ 0x00#7 ∧ f7 ≠ 0x01#7 ∧ f7 ≠ 0x20#7)
  else if op = 0x73#7 then decide (f3 = 0#3 ∧ f7 ≠ 0#7 ∧ f7 ≠ 1#7 ∧ f7 ≠ 8#7)
  else decide (op ≠ 0x37#7 ∧ op ≠ 0x17#7 ∧ op ≠ 0x6F#7 ∧ op ≠ 0x67#7 ∧ op ≠ 0x13#7)

/-- An instruction that some word encodes. Register numbers, shift amounts and CSR addresses fill their fields, so
only immediates and the word of `unimp` need a check. -/
def Instr.wellFormed : Instr → Bool
  | .lui _ imm | .auipc _ imm => immFitsUpper imm
  | .jal _ imm => immFitsJump imm
  | .jalr _ _ imm => immFits12 imm
  | .beq _ _ imm | .bne _ _ imm | .blt _ _ imm | .bge _ _ imm | .bltu _ _ imm | .bgeu _ _ imm => immFitsBranch imm
  | .lb _ _ imm | .lh _ _ imm | .lw _ _ imm | .lbu _ _ imm | .lhu _ _ imm => immFits12 imm
  | .sb _ _ imm | .sh _ _ imm | .sw _ _ imm => immFits12 imm
  | .addi _ _ imm | .slti _ _ imm | .sltiu _ _ imm | .xori _ _ imm | .ori _ _ imm | .andi _ _ imm => immFits12 imm
  | .slli _ _ _ | .srli _ _ _ | .srai _ _ _ => true
  | .mul _ _ _ | .mulh _ _ _ | .mulhsu _ _ _ | .mulhu _ _ _ => true
  | .div _ _ _ | .divu _ _ _ | .rem _ _ _ | .remu _ _ _ => true
  | .add _ _ _ | .sub _ _ _ | .srl _ _ _ | .sra _ _ _ | .sll _ _ _ => true
  | .slt _ _ _ | .sltu _ _ _ | .xor _ _ _ | .or _ _ _ | .and _ _ _ => true
  | .ecall | .ebreak | .wfi => true
  | .csrrw _ _ _ | .csrrs _ _ _ | .csrrc _ _ _ | .csrr4 _ _ | .csrrwi _ _ _ | .csrrsi _ _ _ | .csrrci _ _ _ => true
  | .unimp w => unassignedWord w

end Sys2Proof
end

