-- ==== Sys2Proof/Decode.lean ====
section
/-! DEFINITION. The decoder and the encoder: the fields of a word (R61), the five immediates (R64 to R68), the map
from words to instructions (R72), the opcode table as match and mask rows, decoding of a byte list, and the
canonical encoding of an instruction by its format (R63). -/

namespace Sys2Proof

/-! ## Fields (R61, R69, R70) -/

/-- The major opcode, bits [6:0] (R61). -/
def opcodeOf (w : Word) : BitVec 7 := w.extractLsb' 0 7

/-- The destination register field, bits [11:7] (R61). -/
def rdOf (w : Word) : RegIdx := w.extractLsb' 7 5

/-- The funct3 field, bits [14:12] (R61). -/
def funct3Of (w : Word) : BitVec 3 := w.extractLsb' 12 3

/-- The first source register field, bits [19:15] (R61); also the 5-bit `uimm` of the CSR immediate forms (R70). -/
def rs1Of (w : Word) : RegIdx := w.extractLsb' 15 5

/-- The second source register field, bits [24:20] (R61); also the shift amount of the immediate shifts (R69). -/
def rs2Of (w : Word) : RegIdx := w.extractLsb' 20 5

/-- The funct7 field, bits [31:25] (R61). -/
def funct7Of (w : Word) : BitVec 7 := w.extractLsb' 25 7

/-- The CSR address, bits [31:20] (R70). -/
def csrOf (w : Word) : BitVec 12 := w.extractLsb' 20 12

/-! ## Immediates (R64 to R68) -/

/-- `imm_I = sext_12(w[31:20])` (R64). -/
def immI (w : Word) : Word := (w.extractLsb' 20 12).signExtend 32

/-- `imm_S = sext_12({w[31:25], w[11:7]})` (R65). -/
def immS (w : Word) : Word := (w.extractLsb' 25 7 ++ w.extractLsb' 7 5 : BitVec 12).signExtend 32

/-- `imm_B = sext_13({w[31], w[7], w[30:25], w[11:8], 0})` (R66). -/
def immB (w : Word) : Word :=
  (w.extractLsb' 31 1 ++ w.extractLsb' 7 1 ++ w.extractLsb' 25 6 ++ w.extractLsb' 8 4 ++ 0#1 : BitVec 13).signExtend 32

/-- `imm_U = {w[31:12], 0x000}` (R67). -/
def immU (w : Word) : Word := (w.extractLsb' 12 20 ++ 0#12 : BitVec 32)

/-- `imm_J = sext_21({w[31], w[19:12], w[20], w[30:21], 0})` (R68). -/
def immJ (w : Word) : Word :=
  (w.extractLsb' 31 1 ++ w.extractLsb' 12 8 ++ w.extractLsb' 20 1 ++ w.extractLsb' 21 10 ++ 0#1 : BitVec 21).signExtend 32

/-! ## The decoder (R72), category by category -/

/-- Opcode `0x63` (R196, R206). -/
def decodeBranch (w : Word) : Instr :=
  match funct3Of w with
  | 0#3 => .beq (rs1Of w) (rs2Of w) (immB w)
  | 1#3 => .bne (rs1Of w) (rs2Of w) (immB w)
  | 4#3 => .blt (rs1Of w) (rs2Of w) (immB w)
  | 5#3 => .bge (rs1Of w) (rs2Of w) (immB w)
  | 6#3 => .bltu (rs1Of w) (rs2Of w) (immB w)
  | 7#3 => .bgeu (rs1Of w) (rs2Of w) (immB w)
  | _ => .unimp w

/-- Opcode `0x03` (R110, R120). -/
def decodeLoad (w : Word) : Instr :=
  match funct3Of w with
  | 0#3 => .lb (rdOf w) (rs1Of w) (immI w)
  | 1#3 => .lh (rdOf w) (rs1Of w) (immI w)
  | 2#3 => .lw (rdOf w) (rs1Of w) (immI w)
  | 4#3 => .lbu (rdOf w) (rs1Of w) (immI w)
  | 5#3 => .lhu (rdOf w) (rs1Of w) (immI w)
  | _ => .unimp w

/-- Opcode `0x23` (R116, R120). -/
def decodeStore (w : Word) : Instr :=
  match funct3Of w with
  | 0#3 => .sb (rs1Of w) (rs2Of w) (immS w)
  | 1#3 => .sh (rs1Of w) (rs2Of w) (immS w)
  | 2#3 => .sw (rs1Of w) (rs2Of w) (immS w)
  | _ => .unimp w

/-- Opcode `0x13` (R130): SLLI does not examine bits [31:25]; bit 30 alone selects SRLI or SRAI (R75). -/
def decodeIntImm (w : Word) : Instr :=
  match funct3Of w with
  | 0#3 => .addi (rdOf w) (rs1Of w) (immI w)
  | 1#3 => .slli (rdOf w) (rs1Of w) (rs2Of w)
  | 2#3 => .slti (rdOf w) (rs1Of w) (immI w)
  | 3#3 => .sltiu (rdOf w) (rs1Of w) (immI w)
  | 4#3 => .xori (rdOf w) (rs1Of w) (immI w)
  | 5#3 => if w.extractLsb' 30 1 = 1#1 then .srai (rdOf w) (rs1Of w) (rs2Of w) else .srli (rdOf w) (rs1Of w) (rs2Of w)
  | 6#3 => .ori (rdOf w) (rs1Of w) (immI w)
  | _ => .andi (rdOf w) (rs1Of w) (immI w)

/-- Opcode `0x33` with funct7 = 1, the M extension (R170). -/
def decodeMulDiv (w : Word) : Instr :=
  match funct3Of w with
  | 0#3 => .mul (rdOf w) (rs1Of w) (rs2Of w)
  | 1#3 => .mulh (rdOf w) (rs1Of w) (rs2Of w)
  | 2#3 => .mulhsu (rdOf w) (rs1Of w) (rs2Of w)
  | 3#3 => .mulhu (rdOf w) (rs1Of w) (rs2Of w)
  | 4#3 => .div (rdOf w) (rs1Of w) (rs2Of w)
  | 5#3 => .divu (rdOf w) (rs1Of w) (rs2Of w)
  | 6#3 => .rem (rdOf w) (rs1Of w) (rs2Of w)
  | _ => .remu (rdOf w) (rs1Of w) (rs2Of w)

/-- Opcode `0x33` with funct7 other than 1 (R150): only funct3 = 0 and 5 examine funct7 further (R161). -/
def decodeIntReg (w : Word) : Instr :=
  match funct3Of w with
  | 0#3 =>
    if funct7Of w = 0x00#7 then .add (rdOf w) (rs1Of w) (rs2Of w)
    else if funct7Of w = 0x20#7 then .sub (rdOf w) (rs1Of w) (rs2Of w)
    else .unimp w
  | 1#3 => .sll (rdOf w) (rs1Of w) (rs2Of w)
  | 2#3 => .slt (rdOf w) (rs1Of w) (rs2Of w)
  | 3#3 => .sltu (rdOf w) (rs1Of w) (rs2Of w)
  | 4#3 => .xor (rdOf w) (rs1Of w) (rs2Of w)
  | 5#3 =>
    if funct7Of w = 0x00#7 then .srl (rdOf w) (rs1Of w) (rs2Of w)
    else if funct7Of w = 0x20#7 then .sra (rdOf w) (rs1Of w) (rs2Of w)
    else .unimp w
  | 6#3 => .or (rdOf w) (rs1Of w) (rs2Of w)
  | _ => .and (rdOf w) (rs1Of w) (rs2Of w)

/-- Opcode `0x73` (R215): with funct3 = 0, funct7 selects ECALL, EBREAK or WFI by the source's literals 0, 1 and 8
(R73, conflict C1); every other funct3 is a CSR read (R220). -/
def decodeSystem (w : Word) : Instr :=
  match funct3Of w with
  | 0#3 =>
    if funct7Of w = 0#7 then .ecall
    else if funct7Of w = 1#7 then .ebreak
    else if funct7Of w = 8#7 then .wfi
    else .unimp w
  | 1#3 => .csrrw (rdOf w) (csrOf w) (rs1Of w)
  | 2#3 => .csrrs (rdOf w) (csrOf w) (rs1Of w)
  | 3#3 => .csrrc (rdOf w) (csrOf w) (rs1Of w)
  | 4#3 => .csrr4 (rdOf w) (csrOf w)
  | 5#3 => .csrrwi (rdOf w) (csrOf w) (rs1Of w)
  | 6#3 => .csrrsi (rdOf w) (csrOf w) (rs1Of w)
  | _ => .csrrci (rdOf w) (csrOf w) (rs1Of w)

/-- The complete decode of a 32-bit word (R62, R71, R72): total, and `unimp` for every word outside the map. -/
def decode (w : Word) : Instr :=
  match opcodeOf w with
  | 0x37#7 => .lui (rdOf w) (immU w)
  | 0x17#7 => .auipc (rdOf w) (immU w)
  | 0x6F#7 => .jal (rdOf w) (immJ w)
  | 0x67#7 => .jalr (rdOf w) (rs1Of w) (immI w)
  | 0x63#7 => decodeBranch w
  | 0x03#7 => decodeLoad w
  | 0x23#7 => decodeStore w
  | 0x13#7 => decodeIntImm w
  | 0x33#7 => if funct7Of w = 1#7 then decodeMulDiv w else decodeIntReg w
  | 0x73#7 => decodeSystem w
  | _ => .unimp w

/-! ## Bytes -/

/-- Why a byte list does not give an instruction. A word never fails to decode (R62), so there is one reason. -/
inductive DecodeError where
  /-- Fewer than the four bytes every instruction has (R60). Raised by `decodeBytes` only; the fetch unit raises
  `InvalidMemoryAccess` instead, before any decoding (R92). Safe. -/
  | truncated
  deriving DecidableEq, Repr

/-- Four bytes at ascending addresses as a word, the first the least significant (R35, R39; the spec's decision D1). -/
def wordOfBytes (b0 b1 b2 b3 : Byte) : Word := b3 ++ b2 ++ b1 ++ b0

/-- The bytes of a word at ascending addresses (R35). -/
def bytesOfWord (w : Word) : List Byte :=
  [w.extractLsb' 0 8, w.extractLsb' 8 8, w.extractLsb' 16 8, w.extractLsb' 24 8]

/-- The instruction at the head of a byte list, with the bytes after it. -/
def decodeBytes : List Byte → Except DecodeError (Instr × List Byte)
  | b0 :: b1 :: b2 :: b3 :: rest => .ok (decode (wordOfBytes b0 b1 b2 b3), rest)
  | _ => .error .truncated

/-- The instruction whose bits are `w`, numbered as spec/opcode_table.json numbers them. An instruction is one 32-bit
word (R60), so the bits from `nbits` up are zero and the four bytes are laid out as the hardware stores them. -/
def decodeTableWord (nbits w : Nat) : Option Instr :=
  match decodeBytes (bytesOfWord (BitVec.ofNat 32 (w % 2 ^ nbits))) with
  | .ok (i, _) => some i
  | .error _ => none

/-! ## The encoder: the six formats (R63) -/

/-- R format (R63). -/
def encodeR (funct7 : BitVec 7) (rs2 rs1 : RegIdx) (funct3 : BitVec 3) (rd : RegIdx) (op : BitVec 7) : Word :=
  funct7 ++ rs2 ++ rs1 ++ funct3 ++ rd ++ op

/-- I format with its 12 high bits given as they stand (R63). -/
def encodeI (imm12 : BitVec 12) (rs1 : RegIdx) (funct3 : BitVec 3) (rd : RegIdx) (op : BitVec 7) : Word :=
  imm12 ++ rs1 ++ funct3 ++ rd ++ op

/-- S format (R63). -/
def encodeS (imm : Word) (rs2 rs1 : RegIdx) (funct3 : BitVec 3) (op : BitVec 7) : Word :=
  imm.extractLsb' 5 7 ++ rs2 ++ rs1 ++ funct3 ++ imm.extractLsb' 0 5 ++ op

/-- B format (R63). -/
def encodeB (imm : Word) (rs2 rs1 : RegIdx) (funct3 : BitVec 3) (op : BitVec 7) : Word :=
  imm.extractLsb' 12 1 ++ imm.extractLsb' 5 6 ++ rs2 ++ rs1 ++ funct3 ++ imm.extractLsb' 1 4 ++ imm.extractLsb' 11 1 ++ op

/-- U format (R63). -/
def encodeU (imm : Word) (rd : RegIdx) (op : BitVec 7) : Word :=
  imm.extractLsb' 12 20 ++ rd ++ op

/-- J format (R63). -/
def encodeJ (imm : Word) (rd : RegIdx) (op : BitVec 7) : Word :=
  imm.extractLsb' 20 1 ++ imm.extractLsb' 1 10 ++ imm.extractLsb' 11 1 ++ imm.extractLsb' 12 8 ++ rd ++ op

/-- The 12 low bits of an immediate operand, as the I format holds them. -/
def imm12Of (imm : Word) : BitVec 12 := imm.extractLsb' 0 12

/-- The canonical word of an instruction: every bit the decoder does not examine (R75) is zero, but for the source
registers and `uimm` that the CSR syntax names. -/
def encode : Instr → Word
  | .lui rd imm => encodeU imm rd 0x37
  | .auipc rd imm => encodeU imm rd 0x17
  | .jal rd imm => encodeJ imm rd 0x6F
  | .jalr rd rs1 imm => encodeI (imm12Of imm) rs1 0 rd 0x67
  | .beq rs1 rs2 imm => encodeB imm rs2 rs1 0 0x63
  | .bne rs1 rs2 imm => encodeB imm rs2 rs1 1 0x63
  | .blt rs1 rs2 imm => encodeB imm rs2 rs1 4 0x63
  | .bge rs1 rs2 imm => encodeB imm rs2 rs1 5 0x63
  | .bltu rs1 rs2 imm => encodeB imm rs2 rs1 6 0x63
  | .bgeu rs1 rs2 imm => encodeB imm rs2 rs1 7 0x63
  | .lb rd rs1 imm => encodeI (imm12Of imm) rs1 0 rd 0x03
  | .lh rd rs1 imm => encodeI (imm12Of imm) rs1 1 rd 0x03
  | .lw rd rs1 imm => encodeI (imm12Of imm) rs1 2 rd 0x03
  | .lbu rd rs1 imm => encodeI (imm12Of imm) rs1 4 rd 0x03
  | .lhu rd rs1 imm => encodeI (imm12Of imm) rs1 5 rd 0x03
  | .sb rs1 rs2 imm => encodeS imm rs2 rs1 0 0x23
  | .sh rs1 rs2 imm => encodeS imm rs2 rs1 1 0x23
  | .sw rs1 rs2 imm => encodeS imm rs2 rs1 2 0x23
  | .addi rd rs1 imm => encodeI (imm12Of imm) rs1 0 rd 0x13
  | .slti rd rs1 imm => encodeI (imm12Of imm) rs1 2 rd 0x13
  | .sltiu rd rs1 imm => encodeI (imm12Of imm) rs1 3 rd 0x13
  | .xori rd rs1 imm => encodeI (imm12Of imm) rs1 4 rd 0x13
  | .ori rd rs1 imm => encodeI (imm12Of imm) rs1 6 rd 0x13
  | .andi rd rs1 imm => encodeI (imm12Of imm) rs1 7 rd 0x13
  | .slli rd rs1 shamt => encodeR 0x00 shamt rs1 1 rd 0x13
  | .srli rd rs1 shamt => encodeR 0x00 shamt rs1 5 rd 0x13
  | .srai rd rs1 shamt => encodeR 0x20 shamt rs1 5 rd 0x13
  | .mul rd rs1 rs2 => encodeR 0x01 rs2 rs1 0 rd 0x33
  | .mulh rd rs1 rs2 => encodeR 0x01 rs2 rs1 1 rd 0x33
  | .mulhsu rd rs1 rs2 => encodeR 0x01 rs2 rs1 2 rd 0x33
  | .mulhu rd rs1 rs2 => encodeR 0x01 rs2 rs1 3 rd 0x33
  | .div rd rs1 rs2 => encodeR 0x01 rs2 rs1 4 rd 0x33
  | .divu rd rs1 rs2 => encodeR 0x01 rs2 rs1 5 rd 0x33
  | .rem rd rs1 rs2 => encodeR 0x01 rs2 rs1 6 rd 0x33
  | .remu rd rs1 rs2 => encodeR 0x01 rs2 rs1 7 rd 0x33
  | .add rd rs1 rs2 => encodeR 0x00 rs2 rs1 0 rd 0x33
  | .sub rd rs1 rs2 => encodeR 0x20 rs2 rs1 0 rd 0x33
  | .srl rd rs1 rs2 => encodeR 0x00 rs2 rs1 5 rd 0x33
  | .sra rd rs1 rs2 => encodeR 0x20 rs2 rs1 5 rd 0x33
  | .sll rd rs1 rs2 => encodeR 0x00 rs2 rs1 1 rd 0x33
  | .slt rd rs1 rs2 => encodeR 0x00 rs2 rs1 2 rd 0x33
  | .sltu rd rs1 rs2 => encodeR 0x00 rs2 rs1 3 rd 0x33
  | .xor rd rs1 rs2 => encodeR 0x00 rs2 rs1 4 rd 0x33
  | .or rd rs1 rs2 => encodeR 0x00 rs2 rs1 6 rd 0x33
  | .and rd rs1 rs2 => encodeR 0x00 rs2 rs1 7 rd 0x33
  | .ecall => encodeR 0x00 0 0 0 0 0x73
  | .ebreak => encodeR 0x01 0 0 0 0 0x73
  | .wfi => encodeR 0x08 0 0 0 0 0x73
  | .csrrw rd csr rs1 => encodeI csr rs1 1 rd 0x73
  | .csrrs rd csr rs1 => encodeI csr rs1 2 rd 0x73
  | .csrrc rd csr rs1 => encodeI csr rs1 3 rd 0x73
  | .csrr4 rd csr => encodeI csr 0 4 rd 0x73
  | .csrrwi rd csr uimm => encodeI csr uimm 5 rd 0x73
  | .csrrsi rd csr uimm => encodeI csr uimm 6 rd 0x73
  | .csrrci rd csr uimm => encodeI csr uimm 7 rd 0x73
  | .unimp w => w

/-! ## The opcode table, as match and mask rows (R72) -/

/-- The match and mask values of the instruction's row of spec/opcode_table.json. -/
def tableRow : Instr → Word × Word
  | .lui _ _ => (0x00000037, 0x0000007F)
  | .auipc _ _ => (0x00000017, 0x0000007F)
  | .jal _ _ => (0x0000006F, 0x0000007F)
  | .jalr _ _ _ => (0x00000067, 0x0000007F)
  | .beq _ _ _ => (0x00000063, 0x0000707F)
  | .bne _ _ _ => (0x00001063, 0x0000707F)
  | .blt _ _ _ => (0x00004063, 0x0000707F)
  | .bge _ _ _ => (0x00005063, 0x0000707F)
  | .bltu _ _ _ => (0x00006063, 0x0000707F)
  | .bgeu _ _ _ => (0x00007063, 0x0000707F)
  | .lb _ _ _ => (0x00000003, 0x0000707F)
  | .lh _ _ _ => (0x00001003, 0x0000707F)
  | .lw _ _ _ => (0x00002003, 0x0000707F)
  | .lbu _ _ _ => (0x00004003, 0x0000707F)
  | .lhu _ _ _ => (0x00005003, 0x0000707F)
  | .sb _ _ _ => (0x00000023, 0x0000707F)
  | .sh _ _ _ => (0x00001023, 0x0000707F)
  | .sw _ _ _ => (0x00002023, 0x0000707F)
  | .addi _ _ _ => (0x00000013, 0x0000707F)
  | .slti _ _ _ => (0x00002013, 0x0000707F)
  | .sltiu _ _ _ => (0x00003013, 0x0000707F)
  | .xori _ _ _ => (0x00004013, 0x0000707F)
  | .ori _ _ _ => (0x00006013, 0x0000707F)
  | .andi _ _ _ => (0x00007013, 0x0000707F)
  | .slli _ _ _ => (0x00001013, 0x0000707F)
  | .srli _ _ _ => (0x00005013, 0x4000707F)
  | .srai _ _ _ => (0x40005013, 0x4000707F)
  | .mul _ _ _ => (0x02000033, 0xFE00707F)
  | .mulh _ _ _ => (0x02001033, 0xFE00707F)
  | .mulhsu _ _ _ => (0x02002033, 0xFE00707F)
  | .mulhu _ _ _ => (0x02003033, 0xFE00707F)
  | .div _ _ _ => (0x02004033, 0xFE00707F)
  | .divu _ _ _ => (0x02005033, 0xFE00707F)
  | .rem _ _ _ => (0x02006033, 0xFE00707F)
  | .remu _ _ _ => (0x02007033, 0xFE00707F)
  | .add _ _ _ => (0x00000033, 0xFE00707F)
  | .sub _ _ _ => (0x40000033, 0xFE00707F)
  | .srl _ _ _ => (0x00005033, 0xFE00707F)
  | .sra _ _ _ => (0x40005033, 0xFE00707F)
  | .sll _ _ _ => (0x00001033, 0x0000707F)
  | .slt _ _ _ => (0x00002033, 0x0000707F)
  | .sltu _ _ _ => (0x00003033, 0x0000707F)
  | .xor _ _ _ => (0x00004033, 0x0000707F)
  | .or _ _ _ => (0x00006033, 0x0000707F)
  | .and _ _ _ => (0x00007033, 0x0000707F)
  | .ecall => (0x00000073, 0xFE00707F)
  | .ebreak => (0x02000073, 0xFE00707F)
  | .wfi => (0x10000073, 0xFE00707F)
  | .csrrw _ _ _ => (0x00001073, 0x0000707F)
  | .csrrs _ _ _ => (0x00002073, 0x0000707F)
  | .csrrc _ _ _ => (0x00003073, 0x0000707F)
  | .csrr4 _ _ => (0x00004073, 0x0000707F)
  | .csrrwi _ _ _ => (0x00005073, 0x0000707F)
  | .csrrsi _ _ _ => (0x00006073, 0x0000707F)
  | .csrrci _ _ _ => (0x00007073, 0x0000707F)
  | .unimp _ => (0x00000000, 0x00000000)

/-- The bits of a word that its instruction keeps: all but the bits R75 lists as not examined. -/
def examinedBits : Instr → Word
  | .jalr _ _ _ => 0xFFFF8FFF
  | .slli _ _ _ => 0x01FFFFFF
  | .srli _ _ _ => 0x41FFFFFF
  | .srai _ _ _ => 0x41FFFFFF
  | .sll _ _ _ => 0x01FFFFFF
  | .slt _ _ _ => 0x01FFFFFF
  | .sltu _ _ _ => 0x01FFFFFF
  | .xor _ _ _ => 0x01FFFFFF
  | .or _ _ _ => 0x01FFFFFF
  | .and _ _ _ => 0x01FFFFFF
  | .ecall => 0xFE00707F
  | .ebreak => 0xFE00707F
  | .wfi => 0xFE00707F
  | .csrr4 _ _ => 0xFFF07FFF
  | _ => 0xFFFFFFFF

/-- Whether a word matches a row: `w & mask = match`. -/
def rowMatches (w : Word) (row : Word × Word) : Bool := decide (w &&& row.2 = row.1)

/-- Rows 1 to 18 of spec/opcode_table.json in its priority order: upper immediates, jumps, branches, loads, stores. -/
def rowsControlMemory : List (Word × Word) :=
  [(0x00000037, 0x0000007F), (0x00000017, 0x0000007F), (0x0000006F, 0x0000007F), (0x00000067, 0x0000007F),
   (0x00000063, 0x0000707F), (0x00001063, 0x0000707F), (0x00004063, 0x0000707F), (0x00005063, 0x0000707F),
   (0x00006063, 0x0000707F), (0x00007063, 0x0000707F), (0x00000003, 0x0000707F), (0x00001003, 0x0000707F),
   (0x00002003, 0x0000707F), (0x00004003, 0x0000707F), (0x00005003, 0x0000707F), (0x00000023, 0x0000707F),
   (0x00001023, 0x0000707F), (0x00002023, 0x0000707F)]

/-- Rows 19 to 45: the integer and multiply/divide instructions. -/
def rowsInteger : List (Word × Word) :=
  [(0x00000013, 0x0000707F), (0x00002013, 0x0000707F), (0x00003013, 0x0000707F), (0x00004013, 0x0000707F),
   (0x00006013, 0x0000707F), (0x00007013, 0x0000707F), (0x00001013, 0x0000707F), (0x00005013, 0x4000707F),
   (0x40005013, 0x4000707F), (0x02000033, 0xFE00707F), (0x02001033, 0xFE00707F), (0x02002033, 0xFE00707F),
   (0x02003033, 0xFE00707F), (0x02004033, 0xFE00707F), (0x02005033, 0xFE00707F), (0x02006033, 0xFE00707F),
   (0x02007033, 0xFE00707F), (0x00000033, 0xFE00707F), (0x40000033, 0xFE00707F), (0x00005033, 0xFE00707F),
   (0x40005033, 0xFE00707F), (0x00001033, 0x0000707F), (0x00002033, 0x0000707F), (0x00003033, 0x0000707F),
   (0x00004033, 0x0000707F), (0x00006033, 0x0000707F), (0x00007033, 0x0000707F)]

/-- Rows 46 to 56: the system instructions and the catch-all. -/
def rowsSystem : List (Word × Word) :=
  [(0x00000073, 0xFE00707F), (0x02000073, 0xFE00707F), (0x10000073, 0xFE00707F), (0x00001073, 0x0000707F),
   (0x00002073, 0x0000707F), (0x00003073, 0x0000707F), (0x00004073, 0x0000707F), (0x00005073, 0x0000707F),
   (0x00006073, 0x0000707F), (0x00007073, 0x0000707F), (0x00000000, 0x00000000)]

/-- spec/opcode_table.json's rows in priority order: the first matching row wins, the last row catches all (R72). -/
def opcodeTable : List (Word × Word) := rowsControlMemory ++ rowsInteger ++ rowsSystem

end Sys2Proof
end

