-- ==== Sys2Proof/Config.lean ====
section
/-! DEFINITION. What the spec leaves to the configuration (rule R6, kind OPEN) and what the host answers:
the parameters as a plain record, which State carries unchanged, and the host's answers as free values (opaque
constants without a body). -/

namespace Sys2Proof

/-- The OPEN parameters of R6 that are numbers or switches. One value of this record belongs to a machine for
its whole run: no step changes it. -/
structure Config where
  /-- `CAPACITY`, the size of guest memory in bytes (R6, R32). -/
  capacity : Nat
  /-- `ALIGN_CHECK`, whether data accesses must be naturally aligned (R33). -/
  alignCheck : Bool
  /-- `UART_ADDR`, the store-only output port (R247). -/
  uartAddr : Word
  /-- `TOHOST_ADDR`, the HTIF port (R248). -/
  tohostAddr : Word
  /-- `FROMHOST_ADDR`, where the acknowledge is written (R253). -/
  fromhostAddr : Word
  /-- Whether a syscall bridge is present (`BRIDGE`, R6, R243, R246). -/
  bridgePresent : Bool
  deriving DecidableEq, Repr

/-- What the bridge is handed at a forwarded ECALL (R243): the function number, the seven word arguments, and
guest memory. -/
structure BridgeCall where
  number : Word
  args : List Word
  mem : List Host.Cell
  deriving DecidableEq, Repr

/-- The host's answer to the `n`-th draw of the run when that draw is a `now()` (R229): any 64-bit number, under
no law. A free value: nothing in the model says what it is (log entry 3). It is indexed by the draw, not by the run:
for two launches in one claim see log entry 30. -/
opaque Config.now : Nat → BitVec 64

/-- The 32-bit result the bridge returns for a forwarded call that is the `n`-th draw of the run (R243, R244: "a
model with a bridge treats the result as a draw"). A free value (log entry 4). -/
opaque Config.bridgeResult : Nat → BridgeCall → Word

/-- The bytes of guest memory the bridge writes during that call, in order (R244: "the memory it leaves as any
memory"). A free value (log entry 4). -/
opaque Config.bridgeWrites : Nat → BridgeCall → List Host.Cell

/-- The bytes the bridge appends to stdout during that call (R244, R256). A free value (log entry 4). -/
opaque Config.bridgeOutput : Nat → BridgeCall → List Byte

end Sys2Proof
end

