-- ==== Sys2Proof/Machine/Defaults.lean ====
section
/-! DEFINITION. The parameter values of `State.reset`: the spec's defaults where R6 gives one, the model's choice
elsewhere (log entries 1 and 2). -/

namespace Sys2Proof.Machine

/-- The default parameters: `ALIGN_CHECK` off and the three conventional addresses as R6 gives them. R6 gives no
`CAPACITY` (D6: "no value is given") and leaves the bridge open; 64 KiB and no bridge are the conventions of
95_test_vectors.md (DESIGN CHOICE, unsafe: log entries 1 and 2). -/
def defaultConfig : Config where
  capacity := 0x10000
  alignCheck := false
  uartAddr := 0x10000000
  tohostAddr := 0x00001000
  fromhostAddr := 0x00001040
  bridgePresent := false

end Sys2Proof.Machine
end

