-- ==== Sys2Proof/Machine/State.lean ====
section
/-! DEFINITION. The state of the machine (10_state.md), the terminal statuses (R271), the reasons a step or a launch
can stop, and the state right after reset (R26 to R29). -/

namespace Sys2Proof.Machine

/-- How a run ends (R271): the seven fatal kinds and the guest's own exit. A closed enumeration; the spec gives no
numbers (D31). -/
inductive Status where
  /-- `ERR_OUT_OF_MEM`: the program is longer than memory. Raised at run entry only (R272, R301). -/
  | outOfMem
  /-- `InvalidMemoryAccess`: a fetch, load, store or HTIF access out of bounds (R273). -/
  | invalidMemoryAccess
  /-- `MisalignedMemoryAccess`: a misaligned jump target, or a misaligned data access under `ALIGN_CHECK` (R274). -/
  | misalignedMemoryAccess
  /-- `ERR_UNIMPLEMENTED_OPCODE`: a word that is no instruction (R275). -/
  | unimplementedOpcode
  /-- `ERR_UNIMPLEMENTED_MAGIC_SYSCALL`: an HTIF descriptor whose number is not 64 (R276). -/
  | unimplementedMagicSyscall
  /-- `ERR_EBREAK` (R277). -/
  | ebreak
  /-- `ERR_WFI` (R278). -/
  | wfi
  /-- `GuestExit(code, is_test)`: the guest ended the run itself (R279). The code has 31 bits (R241). -/
  | guestExit (code : BitVec 31) (isTest : Bool)
  deriving DecidableEq, Repr

/-- The run state (R17). -/
inductive RunState where
  | running
  | halted (status : Status)
  deriving DecidableEq, Repr

/-- Guest memory (R19, R30) as a list of (address, byte) pairs. An address that is not listed holds 0, the zero fill
of R29; the canonical form is `Memory.canonical` in Ops. -/
abbrev Memory := List Host.Cell

/-- Everything the spec gives the machine, and two fields of the model's own: `cfg`, the parameters of R6, which no
step changes, and `draws`, the number of host answers taken so far, which selects the next free value. -/
structure State where
  /-- The OPEN parameters (R6). -/
  cfg : Config
  /-- The general registers (R10). Slot 0 is `x0`; `readReg` gives 0 for it whatever the slot holds. -/
  regs : Vector Word 32
  /-- The program counter, all 32 bits (R14). -/
  pc : Word
  /-- The run state (R17). -/
  run : RunState
  /-- The retired-instruction counter (R18). -/
  instret : BitVec 64
  /-- Guest memory (R19). -/
  mem : Memory
  /-- The bytes sent to the host's standard output, oldest first (R21, R256). -/
  stdout : List Byte
  /-- How many host answers (`now()` reads and bridge calls) the run has taken (the model's own, log entry 3). -/
  draws : Nat
  deriving DecidableEq, Repr

/-- Why a step has no next state. -/
inductive Fault where
  /-- The run has ended with this status and no step is taken (R90, R97). Raised by `step` alone, never by an
  instruction; the halting step itself is a next state. Safe: the machine stops where the hardware stops. -/
  | runEnded (status : Status)
  deriving DecidableEq, Repr

/-- What the model gives no meaning. -/
inductive Refusal where
  /-- An instruction without a meaning. Raised by no arm of `exec`: every instruction has its meaning. Safe. -/
  | notModelled (mnemonic : String)
  /-- A launch that breaks a precondition of R305. Raised by `launch` alone, as R305 asks ("refuses it otherwise").
  Safe. -/
  | launchPrecondition
  deriving DecidableEq, Repr

/-- The machine right after reset, which is the start of a run (R300) with no initial registers and no program:
registers 0 (R26), pc 0 and `Running` (R27), `instret` 0 (R28), memory all zero (R29), stdout empty (R304). The
parameters are `defaultConfig` (log entries 1 and 2). A program is loaded by `launch` (log entry 5). -/
def State.reset : State where
  cfg := defaultConfig
  regs := Vector.replicate 32 0
  pc := 0
  run := .running
  instret := 0
  mem := []
  stdout := []
  draws := 0

end Sys2Proof.Machine
end

