-- ==== Sys2Proof/Machine/Ops.lean ====
section
/-! DEFINITION. The named operations every meaning is built from: registers, the three ways an instruction ends
(R15), memory and its checks (20_memory.md), output, and the host's answers. -/

namespace Sys2Proof.Machine

/-! ## Registers (R10, R11) -/

/-- `x[i]`: register 0 always reads as 0 (R10). -/
def readReg (s : State) (i : RegIdx) : Word :=
  if i = 0#5 then 0#32 else s.regs[i.toNat]'(by omega)

/-- `x[i] <- v`: a write to register 0 is discarded (R11). -/
def writeReg (s : State) (i : RegIdx) (v : Word) : State :=
  if i = 0#5 then s else { s with regs := s.regs.set i.toNat v (by omega) }

/-! ## How an instruction ends (R15) -/

/-- Normal end: `pc <- pc + 4`, modulo 2^32 (R94, R16). -/
def advance (s : State) : State := { s with pc := s.pc + 4#32 }

/-- Jump end: the new pc replaces the +4 advance (R95). The target has passed its alignment check. -/
def setPc (s : State) (target : Word) : State := { s with pc := target }

/-- `raise Halt(status)` (R96): what this hardware does in place of taking an exception (R270, R283). Nothing is
saved, no mode changes, control goes nowhere in the guest; the pc stays at the halting instruction. There is no
return from it (R284, R97). -/
def halt (s : State) (status : Status) : State := { s with run := .halted status }

/-- The first action of every step: `instret <- instret + 1`, modulo 2^64 (R90, R99). -/
def countStep (s : State) : State := { s with instret := s.instret + 1#64 }

/-! ## Memory as a byte array (R19, R30) -/

/-- The byte at an offset; 0 where nothing is listed (R29). -/
def Memory.read : Memory → Nat → Byte
  | [], _ => 0#8
  | (k, b) :: m, a => if k = a then b else Memory.read m a

/-- Memory without any entry at an offset, which then reads as 0. -/
def Memory.erase (m : Memory) (a : Nat) : Memory := m.filter fun c => decide (c.1 ≠ a)

/-- An entry put before the first entry of a higher offset. -/
def Memory.insert : Memory → Nat → Byte → Memory
  | [], a, b => [(a, b)]
  | (k, c) :: m, a, b => if a < k then (a, b) :: (k, c) :: m else (k, c) :: Memory.insert m a b

/-- Memory with one byte replaced. A zero byte is not listed, so equal memories are equal lists. -/
def Memory.write (m : Memory) (a : Nat) (b : Byte) : Memory :=
  if b = 0#8 then Memory.erase m a else Memory.insert (Memory.erase m a) a b

/-- Whether every offset listed lies at or above a bound, and the offsets rise strictly from it, with no zero byte
among the entries. -/
def Memory.risingFrom : Nat → Memory → Bool
  | _, [] => true
  | lo, (k, b) :: m => decide (lo ≤ k) && decide (b ≠ 0#8) && Memory.risingFrom (k + 1) m

/-- The canonical form: offsets strictly rising, no entry equal to what an unlisted offset reads as. -/
def Memory.canonical (m : Memory) : Bool := Memory.risingFrom 0 m

/-- Whether every listed offset lies inside the buffer (R30). -/
def Memory.within (capacity : Nat) (m : Memory) : Bool := m.all fun c => decide (c.1 < capacity)

/-- The invariant of guest memory: canonical and inside the buffer. -/
def Memory.wf (capacity : Nat) (m : Memory) : Bool := Memory.canonical m && Memory.within capacity m

/-- The `n` bytes from an offset up, as a number with the lowest offset least significant (R35; little-endian is the
spec's decision D1), zero-extended to a word. Meant for `n ≤ 4`. -/
def Memory.readLE (m : Memory) (a : Nat) : Nat → Word
  | 0 => 0#32
  | n + 1 => (Memory.read m a).setWidth 32 ||| (Memory.readLE m (a + 1) n <<< 8)

/-- The low `n` bytes of a word stored from an offset up, least significant first (R36). -/
def Memory.writeLE (m : Memory) (a : Nat) : Nat → Word → Memory
  | 0, _ => m
  | n + 1, v => Memory.writeLE (Memory.write m a (v.setWidth 8)) (a + 1) n (v >>> 8)

/-- The `n` bytes from an offset up, in ascending order. -/
def Memory.bytes (m : Memory) (a : Nat) : Nat → List Byte
  | 0 => []
  | n + 1 => Memory.read m a :: Memory.bytes m (a + 1) n

/-! ## Addresses and checks (R31 to R34) -/

/-- `EA(addr) = addr & 0x7FFFFFFF`, the buffer offset of a guest address (R31; `ADDR_MASK` of R6). -/
def effective (addr : Word) : Word := addr &&& 0x7FFFFFFF#32

/-- The buffer offset as a number. -/
def offsetOf (addr : Word) : Nat := (effective addr).toNat

/-- `EA(addr) + n > CAPACITY`, without wrap-around (R32). -/
def beyondCapacity (s : State) (addr : Word) (n : Nat) : Bool := decide (s.cfg.capacity < offsetOf addr + n)

/-- The data alignment check: only under `ALIGN_CHECK`, and never for a byte (R33). -/
def misaligned (s : State) (addr : Word) (w : Width) : Bool :=
  s.cfg.alignCheck && decide (offsetOf addr % w.bytes ≠ 0)

/-- The halt a data access raises, if any: bounds first, then alignment (R34; the order is the spec's decision D23). -/
def accessHalt (s : State) (addr : Word) (w : Width) : Option Status :=
  if beyondCapacity s addr w.bytes then some .invalidMemoryAccess
  else if misaligned s addr w then some .misalignedMemoryAccess
  else none

/-- `MemRead(addr, n)` (R35): the value zero-extended to a word. -/
def memRead (s : State) (addr : Word) (w : Width) : Except Status Word :=
  match accessHalt s addr w with
  | some status => .error status
  | none => .ok (Memory.readLE s.mem (offsetOf addr) w.bytes)

/-- `MemWrite(addr, n, v)` (R36): all of the bytes or, on a halt, none. -/
def memWrite (s : State) (addr : Word) (w : Width) (v : Word) : Except Status State :=
  match accessHalt s addr w with
  | some status => .error status
  | none => .ok { s with mem := Memory.writeLE s.mem (offsetOf addr) w.bytes v }

/-- `FetchWord(addr)` (R39): the bounds check and nothing else; the word is assembled as a 4-byte read is. -/
def fetchWord (s : State) (addr : Word) : Except Status Word :=
  if beyondCapacity s addr 4 then .error .invalidMemoryAccess
  else .ok (Memory.readLE s.mem (offsetOf addr) 4)

/-! ## Output and the host's answers (R21) -/

/-- `Emit(b)`: one byte appended to the host's stdout (R256). -/
def emit (s : State) (b : Byte) : State := { s with stdout := s.stdout ++ [b] }

/-- A sequence of bytes emitted in order. -/
def emitAll (s : State) (bs : List Byte) : State := { s with stdout := s.stdout ++ bs }

/-- One host answer taken: the next draw is a fresh one (R229). -/
def takeDraw (s : State) : State := { s with draws := s.draws + 1 }

end Sys2Proof.Machine
end

