-- ==== Sys2Proof/Machine/Operands.lean ====
section
/-! DEFINITION. The operand forms: addresses of loads and stores (R110, R116), the extensions of loaded values
(R37), the truncation of stored values (R116), shift amounts (R69, R153), link values and jump targets (R195 to
R203). -/

namespace Sys2Proof.Machine

/-- `x[rs1] + imm`, modulo 2^32: the one addressing mode of loads, stores and JALR (R110, R116, R203). -/
def baseAddress (s : State) (rs1 : RegIdx) (imm : Word) : Word := readReg s rs1 + imm

/-- `pc + imm`, modulo 2^32, from the pc of the instruction itself (R195, R191). -/
def pcRelative (s : State) (imm : Word) : Word := s.pc + imm

/-- The link value, `pc + 4` (R202, R203). -/
def linkValue (s : State) : Word := s.pc + 4#32

/-- JALR's target: the sum with bit 0 cleared (R203). -/
def jalrTarget (s : State) (rs1 : RegIdx) (imm : Word) : Word := baseAddress s rs1 imm &&& 0xFFFFFFFE#32

/-- The target check: any of the low 2 bits set (R204). -/
def targetMisaligned (target : Word) : Bool := decide (target.extractLsb' 0 2 ≠ 0#2)

/-- `sext_8` (R8, R37). -/
def signExtendByte (v : Word) : Word := (v.setWidth 8).signExtend 32

/-- `sext_16` (R8, R37). -/
def signExtendHalf (v : Word) : Word := (v.setWidth 16).signExtend 32

/-- `zext_8` (R8, R37). -/
def zeroExtendByte (v : Word) : Word := (v.setWidth 8).setWidth 32

/-- `zext_16` (R8, R37). -/
def zeroExtendHalf (v : Word) : Word := (v.setWidth 16).setWidth 32

/-- `zext_8n(v[8n-1:0])`: a stored value truncated to the width of the store (R116; D12). -/
def truncateTo (w : Width) (v : Word) : Word :=
  match w with
  | .byte => zeroExtendByte v
  | .half => zeroExtendHalf v
  | .word => v

/-- A register shift amount: the low 5 bits (R153; D42). -/
def shiftAmount (v : Word) : Nat := (v.extractLsb' 0 5).toNat

/-- The low byte of a word, as output takes it (R242, R247). -/
def lowByte (v : Word) : Byte := v.extractLsb' 0 8

/-- `v >>u 1` as a 31-bit exit code (R241, R249). -/
def exitCode (v : Word) : BitVec 31 := v.extractLsb' 1 31

/-- Bit 0 of an exit argument or packet (R241, R249). -/
def isTestFlag (v : Word) : Bool := v.getLsbD 0

end Sys2Proof.Machine
end

