-- ==== Sys2Proof/Machine/Flags.lean ====
section
/-! DEFINITION. Comparisons. The hardware has no flags and no condition codes (R22): "Comparisons write 0 or 1 to a
general register (SLT, SLTU, SLTI, SLTIU) or decide a branch directly". These are the comparisons, and the 0 or 1. -/

namespace Sys2Proof.Machine

/-- `a <s b` (R7, R8). -/
def lessSigned (a b : Word) : Bool := decide (a.toInt < b.toInt)

/-- `a <u b` (R7, R8). -/
def lessUnsigned (a b : Word) : Bool := decide (a.toNat < b.toNat)

/-- The word a comparison writes: 1 if it holds, else 0 (R22). -/
def boolWord (c : Bool) : Word := if c then 1#32 else 0#32

end Sys2Proof.Machine
end

