-- ==== Sys2Proof/Machine/Control.lean ====
section
/-! DEFINITION. Control transfer (46_control_transfer.md): the target check (R204), the six branches (R196 to R201,
R205) and the two jumps (R202, R203). -/

namespace Sys2Proof.Machine

/-- `JumpTo(target)` (R204): a misaligned target halts with the pc unchanged, whatever `ALIGN_CHECK` is. -/
def jumpTo (s : State) (target : Word) : State :=
  if targetMisaligned target then halt s .misalignedMemoryAccess else setPc s target

/-- The common rule of the branches (R196): jump end if taken, normal end if not; no target check if not taken. -/
def branchIf (taken : Bool) (s : State) (imm : Word) : Host.Outcome State Fault Refusal :=
  .next (if taken then jumpTo s (pcRelative s imm) else advance s)

/-- The common end of JAL and JALR (R202, R203): check, then link, then jump; on a failed check neither `x[rd]` nor
the pc is written. -/
def jumpAndLink (s : State) (rd : RegIdx) (target : Word) : Host.Outcome State Fault Refusal :=
  .next (if targetMisaligned target then halt s .misalignedMemoryAccess
    else setPc (writeReg s rd (linkValue s)) target)

/-- JAL (R202). -/
def execJal (rd : RegIdx) (imm : Word) (s : State) : Host.Outcome State Fault Refusal :=
  jumpAndLink s rd (pcRelative s imm)

/-- JALR (R203): the target is computed from `x[rs1]` before the link is written (D46). -/
def execJalr (rd rs1 : RegIdx) (imm : Word) (s : State) : Host.Outcome State Fault Refusal :=
  jumpAndLink s rd (jalrTarget s rs1 imm)

/-- BEQ (R197). -/
def execBeq (rs1 rs2 : RegIdx) (imm : Word) (s : State) : Host.Outcome State Fault Refusal :=
  branchIf (decide (readReg s rs1 = readReg s rs2)) s imm

/-- BNE (R198). -/
def execBne (rs1 rs2 : RegIdx) (imm : Word) (s : State) : Host.Outcome State Fault Refusal :=
  branchIf (decide (readReg s rs1 ≠ readReg s rs2)) s imm

/-- BLT (R199). -/
def execBlt (rs1 rs2 : RegIdx) (imm : Word) (s : State) : Host.Outcome State Fault Refusal :=
  branchIf (lessSigned (readReg s rs1) (readReg s rs2)) s imm

/-- BGE (R200). -/
def execBge (rs1 rs2 : RegIdx) (imm : Word) (s : State) : Host.Outcome State Fault Refusal :=
  branchIf (!lessSigned (readReg s rs1) (readReg s rs2)) s imm

/-- BLTU (R201). -/
def execBltu (rs1 rs2 : RegIdx) (imm : Word) (s : State) : Host.Outcome State Fault Refusal :=
  branchIf (lessUnsigned (readReg s rs1) (readReg s rs2)) s imm

/-- BGEU (R205). -/
def execBgeu (rs1 rs2 : RegIdx) (imm : Word) (s : State) : Host.Outcome State Fault Refusal :=
  branchIf (!lessUnsigned (readReg s rs1) (readReg s rs2)) s imm

end Sys2Proof.Machine
end

