-- ==== Sys2Proof/Machine/Upper.lean ====
section
/-! DEFINITION. The upper-immediate instructions (45_lui_auipc.md), and the normal end every register-writing
instruction shares (R94, R98). -/

namespace Sys2Proof.Machine

/-- The write-back and normal end of an instruction whose only effects are `x[rd] <- v` and `pc <- pc + 4` (R98, R94). -/
def writeBack (s : State) (rd : RegIdx) (v : Word) : Host.Outcome State Fault Refusal :=
  .next (advance (writeReg s rd v))

/-- LUI (R190): `x[rd] <- imm_U`. -/
def execLui (rd : RegIdx) (imm : Word) (s : State) : Host.Outcome State Fault Refusal :=
  writeBack s rd imm

/-- AUIPC (R191): `x[rd] <- pc + imm_U`, the pc unmasked. -/
def execAuipc (rd : RegIdx) (imm : Word) (s : State) : Host.Outcome State Fault Refusal :=
  writeBack s rd (pcRelative s imm)

end Sys2Proof.Machine
end

