-- ==== Sys2Proof/Machine/Csr.lean ====
section
/-! DEFINITION. The CSR file (R20, R228 to R230) and the seven CSR instructions, which all read (R220). -/

namespace Sys2Proof.Machine

/-! The seven recognised addresses (R20; the numbers are the spec's decision D5). -/

/-- `mstatus`, all fields hardwired 0. -/
def csrMstatus : BitVec 12 := 0x300#12

/-- `mtvec`, BASE and MODE hardwired 0. -/
def csrMtvec : BitVec 12 := 0x305#12

/-- `mcycle`, the low half of `now()`. -/
def csrMcycle : BitVec 12 := 0xB00#12

/-- `minstret`, the low half of `instret`. -/
def csrMinstret : BitVec 12 := 0xB02#12

/-- `mcycleh`, the high half of `now()`. -/
def csrMcycleh : BitVec 12 := 0xB80#12

/-- `minstreth`, the high half of `instret`. -/
def csrMinstreth : BitVec 12 := 0xB82#12

/-- `mhartid`, 0: one hart (R289). -/
def csrMhartid : BitVec 12 := 0xF14#12

/-- Whether reading this address asks the host for the time (R229). -/
def csrTakesDraw (csr : BitVec 12) : Bool := decide (csr = csrMcycle ∨ csr = csrMcycleh)

/-- `CsrRead(csr)` (R228). `instret` already counts the reading instruction (R230). -/
def csrRead (s : State) (csr : BitVec 12) : Word :=
  if csr = csrMhartid then 0#32
  else if csr = csrMstatus then 0#32
  else if csr = csrMtvec then 0#32
  else if csr = csrMcycle then (Config.now s.draws).extractLsb' 0 32
  else if csr = csrMcycleh then (Config.now s.draws).extractLsb' 32 32
  else if csr = csrMinstret then s.instret.extractLsb' 0 32
  else if csr = csrMinstreth then s.instret.extractLsb' 32 32
  else 0#32

/-- The state after the read itself: a `now()` read takes a draw, also when `rd = 0` (R220). -/
def afterCsrRead (s : State) (csr : BitVec 12) : State := if csrTakesDraw csr then takeDraw s else s

/-- The common rule of the CSR instructions (R220): `x[rd] <- CsrRead(csr)`, nothing written to any CSR, no halt. -/
def csrInstr (s : State) (rd : RegIdx) (csr : BitVec 12) : Host.Outcome State Fault Refusal :=
  writeBack (afterCsrRead s csr) rd (csrRead s csr)

/-- CSRRW (R221): `x[rs1]` is not read. -/
def execCsrrw (rd : RegIdx) (csr : BitVec 12) (_rs1 : RegIdx) (s : State) : Host.Outcome State Fault Refusal :=
  csrInstr s rd csr

/-- CSRRS (R222): no bit is set. -/
def execCsrrs (rd : RegIdx) (csr : BitVec 12) (_rs1 : RegIdx) (s : State) : Host.Outcome State Fault Refusal :=
  csrInstr s rd csr

/-- CSRRC (R223): no bit is cleared. -/
def execCsrrc (rd : RegIdx) (csr : BitVec 12) (_rs1 : RegIdx) (s : State) : Host.Outcome State Fault Refusal :=
  csrInstr s rd csr

/-- CSRR4, the System word with funct3 = 4 (R227). -/
def execCsrr4 (rd : RegIdx) (csr : BitVec 12) (s : State) : Host.Outcome State Fault Refusal :=
  csrInstr s rd csr

/-- CSRRWI (R224): `uimm` is ignored. -/
def execCsrrwi (rd : RegIdx) (csr : BitVec 12) (_uimm : BitVec 5) (s : State) : Host.Outcome State Fault Refusal :=
  csrInstr s rd csr

/-- CSRRSI (R225): `uimm` is ignored. -/
def execCsrrsi (rd : RegIdx) (csr : BitVec 12) (_uimm : BitVec 5) (s : State) : Host.Outcome State Fault Refusal :=
  csrInstr s rd csr

/-- CSRRCI (R226): `uimm` is ignored. -/
def execCsrrci (rd : RegIdx) (csr : BitVec 12) (_uimm : BitVec 5) (s : State) : Host.Outcome State Fault Refusal :=
  csrInstr s rd csr

end Sys2Proof.Machine
end

