-- ==== Sys2Proof/Machine/IntImm.lean ====
section
/-! DEFINITION. Integer register-immediate instructions (42_int_imm.md, common rule R130). -/

namespace Sys2Proof.Machine

/-- ADDI (R131). -/
def execAddi (rd rs1 : RegIdx) (imm : Word) (s : State) : Host.Outcome State Fault Refusal :=
  writeBack s rd (readReg s rs1 + imm)

/-- SLTI (R132). -/
def execSlti (rd rs1 : RegIdx) (imm : Word) (s : State) : Host.Outcome State Fault Refusal :=
  writeBack s rd (boolWord (lessSigned (readReg s rs1) imm))

/-- SLTIU (R133): the sign-extended immediate compared as unsigned. -/
def execSltiu (rd rs1 : RegIdx) (imm : Word) (s : State) : Host.Outcome State Fault Refusal :=
  writeBack s rd (boolWord (lessUnsigned (readReg s rs1) imm))

/-- XORI (R134). -/
def execXori (rd rs1 : RegIdx) (imm : Word) (s : State) : Host.Outcome State Fault Refusal :=
  writeBack s rd (readReg s rs1 ^^^ imm)

/-- ORI (R135). -/
def execOri (rd rs1 : RegIdx) (imm : Word) (s : State) : Host.Outcome State Fault Refusal :=
  writeBack s rd (readReg s rs1 ||| imm)

/-- ANDI (R136). -/
def execAndi (rd rs1 : RegIdx) (imm : Word) (s : State) : Host.Outcome State Fault Refusal :=
  writeBack s rd (readReg s rs1 &&& imm)

/-- SLLI (R137). -/
def execSlli (rd rs1 : RegIdx) (shamt : BitVec 5) (s : State) : Host.Outcome State Fault Refusal :=
  writeBack s rd (readReg s rs1 <<< shamt.toNat)

/-- SRLI (R138). -/
def execSrli (rd rs1 : RegIdx) (shamt : BitVec 5) (s : State) : Host.Outcome State Fault Refusal :=
  writeBack s rd (readReg s rs1 >>> shamt.toNat)

/-- SRAI (R139). -/
def execSrai (rd rs1 : RegIdx) (shamt : BitVec 5) (s : State) : Host.Outcome State Fault Refusal :=
  writeBack s rd ((readReg s rs1).sshiftRight shamt.toNat)

end Sys2Proof.Machine
end

