-- ==== Sys2Proof/Machine/IntReg.lean ====
section
/-! DEFINITION. Integer register-register instructions (43_int_reg.md, common rule R150). -/

namespace Sys2Proof.Machine

/-- The common rule (R150): both sources are read, then `x[rd]` is written with a function of them. -/
def regOp (f : Word → Word → Word) (rd rs1 rs2 : RegIdx) (s : State) : Host.Outcome State Fault Refusal :=
  writeBack s rd (f (readReg s rs1) (readReg s rs2))

/-- ADD (R151). -/
def execAdd (rd rs1 rs2 : RegIdx) (s : State) : Host.Outcome State Fault Refusal :=
  regOp (fun a b => a + b) rd rs1 rs2 s

/-- SUB (R152). -/
def execSub (rd rs1 rs2 : RegIdx) (s : State) : Host.Outcome State Fault Refusal :=
  regOp (fun a b => a - b) rd rs1 rs2 s

/-- SLL (R153). -/
def execSll (rd rs1 rs2 : RegIdx) (s : State) : Host.Outcome State Fault Refusal :=
  regOp (fun a b => a <<< shiftAmount b) rd rs1 rs2 s

/-- SLT (R154). -/
def execSlt (rd rs1 rs2 : RegIdx) (s : State) : Host.Outcome State Fault Refusal :=
  regOp (fun a b => boolWord (lessSigned a b)) rd rs1 rs2 s

/-- SLTU (R155). -/
def execSltu (rd rs1 rs2 : RegIdx) (s : State) : Host.Outcome State Fault Refusal :=
  regOp (fun a b => boolWord (lessUnsigned a b)) rd rs1 rs2 s

/-- XOR (R156). -/
def execXor (rd rs1 rs2 : RegIdx) (s : State) : Host.Outcome State Fault Refusal :=
  regOp (fun a b => a ^^^ b) rd rs1 rs2 s

/-- SRL (R157). -/
def execSrl (rd rs1 rs2 : RegIdx) (s : State) : Host.Outcome State Fault Refusal :=
  regOp (fun a b => a >>> shiftAmount b) rd rs1 rs2 s

/-- SRA (R158). -/
def execSra (rd rs1 rs2 : RegIdx) (s : State) : Host.Outcome State Fault Refusal :=
  regOp (fun a b => a.sshiftRight (shiftAmount b)) rd rs1 rs2 s

/-- OR (R159). -/
def execOr (rd rs1 rs2 : RegIdx) (s : State) : Host.Outcome State Fault Refusal :=
  regOp (fun a b => a ||| b) rd rs1 rs2 s

/-- AND (R160). -/
def execAnd (rd rs1 rs2 : RegIdx) (s : State) : Host.Outcome State Fault Refusal :=
  regOp (fun a b => a &&& b) rd rs1 rs2 s

end Sys2Proof.Machine
end

