-- ==== Sys2Proof/Machine/Htif.lean ====
section
/-! DEFINITION. The two intercepted store addresses (R40): the UART output port (R247) and the HTIF mailbox (R248 to
R254). Each operation answers the state after it, a halt included; the caller ends the store. -/

namespace Sys2Proof.Machine

/-- `write`, function 64 (`SYS_WRITE` of R6). -/
def sysWrite : Word := 64#32

/-- `exit`, function 93 (`SYS_EXIT` of R6). -/
def sysExit : Word := 93#32

/-- `UartStore(v)` (R247): one byte to stdout, the low 8 bits whatever the width of the store (D11). -/
def uartStore (s : State) (v : Word) : State := emit s (lowByte v)

/-- `EA(ptr) + len > CAPACITY`, without wrap-around (R251; D29). -/
def rangeOutOfBounds (s : State) (ptr len : Word) : Bool :=
  decide (s.cfg.capacity < offsetOf ptr + len.toNat)

/-- `HtifWrite(ptr, len)` (R251): the range is checked as a whole before any byte is emitted. -/
def htifWrite (s : State) (ptr len : Word) : Except Status State :=
  if rangeOutOfBounds s ptr len then .error .invalidMemoryAccess
  else .ok (emitAll s (Memory.bytes s.mem (offsetOf ptr) len.toNat))

/-- The acknowledge (R253): the 32-bit value 1 at `FROMHOST_ADDR`, four bytes, least significant first. Its one check is
the bounds check: R253, R271's table and R280 ("the only case") name no other, so `ALIGN_CHECK` has no part in it
(DEDUCED against R250's pseudocode, which writes `MemWrite`: log entry 9). -/
def acknowledge (s : State) : Except Status State :=
  if beyondCapacity s s.cfg.fromhostAddr 4 then .error .invalidMemoryAccess
  else .ok { s with mem := Memory.writeLE s.mem (offsetOf s.cfg.fromhostAddr) 4 1#32 }

/-- The three entries of the descriptor the engine reads, in R250's order: the number at +0, which must be 64 (R252),
then the pointer at +16 and the length at +24, each the low 4 bytes of its entry. -/
def readDescriptor (s : State) (p : Word) : Except Status (Word × Word) :=
  match memRead s p .word with
  | .error status => .error status
  | .ok number =>
    if number ≠ sysWrite then .error .unimplementedMagicSyscall
    else
      match memRead s (p + 16#32) .word with
      | .error status => .error status
      | .ok ptr =>
        match memRead s (p + 24#32) .word with
        | .error status => .error status
        | .ok len => .ok (ptr, len)

/-- `MagicSyscall(p)` (R250) and the normal end of the store. The bytes emitted are not undone when the acknowledge
is out of bounds (R280). -/
def magicSyscall (s : State) (p : Word) : State :=
  match readDescriptor s p with
  | .error status => halt s status
  | .ok (ptr, len) =>
    match htifWrite s ptr len with
    | .error status => halt s status
    | .ok written =>
      match acknowledge written with
      | .error status => halt written status
      | .ok acknowledged => advance acknowledged

/-- `TohostStore(v)` (R248): an odd packet ends the run (R249), an even one is a descriptor pointer (D30). -/
def tohostStore (s : State) (v : Word) : State :=
  if v.getLsbD 0 then halt s (.guestExit (exitCode v) (isTestFlag v)) else magicSyscall s v

end Sys2Proof.Machine
end

