-- ==== Sys2Proof/Machine/LoadStore.lean ====
section
/-! DEFINITION. Loads and stores (41_load_store.md): the common rules R110 and R116 once, then the eight
instructions. -/

namespace Sys2Proof.Machine

/-- The common rule of the loads (R110). A load with `rd = 0` makes its access all the same (R11; D37). Loads are
never intercepted (R41). -/
def load (w : Width) (extend : Word → Word) (rd rs1 : RegIdx) (imm : Word) (s : State) : State :=
  match memRead s (baseAddress s rs1 imm) w with
  | .error status => halt s status
  | .ok v => advance (writeReg s rd (extend v))

/-- The common rule of the stores, `Store(n)` (R116): interception on the masked address of the first byte, before
any check (R34, R40), else the ordinary write. -/
def store (w : Width) (rs1 rs2 : RegIdx) (imm : Word) (s : State) : State :=
  let addr := baseAddress s rs1 imm
  let v := readReg s rs2
  if effective addr = s.cfg.uartAddr then advance (uartStore s v)
  else if effective addr = s.cfg.tohostAddr then tohostStore s (truncateTo w v)
  else
    match memWrite s addr w v with
    | .error status => halt s status
    | .ok t => advance t

/-- LB (R111). -/
def execLb (rd rs1 : RegIdx) (imm : Word) (s : State) : Host.Outcome State Fault Refusal :=
  .next (load .byte signExtendByte rd rs1 imm s)

/-- LH (R112). -/
def execLh (rd rs1 : RegIdx) (imm : Word) (s : State) : Host.Outcome State Fault Refusal :=
  .next (load .half signExtendHalf rd rs1 imm s)

/-- LW (R113). -/
def execLw (rd rs1 : RegIdx) (imm : Word) (s : State) : Host.Outcome State Fault Refusal :=
  .next (load .word id rd rs1 imm s)

/-- LBU (R114). -/
def execLbu (rd rs1 : RegIdx) (imm : Word) (s : State) : Host.Outcome State Fault Refusal :=
  .next (load .byte zeroExtendByte rd rs1 imm s)

/-- LHU (R115). -/
def execLhu (rd rs1 : RegIdx) (imm : Word) (s : State) : Host.Outcome State Fault Refusal :=
  .next (load .half zeroExtendHalf rd rs1 imm s)

/-- SB (R117). -/
def execSb (rs1 rs2 : RegIdx) (imm : Word) (s : State) : Host.Outcome State Fault Refusal :=
  .next (store .byte rs1 rs2 imm s)

/-- SH (R118). -/
def execSh (rs1 rs2 : RegIdx) (imm : Word) (s : State) : Host.Outcome State Fault Refusal :=
  .next (store .half rs1 rs2 imm s)

/-- SW (R119). -/
def execSw (rs1 rs2 : RegIdx) (imm : Word) (s : State) : Host.Outcome State Fault Refusal :=
  .next (store .word rs1 rs2 imm s)

end Sys2Proof.Machine
end

