-- ==== Sys2Proof/Machine/MulDiv.lean ====
section
/-! DEFINITION. Multiply and divide (44_muldiv.md, common rule R170, arithmetic laws R179). Each result is computed
exactly on integers and narrowed at the end. -/

namespace Sys2Proof.Machine

/-- `p[63:32]` of an exact product (R172 to R174). -/
def highWord (p : Int) : Word := (BitVec.ofInt 64 p).extractLsb' 32 32

/-- The low 32 bits of the product (R171). -/
def mulLow (a b : Word) : Word := BitVec.ofInt 32 (a.toInt * b.toInt)

/-- High product, signed by signed (R172). -/
def mulHighSigned (a b : Word) : Word := highWord (a.toInt * b.toInt)

/-- High product, the first operand signed and the second unsigned (R173). -/
def mulHighMixed (a b : Word) : Word := highWord (a.toInt * (b.toNat : Int))

/-- High product, unsigned by unsigned (R174). -/
def mulHighUnsigned (a b : Word) : Word := highWord ((a.toNat : Int) * (b.toNat : Int))

/-- `INT32_MIN` divided by -1, the one signed overflow (R175, R177). -/
def divOverflows (a b : Word) : Bool := decide (a = 0x80000000#32 ∧ b = 0xFFFFFFFF#32)

/-- Signed quotient, toward zero, with the two special cases (R175). -/
def divSigned (a b : Word) : Word :=
  if b = 0#32 then 0xFFFFFFFF#32
  else if divOverflows a b then a
  else BitVec.ofInt 32 (a.toInt.tdiv b.toInt)

/-- Unsigned quotient (R176). -/
def divUnsigned (a b : Word) : Word :=
  if b = 0#32 then 0xFFFFFFFF#32 else BitVec.ofNat 32 (a.toNat / b.toNat)

/-- Signed remainder, of the sign of the dividend, with the two special cases (R177). -/
def remSigned (a b : Word) : Word :=
  if b = 0#32 then a
  else if divOverflows a b then 0#32
  else BitVec.ofInt 32 (a.toInt - b.toInt * a.toInt.tdiv b.toInt)

/-- Unsigned remainder (R178). -/
def remUnsigned (a b : Word) : Word :=
  if b = 0#32 then a else BitVec.ofNat 32 (a.toNat % b.toNat)

/-- MUL (R171). -/
def execMul (rd rs1 rs2 : RegIdx) (s : State) : Host.Outcome State Fault Refusal :=
  regOp mulLow rd rs1 rs2 s

/-- MULH (R172). -/
def execMulh (rd rs1 rs2 : RegIdx) (s : State) : Host.Outcome State Fault Refusal :=
  regOp mulHighSigned rd rs1 rs2 s

/-- MULHSU (R173). -/
def execMulhsu (rd rs1 rs2 : RegIdx) (s : State) : Host.Outcome State Fault Refusal :=
  regOp mulHighMixed rd rs1 rs2 s

/-- MULHU (R174). -/
def execMulhu (rd rs1 rs2 : RegIdx) (s : State) : Host.Outcome State Fault Refusal :=
  regOp mulHighUnsigned rd rs1 rs2 s

/-- DIV (R175). -/
def execDiv (rd rs1 rs2 : RegIdx) (s : State) : Host.Outcome State Fault Refusal :=
  regOp divSigned rd rs1 rs2 s

/-- DIVU (R176). -/
def execDivu (rd rs1 rs2 : RegIdx) (s : State) : Host.Outcome State Fault Refusal :=
  regOp divUnsigned rd rs1 rs2 s

/-- REM (R177). -/
def execRem (rd rs1 rs2 : RegIdx) (s : State) : Host.Outcome State Fault Refusal :=
  regOp remSigned rd rs1 rs2 s

/-- REMU (R178). -/
def execRemu (rd rs1 rs2 : RegIdx) (s : State) : Host.Outcome State Fault Refusal :=
  regOp remUnsigned rd rs1 rs2 s

end Sys2Proof.Machine
end

