-- ==== Sys2Proof/Machine/System.lean ====
section
/-! DEFINITION. ECALL with its function dispatch (R216, R240 to R246), EBREAK (R217), WFI (R218), and the halt of
every word that is no instruction (R74, R93). -/

namespace Sys2Proof.Machine

/-- `a7`, the function number (R240). -/
def regA7 : RegIdx := 17#5

/-- `a0`, the argument and the bridge's result (R240, R243). -/
def regA0 : RegIdx := 10#5

/-- What a forwarded call hands the bridge: `x17`, `x10` to `x16` and guest memory (R243; D27). -/
def bridgeCallOf (s : State) : BridgeCall where
  number := readReg s regA7
  args := [readReg s 10#5, readReg s 11#5, readReg s 12#5, readReg s 13#5, readReg s 14#5, readReg s 15#5, readReg s 16#5]
  mem := s.mem

/-- The bridge's writes applied in order. It touches no byte outside `mem[0 .. CAPACITY-1]` (R244). -/
def applyWrites (capacity : Nat) : Memory → List Host.Cell → Memory
  | m, [] => m
  | m, (a, b) :: rest => applyWrites capacity (if a < capacity then Memory.write m a b else m) rest

/-- `EcallForward` (R243, R244): memory, stdout and `x10` become whatever the bridge makes of them (free values, log
entry 4); no other register changes and the run is not halted. -/
def ecallForward (s : State) : State :=
  let call := bridgeCallOf s
  let t := { s with
    mem := applyWrites s.cfg.capacity s.mem (Config.bridgeWrites s.draws call)
    stdout := s.stdout ++ Config.bridgeOutput s.draws call }
  takeDraw (writeReg t regA0 (Config.bridgeResult s.draws call))

/-- `EcallExit` (R241). -/
def ecallExit (s : State) : State :=
  halt s (.guestExit (exitCode (readReg s regA0)) (isTestFlag (readReg s regA0)))

/-- ECALL (R216, R240): exit, single-character write (R242), the bridge if present (R243), else nothing (R246). -/
def execEcall (s : State) : Host.Outcome State Fault Refusal :=
  .next (
    if readReg s regA7 = sysExit then ecallExit s
    else if readReg s regA7 = sysWrite then advance (emit s (lowByte (readReg s regA0)))
    else if s.cfg.bridgePresent then advance (ecallForward s)
    else advance s)

/-- EBREAK (R217): ends the run. -/
def execEbreak (s : State) : Host.Outcome State Fault Refusal :=
  .next (halt s .ebreak)

/-- WFI (R218): ends the run. -/
def execWfi (s : State) : Host.Outcome State Fault Refusal :=
  .next (halt s .wfi)

/-- A word outside the map (R74, R93, R275): ends the run; the word itself is not recorded. -/
def execUnimp (_word : Word) (s : State) : Host.Outcome State Fault Refusal :=
  .next (halt s .unimplementedOpcode)

end Sys2Proof.Machine
end

