-- ==== Sys2Proof/Machine/Step.lean ====
section
/-! DEFINITION. One step of the machine (R90): count, fetch, decode, execute. -/

namespace Sys2Proof.Machine

/-- The step (R90, R104). In `Halted` no step is taken (R97). The events in order: `instret` is incremented (R99), the
word at the pc is fetched or the run halts with `InvalidMemoryAccess` (R92), the word is decoded and its instruction
executed on the state that counts it. Each meaning moves the pc itself (R94, R95). -/
def step (s : State) : Host.Outcome State Fault Refusal :=
  match s.run with
  | .halted status => .fault (.runEnded status)
  | .running =>
    match fetchWord (countStep s) s.pc with
    | .error status => .next (halt (countStep s) status)
    | .ok w => exec (decode w) (countStep s)

/-- The state with an instruction's word, its bits numbered as spec/opcode_table.json numbers them, stored where the
next step fetches: the four bytes at `EA(pc)`, least significant first (R39). Nothing else changes. -/
def State.withFetchWord (s : State) (nbits w : Nat) : State :=
  { s with mem := Memory.writeLE s.mem (offsetOf s.pc) 4 (BitVec.ofNat 32 (w % 2 ^ nbits)) }

end Sys2Proof.Machine
end

