-- ==== Sys2Proof/Machine/Launch.lean ====
section
/-! DEFINITION. Run entry, the run, and its result (70_reset_and_hazards.md): `run(registers, program) -> ExitResult`
(R300). The program comes from outside the machine, so this stands beside `step`, which it calls. -/

namespace Sys2Proof.Machine

/-- The constraint on `CAPACITY`: a power of two, at most 2^31 (R6, R305). -/
def capacityValid (cfg : Config) : Bool := (List.range 32).any fun k => decide (cfg.capacity = 2 ^ k)

/-- The constraints on the three addresses (R305): each below 2^31, pairwise different, and neither port among the
four bytes of the acknowledge (D35; log entry 8). -/
def addressesValid (cfg : Config) : Bool :=
  decide (cfg.uartAddr.toNat < 2 ^ 31) && decide (cfg.tohostAddr.toNat < 2 ^ 31) &&
  decide (cfg.fromhostAddr.toNat < 2 ^ 31) && decide (cfg.uartAddr ≠ cfg.tohostAddr) &&
  decide (cfg.uartAddr.toNat < cfg.fromhostAddr.toNat ∨ cfg.fromhostAddr.toNat + 4 ≤ cfg.uartAddr.toNat) &&
  decide (cfg.tohostAddr.toNat < cfg.fromhostAddr.toNat ∨ cfg.fromhostAddr.toNat + 4 ≤ cfg.tohostAddr.toNat)

/-- The precondition on the caller's registers: absent, or with element 0 zero (R26, R305). -/
def initialRegsValid : Option (Vector Word 32) → Bool
  | none => true
  | some regs => decide (regs[0] = 0#32)

/-- Every launch precondition of R305. -/
def launchValid (cfg : Config) (initial : Option (Vector Word 32)) : Bool :=
  capacityValid cfg && addressesValid cfg && initialRegsValid initial

/-- A byte string placed from an offset up in zero-filled memory, in canonical form (R29, R302). -/
def Memory.image (a : Nat) : List Byte → Memory
  | [] => []
  | b :: rest => if b = 0#8 then Memory.image (a + 1) rest else (a, b) :: Memory.image (a + 1) rest

/-- The state of R303 and R304 over a given memory: the caller's registers or zeros, pc 0, `Running`, `instret` 0,
stdout empty. The model's own counter of host answers starts at 0, so two launches draw the same unknown answers: the
spec gives no law between the answers of two runs (R229, R308), and this relation is a DESIGN CHOICE (log entry 30). -/
def bootState (cfg : Config) (initial : Option (Vector Word 32)) (mem : Memory) : State where
  cfg := cfg
  regs := initial.getD (Vector.replicate 32 0)
  pc := 0
  run := .running
  instret := 0
  mem := mem
  stdout := []
  draws := 0

/-- Run entry (R300 to R305): refused if a precondition fails, halted with `ERR_OUT_OF_MEM` before any step if the
program is longer than memory (R301), else ready for the first step. -/
def launch (cfg : Config) (initial : Option (Vector Word 32)) (program : List Byte) : Host.Outcome State Fault Refusal :=
  if launchValid cfg initial then
    if cfg.capacity < program.length then .next (halt (bootState cfg initial []) .outOfMem)
    else .next (bootState cfg initial (Memory.image 0 program))
  else .refused .launchPrecondition

/-- The result of a run (R306): the register file, the pc and the terminal status. -/
structure ExitResult where
  regs : List Word
  pc : Word
  status : Status
  deriving DecidableEq, Repr

/-- The result, read at the moment the run has ended (R306, R307). `x[0]` in it is 0. -/
def resultOf (s : State) : Option ExitResult :=
  match s.run with
  | .running => none
  | .halted status =>
    some { regs := (List.range 32).map fun i => readReg s (BitVec.ofNat 5 i), pc := s.pc, status := status }

/-- At most `n` steps, stopping when the run has ended (R100). -/
def runSteps : Nat → State → State
  | 0, s => s
  | n + 1, s =>
    match step s with
    | .next t => runSteps n t
    | .fault _ => s
    | .refused _ => s

/-- `run` (R300) cut off after a number of steps: `none` if the launch is refused or the run has not ended by then. -/
def run (steps : Nat) (cfg : Config) (initial : Option (Vector Word 32)) (program : List Byte) : Option ExitResult :=
  match launch cfg initial program with
  | .next s => resultOf (runSteps steps s)
  | .fault _ => none
  | .refused _ => none

end Sys2Proof.Machine
end

