-- ==== Sys2Proof/Safety.lean ====
section
/-! DEFINITION. The terms the claims use: the invariant of the machine, which instruction may write what, and the
shape "completes with one register written". -/

namespace Sys2Proof.Machine

/-- What every step keeps: the slot of `x0` holds 0 (R10), the pc is a multiple of 4 (R14), and memory is in its
canonical form inside the buffer (R30). -/
abbrev State.Inv (s : State) : Prop :=
  s.regs[0] = 0#32 ∧ s.pc.toNat % 4 = 0 ∧ Memory.wf s.cfg.capacity s.mem = true

/-- The instruction completes: `x[rd] <- v` (skipped for `x0`, R11) and the normal end (R94), nothing else changes. -/
def CompletesWith (i : Instr) (s : State) (rd : RegIdx) (v : Word) : Prop :=
  ∃ t, exec i s = .next t ∧
    (∀ r, readReg t r = if r = rd ∧ rd ≠ 0#5 then v else readReg s r) ∧
    t.pc = s.pc + 4#32 ∧ t.run = s.run ∧ t.mem = s.mem ∧ t.stdout = s.stdout ∧
    t.instret = s.instret ∧ t.draws = s.draws ∧ t.cfg = s.cfg

/-- The instruction completes as `CompletesWith` says, having taken one answer from the host (R229). -/
def CompletesWithDraw (i : Instr) (s : State) (rd : RegIdx) (v : Word) : Prop :=
  ∃ t, exec i s = .next t ∧
    (∀ r, readReg t r = if r = rd ∧ rd ≠ 0#5 then v else readReg s r) ∧
    t.pc = s.pc + 4#32 ∧ t.run = s.run ∧ t.mem = s.mem ∧ t.stdout = s.stdout ∧
    t.instret = s.instret ∧ t.draws = s.draws + 1 ∧ t.cfg = s.cfg

/-- The instruction completes with the low `n` bytes of `v` stored from offset `base` up, least significant first
(R36), and the normal end; nothing else changes. -/
def CompletesStoring (i : Instr) (s : State) (base n : Nat) (v : Word) : Prop :=
  ∃ t, exec i s = .next t ∧
    (∀ a, Memory.read t.mem a =
      if base ≤ a ∧ a < base + n then (v >>> (8 * (a - base))).setWidth 8 else Memory.read s.mem a) ∧
    (∀ r, readReg t r = readReg s r) ∧ t.pc = s.pc + 4#32 ∧ t.run = s.run ∧ t.stdout = s.stdout ∧
    t.instret = s.instret ∧ t.draws = s.draws ∧ t.cfg = s.cfg

/-- The instruction completes with one byte appended to stdout (R256) and the normal end; nothing else changes. -/
def CompletesEmitting (i : Instr) (s : State) (b : Byte) : Prop :=
  ∃ t, exec i s = .next t ∧ t.stdout = s.stdout ++ [b] ∧ t.mem = s.mem ∧
    (∀ r, readReg t r = readReg s r) ∧ t.pc = s.pc + 4#32 ∧ t.run = s.run ∧
    t.instret = s.instret ∧ t.draws = s.draws ∧ t.cfg = s.cfg

/-- The instruction completes with a jump to `target`, `x[rd]` holding the link `pc + 4` (R202, R203); nothing else
changes. -/
def CompletesJumping (i : Instr) (s : State) (rd : RegIdx) (target : Word) : Prop :=
  ∃ t, exec i s = .next t ∧ t.pc = target ∧
    (∀ r, readReg t r = if r = rd ∧ rd ≠ 0#5 then s.pc + 4#32 else readReg s r) ∧
    t.run = s.run ∧ t.mem = s.mem ∧ t.stdout = s.stdout ∧
    t.instret = s.instret ∧ t.draws = s.draws ∧ t.cfg = s.cfg

/-- A branch completes: to `pc + imm` if its condition holds and that target is a multiple of 4, to `pc + 4` if the
condition does not hold (whatever the offset); nothing but the pc changes (R196). -/
def BranchCompletes (i : Instr) (s : State) (imm : Word) (condition : Prop) : Prop :=
  (condition → (s.pc + imm).toNat % 4 = 0 → exec i s = .next { s with pc := s.pc + imm }) ∧
  (¬condition → exec i s = .next { s with pc := s.pc + 4#32 })

/-- A branch whose condition holds and whose target is not a multiple of 4 halts, nothing else changing (R204). -/
def BranchTraps (i : Instr) (s : State) (imm : Word) (condition : Prop) : Prop :=
  condition → (s.pc + imm).toNat % 4 ≠ 0 → exec i s = .next { s with run := .halted .misalignedMemoryAccess }

/-- The register the instruction's `rd` field names, if its rule writes one (R13). -/
def destOf : Instr → Option RegIdx
  | .lui rd _ | .auipc rd _ | .jal rd _ | .jalr rd _ _ => some rd
  | .lb rd _ _ | .lh rd _ _ | .lw rd _ _ | .lbu rd _ _ | .lhu rd _ _ => some rd
  | .addi rd _ _ | .slti rd _ _ | .sltiu rd _ _ | .xori rd _ _ | .ori rd _ _ | .andi rd _ _ => some rd
  | .slli rd _ _ | .srli rd _ _ | .srai rd _ _ => some rd
  | .mul rd _ _ | .mulh rd _ _ | .mulhsu rd _ _ | .mulhu rd _ _ => some rd
  | .div rd _ _ | .divu rd _ _ | .rem rd _ _ | .remu rd _ _ => some rd
  | .add rd _ _ | .sub rd _ _ | .srl rd _ _ | .sra rd _ _ | .sll rd _ _ => some rd
  | .slt rd _ _ | .sltu rd _ _ | .xor rd _ _ | .or rd _ _ | .and rd _ _ => some rd
  | .csrrw rd _ _ | .csrrs rd _ _ | .csrrc rd _ _ | .csrr4 rd _ => some rd
  | .csrrwi rd _ _ | .csrrsi rd _ _ | .csrrci rd _ _ => some rd
  | .beq _ _ _ | .bne _ _ _ | .blt _ _ _ | .bge _ _ _ | .bltu _ _ _ | .bgeu _ _ _ => none
  | .sb _ _ _ | .sh _ _ _ | .sw _ _ _ => none
  | .ecall | .ebreak | .wfi | .unimp _ => none

/-- Whether an ECALL in this state is forwarded to a bridge (R240, R243). -/
def ecallIsForwarded (s : State) : Bool :=
  s.cfg.bridgePresent && decide (readReg s regA7 ≠ sysExit) && decide (readReg s regA7 ≠ sysWrite)

/-- Whether the instruction may write register `r` in this state: its `rd`, or `x10` for a forwarded ECALL (R13). -/
def mayWriteReg (i : Instr) (s : State) (r : RegIdx) : Bool :=
  decide (destOf i = some r) || (decide (i = .ecall) && ecallIsForwarded s && decide (r = regA0))

/-- The operands of a store: its width, base register, source register and immediate (R117 to R119). -/
def storeOperands : Instr → Option (Width × RegIdx × RegIdx × Word)
  | .sb rs1 rs2 imm => some (.byte, rs1, rs2, imm)
  | .sh rs1 rs2 imm => some (.half, rs1, rs2, imm)
  | .sw rs1 rs2 imm => some (.word, rs1, rs2, imm)
  | _ => none

/-- The operands of a load: its width, base register and immediate (R111 to R115). -/
def loadOperands : Instr → Option (Width × RegIdx × Word)
  | .lb _ rs1 imm | .lbu _ rs1 imm => some (.byte, rs1, imm)
  | .lh _ rs1 imm | .lhu _ rs1 imm => some (.half, rs1, imm)
  | .lw _ rs1 imm => some (.word, rs1, imm)
  | _ => none

/-- Whether offset `a` is one of the `n` from `base` up. -/
def inRange (a base n : Nat) : Bool := decide (base ≤ a) && decide (a < base + n)

/-- Whether the instruction stores to offset `a` in this state: an ordinary store's own bytes (R116); the four
acknowledge bytes for an even `tohost` packet (R253); any byte of the buffer for a forwarded ECALL (R244). -/
def storesTo (i : Instr) (s : State) (a : Nat) : Bool :=
  match storeOperands i with
  | some (w, rs1, rs2, imm) =>
    if effective (baseAddress s rs1 imm) = s.cfg.uartAddr then false
    else if effective (baseAddress s rs1 imm) = s.cfg.tohostAddr then
      !(readReg s rs2).getLsbD 0 && inRange a (offsetOf s.cfg.fromhostAddr) 4
    else inRange a (offsetOf (baseAddress s rs1 imm)) w.bytes
  | none => decide (i = .ecall) && ecallIsForwarded s && decide (a < s.cfg.capacity)

/-- Whether the instruction may add to stdout: an ECALL or a store (R256). -/
def mayEmit (i : Instr) : Bool := decide (i = .ecall) || (storeOperands i).isSome

/-- The instructions that can end with a jump (R15): the six branches, JAL and JALR. -/
def isControlTransfer : Instr → Bool
  | .beq _ _ _ | .bne _ _ _ | .blt _ _ _ | .bge _ _ _ | .bltu _ _ _ | .bgeu _ _ _ | .jal _ _ | .jalr _ _ _ => true
  | _ => false

/-- The CSR address of a CSR instruction (R220). -/
def csrOperand : Instr → Option (BitVec 12)
  | .csrrw _ csr _ | .csrrs _ csr _ | .csrrc _ csr _ | .csrr4 _ csr => some csr
  | .csrrwi _ csr _ | .csrrsi _ csr _ | .csrrci _ csr _ => some csr
  | _ => none

/-- Whether the instruction takes an answer from the host: a read of `mcycle` or `mcycleh`, or a forwarded ECALL
(R102: "the only sources of non-determinism"). -/
def asksHost (i : Instr) (s : State) : Bool :=
  ((csrOperand i).any csrTakesDraw) || (decide (i = .ecall) && ecallIsForwarded s)

/-- The conditions under which a data access of `n` bytes is performed: inside the buffer (R32) and, under
`ALIGN_CHECK`, naturally aligned (R33). -/
def AccessAllowed (s : State) (addr : Word) (w : Width) : Prop :=
  offsetOf addr + w.bytes ≤ s.cfg.capacity ∧ (s.cfg.alignCheck = true → offsetOf addr % w.bytes = 0)

/-- A store address that is not intercepted (R40). -/
def NotIntercepted (s : State) (addr : Word) : Prop :=
  effective addr ≠ s.cfg.uartAddr ∧ effective addr ≠ s.cfg.tohostAddr

/-- `CAPACITY` as R6 and R305 constrain it: a power of two, at most 2^31. -/
abbrev CapacityAllowed (cfg : Config) : Prop := (∃ k, cfg.capacity = 2 ^ k) ∧ cfg.capacity ≤ 2 ^ 31

/-- The three addresses as R305 and D35 constrain them: each below 2^31, pairwise different, and neither port one of
the four acknowledge bytes (log entry 8). -/
abbrev AddressesAllowed (cfg : Config) : Prop :=
  (cfg.uartAddr.toNat < 2 ^ 31 ∧ cfg.tohostAddr.toNat < 2 ^ 31 ∧ cfg.fromhostAddr.toNat < 2 ^ 31) ∧
  (cfg.uartAddr ≠ cfg.tohostAddr ∧ cfg.uartAddr ≠ cfg.fromhostAddr ∧ cfg.tohostAddr ≠ cfg.fromhostAddr) ∧
  ∀ k, k < 4 → cfg.fromhostAddr.toNat + k ≠ cfg.uartAddr.toNat ∧ cfg.fromhostAddr.toNat + k ≠ cfg.tohostAddr.toNat

/-- The launch preconditions, collected as R305 collects them: the capacity, the addresses, and the caller's registers
absent or with element 0 zero. Written from the rule, apart from the test `launch` makes, which a claim compares it with. -/
def LaunchAllowed (cfg : Config) (initial : Option (Vector Word 32)) : Prop :=
  CapacityAllowed cfg ∧ AddressesAllowed cfg ∧ ∀ regs, initial = some regs → regs[0] = 0#32

/-- A successful run (R307): the guest's own exit with code 0. -/
def Status.successful : Status → Bool
  | .guestExit code _ => decide (code = 0#31)
  | _ => false

end Sys2Proof.Machine
end

