-- ==== Sys2Proof/Certificates/Slice0/Obligations.lean ====
section
/-! DEFINITION. The statements for the provers. Each docstring names the rule of spec/ it formalises; where a clause
rests on a decision the spec marks as its own (a D entry of 92_eei_decisions.md) or on a choice of the model, the
docstring says so. Free values (`Config.now`, `Config.bridgeResult`, `Config.bridgeWrites`, `Config.bridgeOutput`) have
no definition, so a statement that names one holds for every value of it. -/

open Sys2Proof Sys2Proof.Machine

/-! ## Encoding -/

/-- Words the spec writes out with their assembly decode to the instruction they stand for: R190, R191, R202, R203,
R198, R111, R118, R131, R139, R152, R173, R217, R216 (the standard `ebreak` word is ECALL, conflict C1), R218, R221,
R227, and FENCE as an illegal word (R74). -/
def Obligations.DecodesWordsOfTheSpec : Prop :=
  decode 0x123452B7 = .lui 5 0x12345000 ∧ decode 0x00001297 = .auipc 5 0x1000 ∧
  decode 0xFF9FF06F = .jal 0 0xFFFFFFF8 ∧ decode 0x004280E7 = .jalr 1 5 4 ∧
  decode 0xFE209EE3 = .bne 1 2 0xFFFFFFFC ∧ decode 0xFFF30283 = .lb 5 6 0xFFFFFFFF ∧
  decode 0xFE731F23 = .sh 6 7 0xFFFFFFFE ∧ decode 0x00500093 = .addi 1 0 5 ∧
  decode 0x40435293 = .srai 5 6 4 ∧ decode 0x402081B3 = .sub 3 1 2 ∧
  decode 0x0220A1B3 = .mulhsu 3 1 2 ∧ decode 0x02000073 = .ebreak ∧
  decode 0x00100073 = .ecall ∧ decode 0x10500073 = .wfi ∧
  decode 0x300312F3 = .csrrw 5 0x300 6 ∧ decode 0xF14042F3 = .csrr4 5 0xF14 ∧
  decode 0x0FF0000F = .unimp 0x0FF0000F

/-- Decoding the canonical word of any well-formed instruction gives that instruction, every operand at every value its
field admits (R61 to R72). -/
def Obligations.DecodeOfEncodeIsIdentity : Prop :=
  ∀ i : Instr, i.wellFormed = true → decode (encode i) = i

/-- Every word decodes to a well-formed instruction: each immediate is in the range and of the shape its rule gives
(R64 to R68), and `unimp` only carries an illegal word (R74). -/
def Obligations.DecodedInstructionsAreWellFormed : Prop :=
  ∀ w : Word, (decode w).wellFormed = true

/-- Decoding drops no bit but those R75 says are not examined: encoding the decoded instruction again gives a word that
agrees with the first on every other bit. -/
def Obligations.EncodeKeepsExaminedBits : Prop :=
  ∀ w : Word, encode (decode w) &&& examinedBits (decode w) = w &&& examinedBits (decode w)

/-- The decode function and the opcode table are the same function: the first row of the table that matches a word is
the row of the instruction it decodes to (R72: "the same function written as match/mask rows in priority order"). -/
def Obligations.DecodeAgreesWithOpcodeTable : Prop :=
  ∀ w : Word, opcodeTable.find? (rowMatches w) = some (tableRow (decode w))

/-- A word decodes to `unimp` exactly when it belongs to the illegal set as the spec lists it (R74, R120, R161, R206,
R219; the spec's decisions D15, D16, D17), and `unimp` carries the word itself. -/
def Obligations.UnimpExactlyOnUnassignedWords : Prop :=
  ∀ w : Word, (decode w = .unimp w ↔ unassignedWord w = true) ∧ ∀ v : Word, decode w = .unimp v → v = w

/-- The bits R75 lists do not matter: two words that differ only there decode alike (JALR's funct3; the upper bits of
SLLI, SRLI and SRAI; funct7 of SLL, SLT, SLTU, XOR, OR, AND as long as it is not 1; rd, rs1 and rs2 of ECALL, EBREAK and
WFI; rs1 of CSRR4). The spec's decisions D16, D17, D18. -/
def Obligations.UnexaminedBitsDoNotSelect : Prop :=
  ∀ w v : Word,
    (opcodeOf w = 0x67#7 → v &&& 0xFFFF8FFF#32 = w &&& 0xFFFF8FFF#32 → decode v = decode w) ∧
    (opcodeOf w = 0x13#7 → funct3Of w = 1#3 → v &&& 0x01FFFFFF#32 = w &&& 0x01FFFFFF#32 → decode v = decode w) ∧
    (opcodeOf w = 0x13#7 → funct3Of w = 5#3 → v &&& 0x41FFFFFF#32 = w &&& 0x41FFFFFF#32 → decode v = decode w) ∧
    (opcodeOf w = 0x33#7 → funct3Of w ≠ 0#3 → funct3Of w ≠ 5#3 → funct7Of w ≠ 1#7 → funct7Of v ≠ 1#7 →
      v &&& 0x01FFFFFF#32 = w &&& 0x01FFFFFF#32 → decode v = decode w) ∧
    (opcodeOf w = 0x73#7 → funct3Of w = 0#3 → funct7Of w = 0#7 ∨ funct7Of w = 1#7 ∨ funct7Of w = 8#7 →
      v &&& 0xFE00707F#32 = w &&& 0xFE00707F#32 → decode v = decode w) ∧
    (opcodeOf w = 0x73#7 → funct3Of w = 4#3 → v &&& 0xFFF07FFF#32 = w &&& 0xFFF07FFF#32 → decode v = decode w)

/-- The five immediates (R64 to R68): the I-immediate is the word shifted right arithmetically by 20, and, bit for bit,
each of the others takes the bits its rule names with the sign bit copied above them; the ranges; the even offsets; and
the rules' examples. -/
def Obligations.ImmediatesAreTheNamedBits : Prop :=
  ∀ w : Word,
    (immI w = w.sshiftRight 20 ∧ -2048 ≤ (immI w).toInt ∧ (immI w).toInt ≤ 2047) ∧
    (immS w = ((w.extractLsb' 25 7 ++ w.extractLsb' 7 5 : BitVec 12).signExtend 32) ∧
      -2048 ≤ (immS w).toInt ∧ (immS w).toInt ≤ 2047) ∧
    (∀ k < 32, (immB w).getLsbD k =
      if k = 0 then false else if k < 5 then w.getLsbD (k + 7) else if k < 11 then w.getLsbD (k + 20)
      else if k = 11 then w.getLsbD 7 else w.getLsbD 31) ∧
    ((immB w).toNat % 2 = 0 ∧ -4096 ≤ (immB w).toInt ∧ (immB w).toInt ≤ 4094) ∧
    immU w = w &&& 0xFFFFF000#32 ∧
    (∀ k < 32, (immJ w).getLsbD k =
      if k = 0 then false else if k < 11 then w.getLsbD (k + 20) else if k = 11 then w.getLsbD 20
      else if k < 20 then w.getLsbD k else w.getLsbD 31) ∧
    ((immJ w).toNat % 2 = 0 ∧ -1048576 ≤ (immJ w).toInt ∧ (immJ w).toInt ≤ 1048574) ∧
    immI 0xFFF30293 = 0xFFFFFFFF ∧ immI 0x7FF00013 = 0x000007FF ∧ immI 0x80000013 = 0xFFFFF800 ∧
    immS 0xFE731F23 = 0xFFFFFFFE ∧ immB 0xFE209EE3 = 0xFFFFFFFC ∧ immU 0x123452B7 = 0x12345000 ∧
    immJ 0xFF9FF06F = 0xFFFFFFF8

/-! ## The step -/

/-- A step runs the decoded instruction: if the run has not ended and the four bytes at `EA(pc)` decode to `i`, the
step is `exec i` on the state with `instret` one higher (R90, R91, R99; the place of the increment is the spec's
decision D20, the byte order D1). Nothing else stands around `exec`: each meaning moves the pc itself. -/
def Obligations.StepRunsDecodedInstruction : Prop :=
  ∀ (s : State) (i : Instr), s.run = .running → offsetOf s.pc + 4 ≤ s.cfg.capacity →
    decodeBytes (Memory.bytes s.mem (offsetOf s.pc) 4) = .ok (i, []) →
    step s = exec i { s with instret := s.instret + 1#64 }

/-- A fetch fault is fatal (R92): the step halts with `InvalidMemoryAccess`, the pc keeps the address that could not be
fetched, `instret` has counted the step, nothing else changes. -/
def Obligations.FetchOutOfBoundsHalts : Prop :=
  ∀ s : State, s.run = .running → s.cfg.capacity < offsetOf s.pc + 4 →
    step s = .next { s with instret := s.instret + 1#64, run := .halted .invalidMemoryAccess }

/-- In `Halted` no step is taken (R90, R97). That the model says so by a fault named `runEnded` is its choice (log
entry 6). -/
def Obligations.HaltedRunTakesNoStep : Prop :=
  ∀ (s : State) (status : Status), s.run = .halted status → step s = .fault (.runEnded status)

/-- Every step counts exactly once, the halting ones too (R18, R99; the increment is modulo 2^64). -/
def Obligations.InstretCountsEveryStep : Prop :=
  ∀ s t : State, step s = .next t → t.instret.toNat = (s.instret.toNat + 1) % 2 ^ 64

/-- The hardware is never stuck (R312): every instruction answers a next state in every state, and so does the step
while the run has not ended. -/
def Obligations.RunningAlwaysHasNextStep : Prop :=
  (∀ (i : Instr) (s : State), ∃ t, exec i s = .next t) ∧
  (∀ s : State, s.run = .running → ∃ t, step s = .next t)

/-- Every step keeps the invariant: `x0`'s slot is 0 (R10, R11), the pc is a multiple of 4 (R14), and memory stays in
its canonical form inside the buffer (R30). -/
def Obligations.StepKeepsInvariant : Prop :=
  ∀ s t : State, s.Inv → step s = .next t → t.Inv

/-- The state after reset meets the invariant. -/
def Obligations.ResetMeetsInvariant : Prop := State.reset.Inv

/-- Every launched state meets the invariant (R302 to R305). -/
def Obligations.LaunchMeetsInvariant : Prop :=
  ∀ (cfg : Config) (initial : Option (Vector Word 32)) (program : List Byte) (s : State),
    launch cfg initial program = .next s → s.Inv

/-! ## Whole-machine rules -/

/-- Halts are precise (R280; R96, decision D21): the step that ends the run changes no register, neither the pc nor
memory, and counts in `instret`. It has added nothing to stdout but in R280's one case: a magic syscall (an even packet
stored to `TOHOST_ADDR`) whose acknowledge at `FROMHOST_ADDR` is out of bounds, which halts with `InvalidMemoryAccess`
(that the bounds check is its only check is log entry 9). -/
def Obligations.HaltIsPrecise : Prop :=
  ∀ (s t : State) (status : Status), step s = .next t → t.run = .halted status →
    t.regs = s.regs ∧ t.pc = s.pc ∧ t.mem = s.mem ∧ t.cfg = s.cfg ∧ t.draws = s.draws ∧
    t.instret = s.instret + 1#64 ∧
    ∃ out, t.stdout = s.stdout ++ out ∧
      (out = [] ∨ ((∃ w rs1 rs2 imm, storeOperands (decode (Memory.readLE s.mem (offsetOf s.pc) 4)) = some (w, rs1, rs2, imm) ∧
        effective (baseAddress s rs1 imm) = s.cfg.tohostAddr ∧ (readReg s rs2).toNat % 2 = 0) ∧
        status = .invalidMemoryAccess ∧ s.cfg.capacity < offsetOf s.cfg.fromhostAddr + 4))

/-- Each terminal status is raised by the instructions R271's table names and by no other: `ERR_OUT_OF_MEM` by none;
`MisalignedMemoryAccess` by a control transfer or, under `ALIGN_CHECK` only, a load or store; a guest exit by ECALL 93
with the code and flag of its argument or by an odd packet stored to `TOHOST_ADDR`. The fetch's own halt is
`FetchOutOfBoundsHalts`. Decisions D22, D25. -/
def Obligations.EachStatusHasItsCause : Prop :=
  ∀ (i : Instr) (s t : State) (status : Status), s.run = .running → exec i s = .next t → t.run = .halted status →
    match status with
    | .outOfMem => False
    | .invalidMemoryAccess => (loadOperands i).isSome = true ∨ (storeOperands i).isSome = true
    | .misalignedMemoryAccess => isControlTransfer i = true ∨
        (s.cfg.alignCheck = true ∧ ((loadOperands i).isSome = true ∨ (storeOperands i).isSome = true))
    | .unimplementedOpcode => ∃ w, i = .unimp w
    | .unimplementedMagicSyscall => ∃ w rs1 rs2 imm, storeOperands i = some (w, rs1, rs2, imm) ∧
        effective (baseAddress s rs1 imm) = s.cfg.tohostAddr ∧ (readReg s rs2).toNat % 2 = 0
    | .ebreak => i = .ebreak
    | .wfi => i = .wfi
    | .guestExit code isTest =>
      (i = .ecall ∧ readReg s 17#5 = 93#32 ∧ code.toNat = (readReg s 10#5).toNat / 2 ∧
        (isTest = true ↔ (readReg s 10#5).toNat % 2 = 1)) ∨
      (isTest = true ∧ ∃ w rs1 rs2 imm, storeOperands i = some (w, rs1, rs2, imm) ∧
        effective (baseAddress s rs1 imm) = s.cfg.tohostAddr ∧ (readReg s rs2).toNat % 2 = 1)

/-- Stdout is append-only, and only ECALL and the stores add to it (R21, R256). -/
def Obligations.StdoutOnlyGrows : Prop :=
  ∀ (i : Instr) (s t : State), exec i s = .next t →
    s.stdout <+: t.stdout ∧ (mayEmit i = false → t.stdout = s.stdout)

/-- Only branches, JAL and JALR move the pc other than by 4 (R15), and where they move it is a multiple of 4 if the pc
was one (R14, R204). -/
def Obligations.OnlyControlTransfersJump : Prop :=
  ∀ (i : Instr) (s t : State), exec i s = .next t → t.run = .running →
    (isControlTransfer i = false → t.pc = s.pc + 4#32) ∧
    (isControlTransfer i = true → s.pc.toNat % 4 = 0 → t.pc.toNat % 4 = 0)

/-- No instruction writes `instret` (R18, R20: all CSR writes are no-ops) or changes a parameter (R6). -/
def Obligations.CounterAndParametersAreNotWritten : Prop :=
  ∀ (i : Instr) (s t : State), exec i s = .next t → t.instret = s.instret ∧ t.cfg = s.cfg

/-- The register frame of every instruction: a register other than the instruction's `rd` (other than `x10` for an
ECALL forwarded to the bridge) is unchanged, and `x0` always reads as 0 (R10, R11, R13). -/
def Obligations.RegistersUnchangedExceptDestination : Prop :=
  ∀ (i : Instr) (s t : State), exec i s = .next t →
    readReg t 0#5 = 0#32 ∧ ∀ r, mayWriteReg i s r = false → readReg t r = readReg s r

/-- The memory frame of every instruction: every byte outside the bytes the instruction stores to reads as before. The
address is computed as the meaning computes it: `x[rs1] + imm`, masked; for an even packet stored to `TOHOST_ADDR` the
four bytes of the acknowledge; for a forwarded ECALL the whole buffer (R116, R40, R253, R244). -/
def Obligations.MemoryUnchangedOutsideStores : Prop :=
  ∀ (i : Instr) (s t : State), exec i s = .next t →
    ∀ a, storesTo i s a = false → Memory.read t.mem a = Memory.read s.mem a

/-- The host's answers reach the machine only through a read of `mcycle` or `mcycleh` and a forwarded ECALL (R102: "the
only sources of non-determinism are the two host inputs"): every other instruction does the same whichever answers are
still to come. -/
def Obligations.HostAnswersReachOnlyHostReads : Prop :=
  ∀ (i : Instr) (s t : State) (d : Nat), asksHost i s = false → exec i s = .next t →
    t.draws = s.draws ∧ exec i { s with draws := d } = .next { t with draws := d }

/-- Registers: a write is seen by the next read of the same register and by no other, `x0` reads as 0 in every state,
and a write to `x0` changes nothing (R10, R11). -/
def Obligations.RegisterReadAfterWrite : Prop :=
  ∀ (s : State) (i : RegIdx) (v : Word),
    (i ≠ 0#5 → readReg (writeReg s i v) i = v) ∧
    (∀ r, r ≠ i → readReg (writeReg s i v) r = readReg s r) ∧
    readReg s 0#5 = 0#32 ∧ writeReg s 0#5 v = s

/-! ## Upper immediates and integer instructions: results and completion -/

/-- LUI writes its immediate, AUIPC the unmasked pc plus it modulo 2^32; both complete in every state (R190, R191). -/
def Obligations.UpperImmediatesComplete : Prop :=
  ∀ (rd : RegIdx) (imm : Word) (s : State),
    CompletesWith (.lui rd imm) s rd imm ∧
    ∃ v, CompletesWith (.auipc rd imm) s rd v ∧ v.toNat = (s.pc.toNat + imm.toNat) % 2 ^ 32

/-- ADDI, SLTI, SLTIU (R131 to R133). -/
def Obligations.AddAndCompareImmediateComplete : Prop :=
  ∀ (rd rs1 : RegIdx) (imm : Word) (s : State),
    (∃ v, CompletesWith (.addi rd rs1 imm) s rd v ∧ v.toNat = ((readReg s rs1).toNat + imm.toNat) % 2 ^ 32) ∧
    CompletesWith (.slti rd rs1 imm) s rd (if (readReg s rs1).toInt < imm.toInt then 1#32 else 0#32) ∧
    CompletesWith (.sltiu rd rs1 imm) s rd (if (readReg s rs1).toNat < imm.toNat then 1#32 else 0#32)

/-- XORI, ORI, ANDI, bit by bit (R134 to R136). -/
def Obligations.LogicImmediateComplete : Prop :=
  ∀ (rd rs1 : RegIdx) (imm : Word) (s : State),
    (∃ v, CompletesWith (.xori rd rs1 imm) s rd v ∧
      ∀ k < 32, v.getLsbD k = ((readReg s rs1).getLsbD k != imm.getLsbD k)) ∧
    (∃ v, CompletesWith (.ori rd rs1 imm) s rd v ∧
      ∀ k < 32, v.getLsbD k = ((readReg s rs1).getLsbD k || imm.getLsbD k)) ∧
    (∃ v, CompletesWith (.andi rd rs1 imm) s rd v ∧
      ∀ k < 32, v.getLsbD k = ((readReg s rs1).getLsbD k && imm.getLsbD k))

/-- SLLI, SRLI, SRAI: multiplication by 2^shamt modulo 2^32, division by it unsigned, and division by it signed rounding
down (R137 to R139). -/
def Obligations.ShiftImmediateComplete : Prop :=
  ∀ (rd rs1 : RegIdx) (shamt : BitVec 5) (s : State),
    (∃ v, CompletesWith (.slli rd rs1 shamt) s rd v ∧ v.toNat = (readReg s rs1).toNat * 2 ^ shamt.toNat % 2 ^ 32) ∧
    (∃ v, CompletesWith (.srli rd rs1 shamt) s rd v ∧ v.toNat = (readReg s rs1).toNat / 2 ^ shamt.toNat) ∧
    (∃ v, CompletesWith (.srai rd rs1 shamt) s rd v ∧ v.toInt = (readReg s rs1).toInt.fdiv (2 ^ shamt.toNat))

/-- ADD, SUB, SLT, SLTU (R151, R152, R154, R155). -/
def Obligations.AddAndCompareRegisterComplete : Prop :=
  ∀ (rd rs1 rs2 : RegIdx) (s : State),
    (∃ v, CompletesWith (.add rd rs1 rs2) s rd v ∧
      v.toNat = ((readReg s rs1).toNat + (readReg s rs2).toNat) % 2 ^ 32) ∧
    (∃ v, CompletesWith (.sub rd rs1 rs2) s rd v ∧
      (v.toNat : Int) = ((readReg s rs1).toNat - (readReg s rs2).toNat : Int) % 2 ^ 32) ∧
    CompletesWith (.slt rd rs1 rs2) s rd (if (readReg s rs1).toInt < (readReg s rs2).toInt then 1#32 else 0#32) ∧
    CompletesWith (.sltu rd rs1 rs2) s rd (if (readReg s rs1).toNat < (readReg s rs2).toNat then 1#32 else 0#32)

/-- XOR, OR, AND, bit by bit (R156, R159, R160). -/
def Obligations.LogicRegisterComplete : Prop :=
  ∀ (rd rs1 rs2 : RegIdx) (s : State),
    (∃ v, CompletesWith (.xor rd rs1 rs2) s rd v ∧
      ∀ k < 32, v.getLsbD k = ((readReg s rs1).getLsbD k != (readReg s rs2).getLsbD k)) ∧
    (∃ v, CompletesWith (.or rd rs1 rs2) s rd v ∧
      ∀ k < 32, v.getLsbD k = ((readReg s rs1).getLsbD k || (readReg s rs2).getLsbD k)) ∧
    (∃ v, CompletesWith (.and rd rs1 rs2) s rd v ∧
      ∀ k < 32, v.getLsbD k = ((readReg s rs1).getLsbD k && (readReg s rs2).getLsbD k))

/-- SLL, SRL, SRA: the amount is `x[rs2]` modulo 32 (R153, R157, R158; decision D42). -/
def Obligations.ShiftRegisterComplete : Prop :=
  ∀ (rd rs1 rs2 : RegIdx) (s : State) (n : Nat), n = (readReg s rs2).toNat % 32 →
    (∃ v, CompletesWith (.sll rd rs1 rs2) s rd v ∧ v.toNat = (readReg s rs1).toNat * 2 ^ n % 2 ^ 32) ∧
    (∃ v, CompletesWith (.srl rd rs1 rs2) s rd v ∧ v.toNat = (readReg s rs1).toNat / 2 ^ n) ∧
    (∃ v, CompletesWith (.sra rd rs1 rs2) s rd v ∧ v.toInt = (readReg s rs1).toInt.fdiv (2 ^ n))

/-- MUL, MULH, MULHSU, MULHU: the low word of the product, and the high words of the exact signed, mixed and unsigned
products (R171 to R174). -/
def Obligations.MultiplyComplete : Prop :=
  ∀ (rd rs1 rs2 : RegIdx) (s : State),
    (∃ v, CompletesWith (.mul rd rs1 rs2) s rd v ∧
      v.toNat = (readReg s rs1).toNat * (readReg s rs2).toNat % 2 ^ 32) ∧
    (∃ v, CompletesWith (.mulh rd rs1 rs2) s rd v ∧
      v.toInt = ((readReg s rs1).toInt * (readReg s rs2).toInt).fdiv (2 ^ 32)) ∧
    (∃ v, CompletesWith (.mulhsu rd rs1 rs2) s rd v ∧
      v.toInt = ((readReg s rs1).toInt * (readReg s rs2).toNat).fdiv (2 ^ 32)) ∧
    (∃ v, CompletesWith (.mulhu rd rs1 rs2) s rd v ∧
      v.toNat = (readReg s rs1).toNat * (readReg s rs2).toNat / 2 ^ 32)

/-- Division by zero gives all ones and remainder by zero the dividend, signed and unsigned; the signed overflow
`INT32_MIN / -1` gives the dividend and remainder 0. None traps (R175 to R178). -/
def Obligations.DivisionSpecialCases : Prop :=
  ∀ (rd rs1 rs2 : RegIdx) (s : State),
    (readReg s rs2 = 0#32 →
      CompletesWith (.div rd rs1 rs2) s rd 0xFFFFFFFF#32 ∧ CompletesWith (.divu rd rs1 rs2) s rd 0xFFFFFFFF#32 ∧
      CompletesWith (.rem rd rs1 rs2) s rd (readReg s rs1) ∧ CompletesWith (.remu rd rs1 rs2) s rd (readReg s rs1)) ∧
    ((readReg s rs1).toInt = -2 ^ 31 → (readReg s rs2).toInt = -1 →
      CompletesWith (.div rd rs1 rs2) s rd (readReg s rs1) ∧ CompletesWith (.rem rd rs1 rs2) s rd 0#32)

/-- The law of signed division outside the special cases: `a = b * q + r` with `|r| < |b|` and `r` zero or of the sign
of the dividend, which makes the quotient round toward zero (R175, R177, R179). -/
def Obligations.SignedDivisionLaw : Prop :=
  ∀ (rd rs1 rs2 : RegIdx) (s : State), readReg s rs2 ≠ 0#32 →
    ¬((readReg s rs1).toInt = -2 ^ 31 ∧ (readReg s rs2).toInt = -1) →
    ∃ q r : Word, CompletesWith (.div rd rs1 rs2) s rd q ∧ CompletesWith (.rem rd rs1 rs2) s rd r ∧
      (readReg s rs1).toInt = (readReg s rs2).toInt * q.toInt + r.toInt ∧
      r.toInt.natAbs < (readReg s rs2).toInt.natAbs ∧
      (0 ≤ (readReg s rs1).toInt → 0 ≤ r.toInt) ∧ ((readReg s rs1).toInt ≤ 0 → r.toInt ≤ 0)

/-- The law of unsigned division for a divisor other than 0: `a = b * q + r` with `r < b` (R176, R178, R179). -/
def Obligations.UnsignedDivisionLaw : Prop :=
  ∀ (rd rs1 rs2 : RegIdx) (s : State), readReg s rs2 ≠ 0#32 →
    ∃ q r : Word, CompletesWith (.divu rd rs1 rs2) s rd q ∧ CompletesWith (.remu rd rs1 rs2) s rd r ∧
      (readReg s rs1).toNat = (readReg s rs2).toNat * q.toNat + r.toNat ∧ r.toNat < (readReg s rs2).toNat

/-! ## Memory -/

/-- The data access checks (R31, R32, R33, R52): the buffer offset is the address modulo 2^31; an access whose offset plus
width exceeds the capacity is out of bounds as a whole and touches nothing; inside the buffer a misaligned access is
refused exactly under `ALIGN_CHECK` and never for a byte; every other access is made. That bounds come before alignment
is R34's decision D23, that a misaligned access is made with the check off is R38's decision D38. -/
def Obligations.DataAccessChecks : Prop :=
  ∀ (s : State) (addr : Word) (w : Width) (v : Word),
    offsetOf addr = addr.toNat % 2 ^ 31 ∧
    (s.cfg.capacity < addr.toNat % 2 ^ 31 + w.bytes →
      memRead s addr w = .error .invalidMemoryAccess ∧ memWrite s addr w v = .error .invalidMemoryAccess) ∧
    (addr.toNat % 2 ^ 31 + w.bytes ≤ s.cfg.capacity → s.cfg.alignCheck = true → addr.toNat % w.bytes ≠ 0 →
      w ≠ .byte ∧ memRead s addr w = .error .misalignedMemoryAccess ∧
      memWrite s addr w v = .error .misalignedMemoryAccess) ∧
    (addr.toNat % 2 ^ 31 + w.bytes ≤ s.cfg.capacity → (s.cfg.alignCheck = false ∨ addr.toNat % w.bytes = 0) →
      (∃ r, memRead s addr w = .ok r) ∧ ∃ t, memWrite s addr w v = .ok t) ∧
    defaultConfig.alignCheck = false

/-- The round trip (R51): after a write succeeds, a read of the same width at the same address gives the written value
truncated to the width; and after SB, SH or SW to an address that is not intercepted, the loads of that width give it
sign- or zero-extended. -/
def Obligations.MemoryRoundTrip : Prop :=
  (∀ (s t : State) (addr : Word) (w : Width) (v : Word), memWrite s addr w v = .ok t →
    ∃ r, memRead t addr w = .ok r ∧ r.toNat = v.toNat % 2 ^ (8 * w.bytes)) ∧
  (∀ (s t : State) (rd rs1 rs2 : RegIdx) (imm : Word), NotIntercepted s (baseAddress s rs1 imm) →
    s.run = .running → t.run = .running →
    (exec (.sb rs1 rs2 imm) s = .next t →
      (∃ v, CompletesWith (.lb rd rs1 imm) t rd v ∧ v.toInt = ((readReg s rs2).setWidth 8).toInt) ∧
      (∃ v, CompletesWith (.lbu rd rs1 imm) t rd v ∧ v.toNat = (readReg s rs2).toNat % 2 ^ 8)) ∧
    (exec (.sh rs1 rs2 imm) s = .next t →
      (∃ v, CompletesWith (.lh rd rs1 imm) t rd v ∧ v.toInt = ((readReg s rs2).setWidth 16).toInt) ∧
      (∃ v, CompletesWith (.lhu rd rs1 imm) t rd v ∧ v.toNat = (readReg s rs2).toNat % 2 ^ 16)) ∧
    (exec (.sw rs1 rs2 imm) s = .next t → CompletesWith (.lw rd rs1 imm) t rd (readReg s rs2)))

/-- Guest addresses `a` and `a + 0x80000000` name the same byte, for reads, writes and fetches (R31; for fetch the
spec's decision D8). -/
def Obligations.TopBitAliases : Prop :=
  ∀ (s : State) (a : Word) (w : Width) (v : Word),
    memRead s (a + 0x80000000#32) w = memRead s a w ∧ memWrite s (a + 0x80000000#32) w v = memWrite s a w v ∧
    fetchWord s (a + 0x80000000#32) = fetchWord s a

/-- A stored word is what the next fetch of its address returns, with nothing in between (R49; decision D40). -/
def Obligations.StoreIsSeenByFetch : Prop :=
  ∀ (s t : State) (rs1 rs2 : RegIdx) (imm : Word), NotIntercepted s (baseAddress s rs1 imm) →
    AccessAllowed s (baseAddress s rs1 imm) .word → exec (.sw rs1 rs2 imm) s = .next t →
    fetchWord t (baseAddress s rs1 imm) = .ok (readReg s rs2)

/-- The five loads complete where the access is allowed: the bytes at `EA(x[rs1] + imm)`, lowest address least
significant, sign- or zero-extended (R110 to R115; the byte order is decision D1). A load with `rd = 0` completes with
nothing written (R11). -/
def Obligations.LoadsComplete : Prop :=
  ∀ (rd rs1 : RegIdx) (imm : Word) (s : State) (a : Nat), a = offsetOf (readReg s rs1 + imm) →
    (AccessAllowed s (readReg s rs1 + imm) .byte →
      (∃ v, CompletesWith (.lb rd rs1 imm) s rd v ∧ v.toInt = (Memory.read s.mem a).toInt) ∧
      (∃ v, CompletesWith (.lbu rd rs1 imm) s rd v ∧ v.toNat = (Memory.read s.mem a).toNat)) ∧
    (AccessAllowed s (readReg s rs1 + imm) .half →
      (∃ v, CompletesWith (.lh rd rs1 imm) s rd v ∧
        v.toInt = (Memory.read s.mem (a + 1) ++ Memory.read s.mem a : BitVec 16).toInt) ∧
      (∃ v, CompletesWith (.lhu rd rs1 imm) s rd v ∧
        v.toNat = (Memory.read s.mem a).toNat + 2 ^ 8 * (Memory.read s.mem (a + 1)).toNat)) ∧
    (AccessAllowed s (readReg s rs1 + imm) .word →
      ∃ v, CompletesWith (.lw rd rs1 imm) s rd v ∧
        v.toNat = (Memory.read s.mem a).toNat + 2 ^ 8 * (Memory.read s.mem (a + 1)).toNat +
          2 ^ 16 * (Memory.read s.mem (a + 2)).toNat + 2 ^ 24 * (Memory.read s.mem (a + 3)).toNat)

/-- Where a load halts, nothing else changing, `rd = 0` or not: out of bounds with `InvalidMemoryAccess`, else, under
`ALIGN_CHECK`, misaligned with `MisalignedMemoryAccess` (R110 to R115, R34; decisions D23, D37). Loads are not
intercepted (R41). -/
def Obligations.LoadsHaltWhereNotAllowed : Prop :=
  ∀ (i : Instr) (w : Width) (rs1 : RegIdx) (imm : Word) (s : State), loadOperands i = some (w, rs1, imm) →
    (s.cfg.capacity < offsetOf (readReg s rs1 + imm) + w.bytes →
      exec i s = .next { s with run := .halted .invalidMemoryAccess }) ∧
    (offsetOf (readReg s rs1 + imm) + w.bytes ≤ s.cfg.capacity → s.cfg.alignCheck = true →
      offsetOf (readReg s rs1 + imm) % w.bytes ≠ 0 →
      exec i s = .next { s with run := .halted .misalignedMemoryAccess })

/-- The three stores complete where the address is not intercepted and the access is allowed: the low 1, 2 or 4 bytes
of `x[rs2]` at `EA(x[rs1] + imm)`, every other byte of memory as before (R116 to R119). -/
def Obligations.StoresComplete : Prop :=
  ∀ (rs1 rs2 : RegIdx) (imm : Word) (s : State), NotIntercepted s (readReg s rs1 + imm) →
    (AccessAllowed s (readReg s rs1 + imm) .byte →
      CompletesStoring (.sb rs1 rs2 imm) s (offsetOf (readReg s rs1 + imm)) 1 (readReg s rs2)) ∧
    (AccessAllowed s (readReg s rs1 + imm) .half →
      CompletesStoring (.sh rs1 rs2 imm) s (offsetOf (readReg s rs1 + imm)) 2 (readReg s rs2)) ∧
    (AccessAllowed s (readReg s rs1 + imm) .word →
      CompletesStoring (.sw rs1 rs2 imm) s (offsetOf (readReg s rs1 + imm)) 4 (readReg s rs2))

/-- Where an ordinary store halts, nothing else changing (R116 to R119, R34; decision D23). -/
def Obligations.StoresHaltWhereNotAllowed : Prop :=
  ∀ (i : Instr) (w : Width) (rs1 rs2 : RegIdx) (imm : Word) (s : State), storeOperands i = some (w, rs1, rs2, imm) →
    NotIntercepted s (readReg s rs1 + imm) →
    (s.cfg.capacity < offsetOf (readReg s rs1 + imm) + w.bytes →
      exec i s = .next { s with run := .halted .invalidMemoryAccess }) ∧
    (offsetOf (readReg s rs1 + imm) + w.bytes ≤ s.cfg.capacity → s.cfg.alignCheck = true →
      offsetOf (readReg s rs1 + imm) % w.bytes ≠ 0 →
      exec i s = .next { s with run := .halted .misalignedMemoryAccess })

/-! ## The two ports -/

/-- A store of any width to `UART_ADDR` appends the low byte of `x[rs2]` to stdout and does nothing else, without any
check (R40, R247; decisions D9, D10, D11). -/
def Obligations.StoresToUartEmit : Prop :=
  ∀ (rs1 rs2 : RegIdx) (imm : Word) (s : State),
    (readReg s rs1 + imm) &&& 0x7FFFFFFF#32 = s.cfg.uartAddr →
    CompletesEmitting (.sb rs1 rs2 imm) s ((readReg s rs2).setWidth 8) ∧
    CompletesEmitting (.sh rs1 rs2 imm) s ((readReg s rs2).setWidth 8) ∧
    CompletesEmitting (.sw rs1 rs2 imm) s ((readReg s rs2).setWidth 8)

/-- A store of an odd value to `TOHOST_ADDR` ends the run with the packet, truncated to the store's width, shifted right
by one as the exit code; nothing else changes (R248, R249; decisions D9, D12, D25). -/
def Obligations.OddTohostStoreExits : Prop :=
  ∀ (i : Instr) (w : Width) (rs1 rs2 : RegIdx) (imm : Word) (s : State), storeOperands i = some (w, rs1, rs2, imm) →
    (readReg s rs1 + imm) &&& 0x7FFFFFFF#32 ≠ s.cfg.uartAddr →
    (readReg s rs1 + imm) &&& 0x7FFFFFFF#32 = s.cfg.tohostAddr → (readReg s rs2).toNat % 2 = 1 →
    ∃ code : BitVec 31, exec i s = .next { s with run := .halted (.guestExit code true) } ∧
      code.toNat = (readReg s rs2).toNat % 2 ^ (8 * w.bytes) / 2

/-- An even packet stored to `TOHOST_ADDR` that points at a descriptor with number 64, pointer and length in bounds, the
acknowledge in bounds: the bytes go to stdout, `FROMHOST_ADDR` then holds the 32-bit value 1, the store ends normally,
nothing else changes (R250, R251, R253; decisions D12, D13, D28, D29, D30). `ALIGN_CHECK` does not look at
`FROMHOST_ADDR` (log entry 9). -/
def Obligations.MagicWriteCompletes : Prop :=
  ∀ (i : Instr) (w : Width) (rs1 rs2 : RegIdx) (imm p ptr len : Word) (s : State),
    storeOperands i = some (w, rs1, rs2, imm) →
    (readReg s rs1 + imm) &&& 0x7FFFFFFF#32 ≠ s.cfg.uartAddr →
    (readReg s rs1 + imm) &&& 0x7FFFFFFF#32 = s.cfg.tohostAddr →
    p.toNat = (readReg s rs2).toNat % 2 ^ (8 * w.bytes) → p.toNat % 2 = 0 →
    memRead s p .word = .ok 64#32 → memRead s (p + 16#32) .word = .ok ptr → memRead s (p + 24#32) .word = .ok len →
    offsetOf ptr + len.toNat ≤ s.cfg.capacity → offsetOf s.cfg.fromhostAddr + 4 ≤ s.cfg.capacity →
    ∃ t, exec i s = .next t ∧ t.stdout = s.stdout ++ Memory.bytes s.mem (offsetOf ptr) len.toNat ∧
      (∀ a, Memory.read t.mem a =
        if a = offsetOf s.cfg.fromhostAddr then 1#8
        else if offsetOf s.cfg.fromhostAddr < a ∧ a < offsetOf s.cfg.fromhostAddr + 4 then 0#8
        else Memory.read s.mem a) ∧
      (∀ r, readReg t r = readReg s r) ∧ t.pc = s.pc + 4#32 ∧ t.run = s.run ∧
      t.instret = s.instret ∧ t.draws = s.draws ∧ t.cfg = s.cfg

/-- Where an even packet stored to `TOHOST_ADDR` halts the run: a descriptor that cannot be read, a number other than
64, a range out of bounds (nothing emitted), or an acknowledge out of bounds (the bytes already emitted are not undone).
Nothing else changes (R250 to R253, R280, R282; decisions D12, D13, D28, D29, D30). With the acknowledge in bounds the
store completes: `MagicWriteCompletes`. -/
def Obligations.MagicSyscallHalts : Prop :=
  ∀ (i : Instr) (w : Width) (rs1 rs2 : RegIdx) (imm p : Word) (s : State),
    storeOperands i = some (w, rs1, rs2, imm) →
    (readReg s rs1 + imm) &&& 0x7FFFFFFF#32 ≠ s.cfg.uartAddr →
    (readReg s rs1 + imm) &&& 0x7FFFFFFF#32 = s.cfg.tohostAddr →
    p.toNat = (readReg s rs2).toNat % 2 ^ (8 * w.bytes) → p.toNat % 2 = 0 →
    (∀ status, memRead s p .word = .error status → exec i s = .next { s with run := .halted status }) ∧
    (∀ number, memRead s p .word = .ok number → number ≠ 64#32 →
      exec i s = .next { s with run := .halted .unimplementedMagicSyscall }) ∧
    (memRead s p .word = .ok 64#32 →
      (∀ status, memRead s (p + 16#32) .word = .error status → exec i s = .next { s with run := .halted status }) ∧
      (∀ ptr status, memRead s (p + 16#32) .word = .ok ptr → memRead s (p + 24#32) .word = .error status →
        exec i s = .next { s with run := .halted status }) ∧
      (∀ ptr len, memRead s (p + 16#32) .word = .ok ptr → memRead s (p + 24#32) .word = .ok len →
        (s.cfg.capacity < offsetOf ptr + len.toNat →
          exec i s = .next { s with run := .halted .invalidMemoryAccess }) ∧
        (offsetOf ptr + len.toNat ≤ s.cfg.capacity → s.cfg.capacity < offsetOf s.cfg.fromhostAddr + 4 →
          exec i s = .next { s with
            stdout := s.stdout ++ Memory.bytes s.mem (offsetOf ptr) len.toNat
            run := .halted .invalidMemoryAccess })))

/-! ## Control transfer -/

/-- The six branches complete: to the target where the condition holds and the target is a multiple of 4, to the next
instruction where it does not hold (R195 to R201, R205). -/
def Obligations.BranchesComplete : Prop :=
  ∀ (rs1 rs2 : RegIdx) (imm : Word) (s : State),
    BranchCompletes (.beq rs1 rs2 imm) s imm (readReg s rs1 = readReg s rs2) ∧
    BranchCompletes (.bne rs1 rs2 imm) s imm (readReg s rs1 ≠ readReg s rs2) ∧
    BranchCompletes (.blt rs1 rs2 imm) s imm ((readReg s rs1).toInt < (readReg s rs2).toInt) ∧
    BranchCompletes (.bge rs1 rs2 imm) s imm ((readReg s rs2).toInt ≤ (readReg s rs1).toInt) ∧
    BranchCompletes (.bltu rs1 rs2 imm) s imm ((readReg s rs1).toNat < (readReg s rs2).toNat) ∧
    BranchCompletes (.bgeu rs1 rs2 imm) s imm ((readReg s rs2).toNat ≤ (readReg s rs1).toNat)

/-- JAL and JALR complete where the target is a multiple of 4: the link `pc + 4` in `rd` unless it is `x0`, the pc at
the target. JALR's target is the old `x[rs1]` plus the immediate with bit 0 cleared, also when `rd = rs1` (R202, R203;
decision D46). -/
def Obligations.JumpsLinkAndJump : Prop :=
  (∀ (rd : RegIdx) (imm target : Word) (s : State),
    target.toNat = (s.pc.toNat + imm.toNat) % 2 ^ 32 → target.toNat % 4 = 0 →
    CompletesJumping (.jal rd imm) s rd target) ∧
  (∀ (rd rs1 : RegIdx) (imm target : Word) (s : State),
    target.toNat = ((readReg s rs1).toNat + imm.toNat) % 2 ^ 32 / 2 * 2 → target.toNat % 4 = 0 →
    CompletesJumping (.jalr rd rs1 imm) s rd target)

/-- A target that is not a multiple of 4 halts every taken branch, JAL and JALR with `MisalignedMemoryAccess`, whatever
`ALIGN_CHECK` is, the pc and the link register unwritten (R204; decisions D21, D22). -/
def Obligations.MisalignedTargetsHalt : Prop :=
  (∀ (rs1 rs2 : RegIdx) (imm : Word) (s : State),
    BranchTraps (.beq rs1 rs2 imm) s imm (readReg s rs1 = readReg s rs2) ∧
    BranchTraps (.bne rs1 rs2 imm) s imm (readReg s rs1 ≠ readReg s rs2) ∧
    BranchTraps (.blt rs1 rs2 imm) s imm ((readReg s rs1).toInt < (readReg s rs2).toInt) ∧
    BranchTraps (.bge rs1 rs2 imm) s imm ((readReg s rs2).toInt ≤ (readReg s rs1).toInt) ∧
    BranchTraps (.bltu rs1 rs2 imm) s imm ((readReg s rs1).toNat < (readReg s rs2).toNat) ∧
    BranchTraps (.bgeu rs1 rs2 imm) s imm ((readReg s rs2).toNat ≤ (readReg s rs1).toNat)) ∧
  (∀ (rd rs1 : RegIdx) (imm : Word) (s : State),
    ((s.pc + imm).toNat % 4 ≠ 0 →
      exec (.jal rd imm) s = .next { s with run := .halted .misalignedMemoryAccess }) ∧
    ((readReg s rs1 + imm).toNat % 4 / 2 = 1 →
      exec (.jalr rd rs1 imm) s = .next { s with run := .halted .misalignedMemoryAccess }))

/-! ## System -/

/-- ECALL 93 ends the run with `x10` shifted right by one as the code and bit 0 of `x10` as the flag (R241; decision
D25); ECALL 64 appends the low byte of `x10` to stdout and completes with no register written (R242; decision D26). -/
def Obligations.EcallExitAndWrite : Prop :=
  ∀ s : State,
    (readReg s 17#5 = 93#32 → ∃ (code : BitVec 31) (flag : Bool),
      exec .ecall s = .next { s with run := .halted (.guestExit code flag) } ∧
      code.toNat = (readReg s 10#5).toNat / 2 ∧ (flag = true ↔ (readReg s 10#5).toNat % 2 = 1)) ∧
    (readReg s 17#5 = 64#32 → CompletesEmitting .ecall s ((readReg s 10#5).setWidth 8))

/-- Every other function number without a bridge is ignored: only the pc moves (R246). -/
def Obligations.EcallWithoutBridgeIsIgnored : Prop :=
  ∀ s : State, s.cfg.bridgePresent = false → readReg s 17#5 ≠ 93#32 → readReg s 17#5 ≠ 64#32 →
    exec .ecall s = .next { s with pc := s.pc + 4#32 }

/-- Every other function number with a bridge is forwarded: `x10` receives the bridge's result, a free value; no other
register changes; memory outside the buffer is untouched and stdout only grows; the run goes on at `pc + 4` (R243, R244;
decision D27; log entry 4). -/
def Obligations.EcallForwardsToBridge : Prop :=
  ∀ s : State, s.cfg.bridgePresent = true → readReg s 17#5 ≠ 93#32 → readReg s 17#5 ≠ 64#32 →
    ∃ t call, exec .ecall s = .next t ∧
      call.number = readReg s 17#5 ∧ call.mem = s.mem ∧
      call.args = [readReg s 10#5, readReg s 11#5, readReg s 12#5, readReg s 13#5, readReg s 14#5, readReg s 15#5,
        readReg s 16#5] ∧
      readReg t 10#5 = Config.bridgeResult s.draws call ∧ (∀ r, r ≠ 10#5 → readReg t r = readReg s r) ∧
      (∀ a, s.cfg.capacity ≤ a → Memory.read t.mem a = Memory.read s.mem a) ∧
      t.stdout = s.stdout ++ Config.bridgeOutput s.draws call ∧ t.pc = s.pc + 4#32 ∧ t.run = s.run ∧
      t.instret = s.instret ∧ t.draws = s.draws + 1 ∧ t.cfg = s.cfg

/-- EBREAK, WFI and every word that is no instruction end the run with their own status and change nothing else (R217,
R218, R74, R275, R277, R278). -/
def Obligations.EbreakWfiUnimpHalt : Prop :=
  ∀ (s : State) (w : Word),
    exec .ebreak s = .next { s with run := .halted .ebreak } ∧
    exec .wfi s = .next { s with run := .halted .wfi } ∧
    exec (.unimp w) s = .next { s with run := .halted .unimplementedOpcode }

/-- The seven CSR instructions complete as reads and write no CSR: `minstret` and `minstreth` read the halves of
`instret`, every other address but the two clock halves reads 0, whatever `rs1` or `uimm` is (R220 to R228, R230; the
addresses are decision D5). -/
def Obligations.CsrReadsComplete : Prop :=
  ∀ (rd rs1 : RegIdx) (csr : BitVec 12) (uimm : BitVec 5) (v : Word) (s : State),
    csr ≠ 0xB00#12 → csr ≠ 0xB80#12 →
    v.toNat = (if csr = 0xB02#12 then s.instret.toNat % 2 ^ 32
      else if csr = 0xB82#12 then s.instret.toNat / 2 ^ 32 else 0) →
    CompletesWith (.csrrw rd csr rs1) s rd v ∧ CompletesWith (.csrrs rd csr rs1) s rd v ∧
    CompletesWith (.csrrc rd csr rs1) s rd v ∧ CompletesWith (.csrr4 rd csr) s rd v ∧
    CompletesWith (.csrrwi rd csr uimm) s rd v ∧ CompletesWith (.csrrsi rd csr uimm) s rd v ∧
    CompletesWith (.csrrci rd csr uimm) s rd v

/-- A read of `mcycle` or `mcycleh` completes with the low or the high half of a fresh answer of the host, a free value,
and takes that answer even when `rd = 0` (R228, R229; decisions D5, D19; log entry 3). -/
def Obligations.CsrClockReadsTakeAnAnswer : Prop :=
  ∀ (rd rs1 : RegIdx) (csr : BitVec 12) (uimm : BitVec 5) (v : Word) (s : State),
    csr = 0xB00#12 ∨ csr = 0xB80#12 →
    v.toNat = (if csr = 0xB00#12 then (Config.now s.draws).toNat % 2 ^ 32 else (Config.now s.draws).toNat / 2 ^ 32) →
    CompletesWithDraw (.csrrw rd csr rs1) s rd v ∧ CompletesWithDraw (.csrrs rd csr rs1) s rd v ∧
    CompletesWithDraw (.csrrc rd csr rs1) s rd v ∧ CompletesWithDraw (.csrr4 rd csr) s rd v ∧
    CompletesWithDraw (.csrrwi rd csr uimm) s rd v ∧ CompletesWithDraw (.csrrsi rd csr uimm) s rd v ∧
    CompletesWithDraw (.csrrci rd csr uimm) s rd v

/-! ## Run entry -/

/-- A launch that meets R305's conditions starts the run at pc 0 in `Running` (R27) with the program's bytes at offset 0
and zeros above them (R29; that offsets from `CAPACITY` up read 0 too is log entry 7). `State.reset`, a start with no
program and all memory zero, is the model's choice (log entry 5). -/
def Obligations.LaunchStartsAtZero : Prop :=
  (∀ (cfg : Config) (initial : Option (Vector Word 32)) (program : List Byte),
    LaunchAllowed cfg initial → program.length ≤ cfg.capacity →
    ∃ s, launch cfg initial program = .next s ∧ s.pc = 0#32 ∧ s.run = .running ∧ s.cfg = cfg ∧
      ∀ a, Memory.read s.mem a = if h : a < program.length then program[a] else 0#8) ∧
  State.reset.pc = 0#32 ∧ State.reset.run = .running ∧ ∀ a, Memory.read State.reset.mem a = 0#8

/-- What else a launch leaves: the caller's registers or zeros, `x0` zero, `instret` 0, stdout empty (R26, R28, R303,
R304; decisions D20, D32, D36); reset is the launch of no program with no registers under the default parameters (the
model's choice, log entries 1, 2 and 5). -/
def Obligations.LaunchSetsRegistersAndCounter : Prop :=
  (∀ (cfg : Config) (initial : Option (Vector Word 32)) (program : List Byte) (s : State),
    launch cfg initial program = .next s →
    s.instret = 0#64 ∧ s.stdout = [] ∧ readReg s 0#5 = 0#32 ∧
    (initial = none → ∀ r, readReg s r = 0#32) ∧
    (∀ regs, initial = some regs → regs[0] = 0#32 ∧ ∀ r : RegIdx, readReg s r = regs[r.toNat])) ∧
  launch defaultConfig none [] = .next State.reset

/-- Which launches are taken (R305; decisions D32, D35; log entry 8). One that meets every precondition is taken: with a
program that fits, the run is ready for its first step; with a longer one it has ended with `ERR_OUT_OF_MEM` before any
step, pc 0 and `instret` 0 (R272, R301; decision D39). One that breaks any precondition is refused. -/
def Obligations.LaunchTurnsAway : Prop :=
  ∀ (cfg : Config) (initial : Option (Vector Word 32)) (program : List Byte),
    (LaunchAllowed cfg initial → program.length ≤ cfg.capacity →
      ∃ s, launch cfg initial program = .next s ∧ s.run = .running) ∧
    (LaunchAllowed cfg initial → cfg.capacity < program.length →
      ∃ s, launch cfg initial program = .next s ∧ s.run = .halted .outOfMem ∧ s.pc = 0#32 ∧ s.instret = 0#64 ∧
        ∀ r : RegIdx, readReg s r = (initial.getD (Vector.replicate 32 0#32))[r.toNat]) ∧
    (¬LaunchAllowed cfg initial → launch cfg initial program = .refused .launchPrecondition)
end

