-- ==== Sys2Proof/Laws/Memory.lean ====
section
/-! SUPPORT. Memory as a byte array: a read after a write to the same offset gives the byte written, a write leaves
every other offset alone, and every memory operation keeps the canonical form. -/

namespace Sys2Proof.Machine

/-! ## Reading after erasing, inserting and writing -/

theorem Memory.read_erase (m : Memory) (a x : Nat) :
    Memory.read (Memory.erase m a) x = if x = a then 0#8 else Memory.read m x := by
  induction m with
  | nil => simp [Memory.erase, Memory.read]
  | cons c m ih =>
    obtain ⟨k, b⟩ := c
    simp [Memory.erase] at ih
    by_cases hka : k = a
    · subst hka
      by_cases hx : x = k
      · subst hx; simpa [Memory.erase] using ih
      · simp [Memory.erase, Memory.read, ih, hx, Ne.symm hx]
    · by_cases hx : x = a
      · subst hx; simp [Memory.erase, Memory.read, ih, hka]
      · simp [Memory.erase, Memory.read, ih, hx, hka]

theorem Memory.read_insert (m : Memory) (a x : Nat) (b : Byte) (h : ∀ c ∈ m, c.1 ≠ a) :
    Memory.read (Memory.insert m a b) x = if x = a then b else Memory.read m x := by
  induction m with
  | nil => simp only [Memory.insert, Memory.read, eq_comm]
  | cons c m ih =>
    obtain ⟨k, c⟩ := c
    have hk : k ≠ a := h (k, c) (by simp)
    have ih := ih fun d hd => h d (by simp [hd])
    simp only [Memory.insert]
    split
    · by_cases hx : x = a
      · simp [Memory.read, hx]
      · simp [Memory.read, hx, Ne.symm hx]
    · by_cases hx : x = a
      · subst hx; simp [Memory.read, ih, hk]
      · simp [Memory.read, ih, hx]

theorem Memory.mem_erase_ne {m : Memory} {a : Nat} {c : Host.Cell} (h : c ∈ Memory.erase m a) : c.1 ≠ a := by
  simp [Memory.erase] at h; exact h.2

/-- Everything one byte's write does, in any memory. -/
theorem Memory.read_write (m : Memory) (a x : Nat) (b : Byte) :
    Memory.read (Memory.write m a b) x = if x = a then b else Memory.read m x := by
  unfold Memory.write
  split
  · rename_i hb; rw [Memory.read_erase, hb]
  · rw [Memory.read_insert _ _ _ _ fun c hc => Memory.mem_erase_ne hc, Memory.read_erase]
    split <;> simp_all

/-! ## The canonical form -/

theorem Memory.risingFrom_mono {lo lo' : Nat} {m : Memory} (hl : lo ≤ lo') (h : Memory.risingFrom lo' m = true) :
    Memory.risingFrom lo m = true := by
  cases m with
  | nil => rfl
  | cons c m =>
    obtain ⟨k, b⟩ := c
    simp [Memory.risingFrom] at h ⊢
    exact ⟨⟨by omega, h.1.2⟩, h.2⟩

theorem Memory.erase_risingFrom {lo : Nat} {m : Memory} (a : Nat) (h : Memory.risingFrom lo m = true) :
    Memory.risingFrom lo (Memory.erase m a) = true := by
  induction m generalizing lo with
  | nil => rfl
  | cons c m ih =>
    obtain ⟨k, b⟩ := c
    simp [Memory.risingFrom] at h
    simp [Memory.erase] at ih
    by_cases hk : k = a
    · simpa [Memory.erase, hk] using Memory.risingFrom_mono (by omega) (ih h.2)
    · simp [Memory.erase, hk, Memory.risingFrom, h.1, ih h.2]

theorem Memory.insert_risingFrom {lo : Nat} {m : Memory} {a : Nat} {b : Byte} (hb : b ≠ 0#8) (hlo : lo ≤ a)
    (hne : ∀ c ∈ m, c.1 ≠ a) (h : Memory.risingFrom lo m = true) :
    Memory.risingFrom lo (Memory.insert m a b) = true := by
  induction m generalizing lo with
  | nil => simp [Memory.insert, Memory.risingFrom, hb, hlo]
  | cons c m ih =>
    obtain ⟨k, c⟩ := c
    have hk : k ≠ a := hne (k, c) (by simp)
    simp [Memory.risingFrom] at h
    simp only [Memory.insert]
    split
    · have : a + 1 ≤ k := by omega
      simp [Memory.risingFrom, hb, hlo, h, this]
    · simp [Memory.risingFrom, h.1]
      exact ih (by omega) (fun d hd => hne d (by simp [hd])) h.2

theorem Memory.write_canonical {m : Memory} (a : Nat) (b : Byte) (h : Memory.canonical m = true) :
    Memory.canonical (Memory.write m a b) = true := by
  unfold Memory.write Memory.canonical
  split
  · exact Memory.erase_risingFrom a h
  · rename_i hb
    exact Memory.insert_risingFrom hb (Nat.zero_le a) (fun c hc => Memory.mem_erase_ne hc)
      (Memory.erase_risingFrom a h)

theorem Memory.mem_insert {m : Memory} {a : Nat} {b : Byte} {c : Host.Cell} (h : c ∈ Memory.insert m a b) :
    c = (a, b) ∨ c ∈ m := by
  induction m with
  | nil => simp [Memory.insert] at h; exact .inl h
  | cons d m ih =>
    obtain ⟨k, d⟩ := d
    simp only [Memory.insert] at h
    split at h
    · simpa using h
    · simp only [List.mem_cons] at h ⊢
      rcases h with h | h
      · exact .inr (.inl h)
      · rcases ih h with h | h
        · exact .inl h
        · exact .inr (.inr h)

theorem Memory.write_within {capacity : Nat} {m : Memory} {a : Nat} (b : Byte) (ha : a < capacity)
    (h : Memory.within capacity m = true) : Memory.within capacity (Memory.write m a b) = true := by
  simp only [Memory.within, List.all_eq_true, decide_eq_true_eq] at h ⊢
  have hm : ∀ c ∈ Memory.erase m a, c.1 < capacity := fun c hc => h c (List.mem_of_mem_filter hc)
  unfold Memory.write
  split
  · exact hm
  · intro c hc
    rcases Memory.mem_insert hc with rfl | hc
    · exact ha
    · exact hm c hc

/-- A write inside the buffer keeps the invariant of memory. -/
theorem Memory.write_wf {capacity : Nat} {m : Memory} {a : Nat} (b : Byte) (ha : a < capacity)
    (h : Memory.wf capacity m = true) : Memory.wf capacity (Memory.write m a b) = true := by
  simp only [Memory.wf, Bool.and_eq_true] at h ⊢
  exact ⟨Memory.write_canonical a b h.1, Memory.write_within b ha h.2⟩

theorem Memory.writeLE_wf {capacity : Nat} {m : Memory} (a n : Nat) (v : Word) (ha : a + n ≤ capacity)
    (h : Memory.wf capacity m = true) : Memory.wf capacity (Memory.writeLE m a n v) = true := by
  induction n generalizing m a v with
  | zero => exact h
  | succ n ih => exact ih (a + 1) (v >>> 8) (by omega) (Memory.write_wf _ (by omega) h)

/-- Two memories in canonical form that read alike are the same list. -/
theorem Memory.ext_of_risingFrom {lo : Nat} {m n : Memory} (hm : Memory.risingFrom lo m = true)
    (hn : Memory.risingFrom lo n = true) (h : ∀ a, Memory.read m a = Memory.read n a) : m = n := by
  have below : ∀ {lo : Nat} {m : Memory} {a : Nat}, Memory.risingFrom lo m = true → a < lo → Memory.read m a = 0#8 := by
    intro lo m
    induction m generalizing lo with
    | nil => intros; rfl
    | cons c m ih =>
      obtain ⟨k, b⟩ := c
      intro a hm ha
      simp [Memory.risingFrom] at hm
      have : k ≠ a := by omega
      simp only [Memory.read, this, if_false]
      exact ih hm.2 (by omega)
  induction m generalizing lo n with
  | nil =>
    cases n with
    | nil => rfl
    | cons d n =>
      obtain ⟨k, b⟩ := d
      simp [Memory.risingFrom] at hn
      have := h k
      simp [Memory.read] at this
      exact absurd this.symm hn.1.2
  | cons c m ih =>
    obtain ⟨k, b⟩ := c
    simp [Memory.risingFrom] at hm
    cases n with
    | nil =>
      have := h k
      simp [Memory.read] at this
      exact absurd this hm.1.2
    | cons d n =>
      obtain ⟨j, e⟩ := d
      simp [Memory.risingFrom] at hn
      have hkj : k = j := by
        rcases Nat.lt_trichotomy k j with hlt | heq | hgt
        · have := h k
          simp only [Memory.read, if_true] at this
          rw [if_neg (by omega), below hn.2 (by omega)] at this
          exact absurd this hm.1.2
        · exact heq
        · have := h j
          simp only [Memory.read, if_true] at this
          rw [if_neg (by omega), below hm.2 (by omega)] at this
          exact absurd this.symm hn.1.2
      subst hkj
      have hbe : b = e := by simpa [Memory.read] using h k
      subst hbe
      congr 1
      refine ih hm.2 hn.2 fun a => ?_
      by_cases hak : k = a
      · subst hak; rw [below hm.2 (by omega), below hn.2 (by omega)]
      · simpa [Memory.read, hak] using h a

/-! ## Multi-byte accesses -/

/-- What a little-endian write leaves at every offset (R36): the stored bytes in its range, the old ones outside. -/
theorem Memory.read_writeLE (m : Memory) (a n : Nat) (v : Word) (x : Nat) :
    Memory.read (Memory.writeLE m a n v) x =
      if a ≤ x ∧ x < a + n then (v >>> (8 * (x - a))).setWidth 8 else Memory.read m x := by
  induction n generalizing m a v with
  | zero => simp [Memory.writeLE]
  | succ n ih =>
    rw [Memory.writeLE, ih]
    by_cases hx : x = a
    · subst hx; simp [Memory.read_write]
    · by_cases hr : a ≤ x ∧ x < a + (n + 1)
      · have h1 : a + 1 ≤ x ∧ x < a + 1 + n := by omega
        rw [if_pos h1, if_pos hr, ← BitVec.shiftRight_add, show 8 + 8 * (x - (a + 1)) = 8 * (x - a) by omega]
      · have h1 : ¬(a + 1 ≤ x ∧ x < a + 1 + n) := by omega
        rw [if_neg h1, if_neg hr, Memory.read_write, if_neg hx]

/-- A little-endian read depends on its own bytes alone. -/
theorem Memory.readLE_congr {m m' : Memory} {a n : Nat} (h : ∀ x, a ≤ x → x < a + n → Memory.read m x = Memory.read m' x) :
    Memory.readLE m a n = Memory.readLE m' a n := by
  induction n generalizing a with
  | zero => rfl
  | succ n ih =>
    rw [Memory.readLE, Memory.readLE, h a (by omega) (by omega), ih fun x h1 h2 => h x (by omega) (by omega)]

theorem Memory.bytes_congr {m m' : Memory} {a n : Nat} (h : ∀ x, a ≤ x → x < a + n → Memory.read m x = Memory.read m' x) :
    Memory.bytes m a n = Memory.bytes m' a n := by
  induction n generalizing a with
  | zero => rfl
  | succ n ih =>
    rw [Memory.bytes, Memory.bytes, h a (by omega) (by omega), ih fun x h1 h2 => h x (by omega) (by omega)]

theorem Memory.bytes_length (m : Memory) (a n : Nat) : (Memory.bytes m a n).length = n := by
  induction n generalizing a with
  | zero => rfl
  | succ n ih => simp [Memory.bytes, ih]

theorem Memory.readLE_one (m : Memory) (a : Nat) : Memory.readLE m a 1 = (Memory.read m a).setWidth 32 := by
  simp [Memory.readLE]

/-- A 2-byte read is the second byte above the first (R35). -/
theorem Memory.readLE_two (m : Memory) (a : Nat) :
    Memory.readLE m a 2 = (Memory.read m (a + 1) ++ Memory.read m a : BitVec 16).setWidth 32 := by
  simp only [Memory.readLE]
  apply BitVec.eq_of_getLsbD_eq
  intro i hi
  simp
  grind

/-- A 4-byte read is the four bytes, the highest offset most significant (R35). -/
theorem Memory.readLE_four (m : Memory) (a : Nat) :
    Memory.readLE m a 4 =
      (Memory.read m (a + 3) ++ Memory.read m (a + 2) ++ Memory.read m (a + 1) ++ Memory.read m a : BitVec 32) := by
  simp only [Memory.readLE]
  apply BitVec.eq_of_getLsbD_eq
  intro i hi
  simp
  grind

/-! ## The image a launch loads -/

theorem Memory.image_risingFrom (a : Nat) (p : List Byte) : Memory.risingFrom a (Memory.image a p) = true := by
  induction p generalizing a with
  | nil => rfl
  | cons b p ih =>
    unfold Memory.image
    split
    · exact Memory.risingFrom_mono (by omega) (ih (a + 1))
    · rename_i hb; simp [Memory.risingFrom, hb, ih (a + 1)]

theorem Memory.image_within {capacity : Nat} (a : Nat) (p : List Byte) (h : a + p.length ≤ capacity) :
    Memory.within capacity (Memory.image a p) = true := by
  induction p generalizing a with
  | nil => rfl
  | cons b p ih =>
    simp only [List.length_cons] at h
    have ih := ih (a + 1) (by omega)
    unfold Memory.image
    split
    · exact ih
    · simp only [Memory.within, List.all_cons, Bool.and_eq_true, decide_eq_true_eq] at ih ⊢
      exact ⟨by omega, ih⟩

theorem Memory.image_wf {capacity : Nat} (p : List Byte) (h : p.length ≤ capacity) :
    Memory.wf capacity (Memory.image 0 p) = true := by
  simp only [Memory.wf, Memory.canonical, Bool.and_eq_true]
  exact ⟨Memory.image_risingFrom 0 p, Memory.image_within 0 p (by omega)⟩

/-- What the loaded image reads as (R29): the program's byte, then zeros. -/
theorem Memory.read_image (a : Nat) (p : List Byte) (x : Nat) :
    Memory.read (Memory.image a p) x = if a ≤ x then p.getD (x - a) 0#8 else 0#8 := by
  induction p generalizing a with
  | nil => simp [Memory.image, Memory.read]
  | cons b p ih =>
    unfold Memory.image
    by_cases hx : x = a
    · subst hx
      split
      · rename_i hb; rw [ih]; simp [hb]
      · simp [Memory.read]
    · have key : Memory.read (Memory.image (a + 1) p) x = if a ≤ x then (b :: p).getD (x - a) 0#8 else 0#8 := by
        rw [ih]
        by_cases hle : a ≤ x
        · rw [if_pos (by omega), if_pos hle, show x - a = (x - (a + 1)) + 1 by omega]; simp
        · rw [if_neg (by omega), if_neg hle]
      split
      · exact key
      · simp only [Memory.read, if_neg (Ne.symm hx)]; exact key

end Sys2Proof.Machine
end

