-- ==== Sys2Proof/Laws/State.lean ====
section
/-! SUPPORT. One lemma per field per update of State, and how a register reads after each update. -/

namespace Sys2Proof.Machine

/-! ## Register writes -/

@[simp] theorem writeReg_cfg (s : State) (i : RegIdx) (v : Word) : (writeReg s i v).cfg = s.cfg := by
  unfold writeReg; split <;> rfl

@[simp] theorem writeReg_pc (s : State) (i : RegIdx) (v : Word) : (writeReg s i v).pc = s.pc := by
  unfold writeReg; split <;> rfl

@[simp] theorem writeReg_run (s : State) (i : RegIdx) (v : Word) : (writeReg s i v).run = s.run := by
  unfold writeReg; split <;> rfl

@[simp] theorem writeReg_instret (s : State) (i : RegIdx) (v : Word) : (writeReg s i v).instret = s.instret := by
  unfold writeReg; split <;> rfl

@[simp] theorem writeReg_mem (s : State) (i : RegIdx) (v : Word) : (writeReg s i v).mem = s.mem := by
  unfold writeReg; split <;> rfl

@[simp] theorem writeReg_stdout (s : State) (i : RegIdx) (v : Word) : (writeReg s i v).stdout = s.stdout := by
  unfold writeReg; split <;> rfl

@[simp] theorem writeReg_draws (s : State) (i : RegIdx) (v : Word) : (writeReg s i v).draws = s.draws := by
  unfold writeReg; split <;> rfl

@[simp] theorem writeReg_zero (s : State) (v : Word) : writeReg s 0#5 v = s := by simp [writeReg]

@[simp] theorem readReg_zero (s : State) : readReg s 0#5 = 0#32 := by simp [readReg]

/-- Reading a register depends on the register file alone. -/
theorem readReg_congr {s t : State} (h : t.regs = s.regs) (r : RegIdx) : readReg t r = readReg s r := by
  simp only [readReg, h]

/-- Everything a register write does to the registers (R10, R11). -/
theorem readReg_writeReg (s : State) (i r : RegIdx) (v : Word) :
    readReg (writeReg s i v) r = if r = i ∧ i ≠ 0#5 then v else readReg s r := by
  by_cases hi : i = 0#5
  · subst hi; simp
  · by_cases hr : r = 0#5
    · subst hr; simp [Ne.symm hi]
    · by_cases hri : r = i
      · subst hri; simp [readReg, writeReg, hi]
      · have hne : i.toNat ≠ r.toNat := fun h => hri (BitVec.eq_of_toNat_eq h.symm)
        simp [readReg, writeReg, hi, hr, hri, Vector.getElem_set_ne, hne]

/-- A register write keeps the slot of `x0`. -/
theorem writeReg_slot_zero (s : State) (i : RegIdx) (v : Word) : (writeReg s i v).regs[0] = s.regs[0] := by
  by_cases hi : i = 0#5
  · subst hi; simp
  · have hne : i.toNat ≠ 0 := fun h => hi (BitVec.eq_of_toNat_eq (by simpa using h))
    simp [writeReg, hi, Vector.getElem_set_ne, hne]

/-! ## The other updates -/

@[simp] theorem advance_cfg (s : State) : (advance s).cfg = s.cfg := rfl

@[simp] theorem advance_regs (s : State) : (advance s).regs = s.regs := rfl

@[simp] theorem advance_pc (s : State) : (advance s).pc = s.pc + 4#32 := rfl

@[simp] theorem advance_run (s : State) : (advance s).run = s.run := rfl

@[simp] theorem advance_instret (s : State) : (advance s).instret = s.instret := rfl

@[simp] theorem advance_mem (s : State) : (advance s).mem = s.mem := rfl

@[simp] theorem advance_stdout (s : State) : (advance s).stdout = s.stdout := rfl

@[simp] theorem advance_draws (s : State) : (advance s).draws = s.draws := rfl

@[simp] theorem readReg_advance (s : State) (r : RegIdx) : readReg (advance s) r = readReg s r := rfl

@[simp] theorem setPc_cfg (s : State) (target : Word) : (setPc s target).cfg = s.cfg := rfl

@[simp] theorem setPc_regs (s : State) (target : Word) : (setPc s target).regs = s.regs := rfl

@[simp] theorem setPc_pc (s : State) (target : Word) : (setPc s target).pc = target := rfl

@[simp] theorem setPc_run (s : State) (target : Word) : (setPc s target).run = s.run := rfl

@[simp] theorem setPc_instret (s : State) (target : Word) : (setPc s target).instret = s.instret := rfl

@[simp] theorem setPc_mem (s : State) (target : Word) : (setPc s target).mem = s.mem := rfl

@[simp] theorem setPc_stdout (s : State) (target : Word) : (setPc s target).stdout = s.stdout := rfl

@[simp] theorem setPc_draws (s : State) (target : Word) : (setPc s target).draws = s.draws := rfl

@[simp] theorem readReg_setPc (s : State) (target : Word) (r : RegIdx) : readReg (setPc s target) r = readReg s r := rfl

@[simp] theorem halt_cfg (s : State) (status : Status) : (halt s status).cfg = s.cfg := rfl

@[simp] theorem halt_regs (s : State) (status : Status) : (halt s status).regs = s.regs := rfl

@[simp] theorem halt_pc (s : State) (status : Status) : (halt s status).pc = s.pc := rfl

@[simp] theorem halt_run (s : State) (status : Status) : (halt s status).run = .halted status := rfl

@[simp] theorem halt_instret (s : State) (status : Status) : (halt s status).instret = s.instret := rfl

@[simp] theorem halt_mem (s : State) (status : Status) : (halt s status).mem = s.mem := rfl

@[simp] theorem halt_stdout (s : State) (status : Status) : (halt s status).stdout = s.stdout := rfl

@[simp] theorem halt_draws (s : State) (status : Status) : (halt s status).draws = s.draws := rfl

@[simp] theorem readReg_halt (s : State) (status : Status) (r : RegIdx) : readReg (halt s status) r = readReg s r := rfl

@[simp] theorem countStep_cfg (s : State) : (countStep s).cfg = s.cfg := rfl

@[simp] theorem countStep_regs (s : State) : (countStep s).regs = s.regs := rfl

@[simp] theorem countStep_pc (s : State) : (countStep s).pc = s.pc := rfl

@[simp] theorem countStep_run (s : State) : (countStep s).run = s.run := rfl

@[simp] theorem countStep_instret (s : State) : (countStep s).instret = s.instret + 1#64 := rfl

@[simp] theorem countStep_mem (s : State) : (countStep s).mem = s.mem := rfl

@[simp] theorem countStep_stdout (s : State) : (countStep s).stdout = s.stdout := rfl

@[simp] theorem countStep_draws (s : State) : (countStep s).draws = s.draws := rfl

@[simp] theorem readReg_countStep (s : State) (r : RegIdx) : readReg (countStep s) r = readReg s r := rfl

@[simp] theorem emit_cfg (s : State) (b : Byte) : (emit s b).cfg = s.cfg := rfl

@[simp] theorem emit_regs (s : State) (b : Byte) : (emit s b).regs = s.regs := rfl

@[simp] theorem emit_pc (s : State) (b : Byte) : (emit s b).pc = s.pc := rfl

@[simp] theorem emit_run (s : State) (b : Byte) : (emit s b).run = s.run := rfl

@[simp] theorem emit_instret (s : State) (b : Byte) : (emit s b).instret = s.instret := rfl

@[simp] theorem emit_mem (s : State) (b : Byte) : (emit s b).mem = s.mem := rfl

@[simp] theorem emit_stdout (s : State) (b : Byte) : (emit s b).stdout = s.stdout ++ [b] := rfl

@[simp] theorem emit_draws (s : State) (b : Byte) : (emit s b).draws = s.draws := rfl

@[simp] theorem readReg_emit (s : State) (b : Byte) (r : RegIdx) : readReg (emit s b) r = readReg s r := rfl

@[simp] theorem emitAll_cfg (s : State) (bs : List Byte) : (emitAll s bs).cfg = s.cfg := rfl

@[simp] theorem emitAll_regs (s : State) (bs : List Byte) : (emitAll s bs).regs = s.regs := rfl

@[simp] theorem emitAll_pc (s : State) (bs : List Byte) : (emitAll s bs).pc = s.pc := rfl

@[simp] theorem emitAll_run (s : State) (bs : List Byte) : (emitAll s bs).run = s.run := rfl

@[simp] theorem emitAll_instret (s : State) (bs : List Byte) : (emitAll s bs).instret = s.instret := rfl

@[simp] theorem emitAll_mem (s : State) (bs : List Byte) : (emitAll s bs).mem = s.mem := rfl

@[simp] theorem emitAll_stdout (s : State) (bs : List Byte) : (emitAll s bs).stdout = s.stdout ++ bs := rfl

@[simp] theorem emitAll_draws (s : State) (bs : List Byte) : (emitAll s bs).draws = s.draws := rfl

@[simp] theorem readReg_emitAll (s : State) (bs : List Byte) (r : RegIdx) : readReg (emitAll s bs) r = readReg s r := rfl

@[simp] theorem takeDraw_cfg (s : State) : (takeDraw s).cfg = s.cfg := rfl

@[simp] theorem takeDraw_regs (s : State) : (takeDraw s).regs = s.regs := rfl

@[simp] theorem takeDraw_pc (s : State) : (takeDraw s).pc = s.pc := rfl

@[simp] theorem takeDraw_run (s : State) : (takeDraw s).run = s.run := rfl

@[simp] theorem takeDraw_instret (s : State) : (takeDraw s).instret = s.instret := rfl

@[simp] theorem takeDraw_mem (s : State) : (takeDraw s).mem = s.mem := rfl

@[simp] theorem takeDraw_stdout (s : State) : (takeDraw s).stdout = s.stdout := rfl

@[simp] theorem takeDraw_draws (s : State) : (takeDraw s).draws = s.draws + 1 := rfl

@[simp] theorem readReg_takeDraw (s : State) (r : RegIdx) : readReg (takeDraw s) r = readReg s r := rfl

@[simp] theorem readReg_with_mem (s : State) (v : Memory) (r : RegIdx) : readReg { s with mem := v } r = readReg s r := rfl

@[simp] theorem readReg_with_draws (s : State) (v : Nat) (r : RegIdx) : readReg { s with draws := v } r = readReg s r := rfl

@[simp] theorem readReg_with_pc (s : State) (v : Word) (r : RegIdx) : readReg { s with pc := v } r = readReg s r := rfl

@[simp] theorem readReg_with_instret (s : State) (v : BitVec 64) (r : RegIdx) : readReg { s with instret := v } r = readReg s r := rfl

end Sys2Proof.Machine
end

