-- ==== Sys2Proof/Laws/Ops.lean ====
section
/-! SUPPORT. One lemma for each shared operation that says everything it can do; later proofs cite these and unfold
nothing. -/

namespace Sys2Proof.Machine

/-! ## Access checks (R32 to R34) -/

theorem accessHalt_none_iff (s : State) (addr : Word) (w : Width) :
    accessHalt s addr w = none ↔ AccessAllowed s addr w := by
  unfold accessHalt AccessAllowed beyondCapacity misaligned
  by_cases h1 : s.cfg.capacity < offsetOf addr + w.bytes
  · simp [h1]
  · by_cases h2 : s.cfg.alignCheck = true <;> by_cases h3 : offsetOf addr % w.bytes = 0 <;> simp [h1, h2, h3] <;> omega

theorem accessHalt_outOfBounds {s : State} {addr : Word} {w : Width} (h : s.cfg.capacity < offsetOf addr + w.bytes) :
    accessHalt s addr w = some .invalidMemoryAccess := by
  simp [accessHalt, beyondCapacity, h]

theorem accessHalt_misaligned {s : State} {addr : Word} {w : Width} (h : offsetOf addr + w.bytes ≤ s.cfg.capacity)
    (hc : s.cfg.alignCheck = true) (hm : offsetOf addr % w.bytes ≠ 0) :
    accessHalt s addr w = some .misalignedMemoryAccess := by
  have : ¬ s.cfg.capacity < offsetOf addr + w.bytes := by omega
  simp [accessHalt, beyondCapacity, misaligned, this, hc, hm]

/-- A data access raises one of the two kinds, the second only under `ALIGN_CHECK`. -/
theorem accessHalt_some {s : State} {addr : Word} {w : Width} {status : Status} (h : accessHalt s addr w = some status) :
    status = .invalidMemoryAccess ∨ (status = .misalignedMemoryAccess ∧ s.cfg.alignCheck = true) := by
  unfold accessHalt at h
  split at h
  · exact .inl (Option.some.inj h).symm
  · split at h
    · rename_i hm
      simp only [misaligned, Bool.and_eq_true] at hm
      exact .inr ⟨(Option.some.inj h).symm, hm.1⟩
    · cases h

/-- The checks look at the parameters and the address alone. -/
theorem accessHalt_congr {s t : State} (h : t.cfg = s.cfg) (addr : Word) (w : Width) :
    accessHalt t addr w = accessHalt s addr w := by
  unfold accessHalt beyondCapacity misaligned; rw [h]

/-- The buffer offset is the address modulo 2^31 (R31). -/
theorem offsetOf_eq (addr : Word) : offsetOf addr = addr.toNat % 2 ^ 31 := by
  unfold offsetOf effective
  rw [BitVec.toNat_and]
  exact Nat.and_two_pow_sub_one_eq_mod _ 31

theorem offsetOf_mod_bytes (addr : Word) (w : Width) : offsetOf addr % w.bytes = addr.toNat % w.bytes := by
  rw [offsetOf_eq]; cases w <;> simp only [Width.bytes] <;> omega

/-! The three access operations look at the offset of the address alone. -/

theorem accessHalt_congr_offset {s : State} {a b : Word} {w : Width} (h : offsetOf a = offsetOf b) :
    accessHalt s a w = accessHalt s b w := by
  unfold accessHalt beyondCapacity misaligned; rw [h]

theorem memRead_congr_offset {s : State} {a b : Word} {w : Width} (h : offsetOf a = offsetOf b) :
    memRead s a w = memRead s b w := by
  unfold memRead; rw [h, accessHalt_congr_offset h]

theorem memWrite_congr_offset {s : State} {a b : Word} {w : Width} {v : Word} (h : offsetOf a = offsetOf b) :
    memWrite s a w v = memWrite s b w v := by
  unfold memWrite; rw [h, accessHalt_congr_offset h]

theorem fetchWord_congr_offset {s : State} {a b : Word} (h : offsetOf a = offsetOf b) :
    fetchWord s a = fetchWord s b := by
  unfold fetchWord beyondCapacity; rw [h]

/-- Everything `MemRead` can answer (R35). -/
theorem memRead_cases (s : State) (addr : Word) (w : Width) :
    (∃ status, accessHalt s addr w = some status ∧ memRead s addr w = .error status) ∨
    (AccessAllowed s addr w ∧ memRead s addr w = .ok (Memory.readLE s.mem (offsetOf addr) w.bytes)) := by
  cases h : accessHalt s addr w with
  | some status => exact .inl ⟨status, rfl, by simp [memRead, h]⟩
  | none => exact .inr ⟨(accessHalt_none_iff s addr w).mp h, by simp [memRead, h]⟩

/-- A read that answers was allowed, and answers the bytes in memory. -/
theorem memRead_ok {s : State} {addr : Word} {w : Width} {v : Word} (h : memRead s addr w = .ok v) :
    AccessAllowed s addr w ∧ Memory.readLE s.mem (offsetOf addr) w.bytes = v := by
  rcases memRead_cases s addr w with ⟨_, _, e⟩ | ⟨h1, e⟩
  · rw [e] at h; cases h
  · rw [e] at h; cases h; exact ⟨h1, rfl⟩

theorem memRead_allowed {s : State} {addr : Word} {w : Width} (h : AccessAllowed s addr w) :
    memRead s addr w = .ok (Memory.readLE s.mem (offsetOf addr) w.bytes) := by
  simp [memRead, (accessHalt_none_iff s addr w).mpr h]

/-- Everything `MemWrite` can answer (R36). -/
theorem memWrite_cases (s : State) (addr : Word) (w : Width) (v : Word) :
    (∃ status, accessHalt s addr w = some status ∧ memWrite s addr w v = .error status) ∨
    (AccessAllowed s addr w ∧
      memWrite s addr w v = .ok { s with mem := Memory.writeLE s.mem (offsetOf addr) w.bytes v }) := by
  cases h : accessHalt s addr w with
  | some status => exact .inl ⟨status, rfl, by simp [memWrite, h]⟩
  | none => exact .inr ⟨(accessHalt_none_iff s addr w).mp h, by simp [memWrite, h]⟩

theorem memWrite_allowed {s : State} {addr : Word} {w : Width} (v : Word) (h : AccessAllowed s addr w) :
    memWrite s addr w v = .ok { s with mem := Memory.writeLE s.mem (offsetOf addr) w.bytes v } := by
  simp [memWrite, (accessHalt_none_iff s addr w).mpr h]

/-- Everything the fetch can answer (R39). -/
theorem fetchWord_cases (s : State) (addr : Word) :
    (s.cfg.capacity < offsetOf addr + 4 ∧ fetchWord s addr = .error .invalidMemoryAccess) ∨
    (offsetOf addr + 4 ≤ s.cfg.capacity ∧ fetchWord s addr = .ok (Memory.readLE s.mem (offsetOf addr) 4)) := by
  by_cases h : s.cfg.capacity < offsetOf addr + 4
  · exact .inl ⟨h, by simp [fetchWord, beyondCapacity, h]⟩
  · exact .inr ⟨by omega, by simp [fetchWord, beyondCapacity, h]⟩

/-! ## Loads and stores (R110, R116) -/

/-- Everything a load can do. -/
theorem load_cases (w : Width) (extend : Word → Word) (rd rs1 : RegIdx) (imm : Word) (s : State) :
    (∃ status, accessHalt s (baseAddress s rs1 imm) w = some status ∧ load w extend rd rs1 imm s = halt s status) ∨
    (AccessAllowed s (baseAddress s rs1 imm) w ∧
      load w extend rd rs1 imm s =
        advance (writeReg s rd (extend (Memory.readLE s.mem (offsetOf (baseAddress s rs1 imm)) w.bytes)))) := by
  rcases memRead_cases s (baseAddress s rs1 imm) w with ⟨status, h, e⟩ | ⟨h, e⟩
  · exact .inl ⟨status, h, by simp [load, e]⟩
  · exact .inr ⟨h, by simp [load, e]⟩

/-- Everything an ordinary (not intercepted) store can do. -/
theorem store_ordinary {w : Width} {rs1 rs2 : RegIdx} {imm : Word} {s : State}
    (h : NotIntercepted s (baseAddress s rs1 imm)) :
    (∃ status, accessHalt s (baseAddress s rs1 imm) w = some status ∧ store w rs1 rs2 imm s = halt s status) ∨
    (AccessAllowed s (baseAddress s rs1 imm) w ∧
      store w rs1 rs2 imm s =
        advance { s with mem := Memory.writeLE s.mem (offsetOf (baseAddress s rs1 imm)) w.bytes (readReg s rs2) }) := by
  obtain ⟨hu, ht⟩ := h
  rcases memWrite_cases s (baseAddress s rs1 imm) w (readReg s rs2) with ⟨status, h, e⟩ | ⟨h, e⟩
  · exact .inl ⟨status, h, by simp [store, hu, ht, e]⟩
  · exact .inr ⟨h, by simp [store, hu, ht, e]⟩

theorem store_uart {w : Width} {rs1 rs2 : RegIdx} {imm : Word} {s : State}
    (h : effective (baseAddress s rs1 imm) = s.cfg.uartAddr) :
    store w rs1 rs2 imm s = advance (emit s (lowByte (readReg s rs2))) := by
  simp [store, h, uartStore]

theorem store_tohost {w : Width} {rs1 rs2 : RegIdx} {imm : Word} {s : State}
    (hu : effective (baseAddress s rs1 imm) ≠ s.cfg.uartAddr)
    (h : effective (baseAddress s rs1 imm) = s.cfg.tohostAddr) :
    store w rs1 rs2 imm s = tohostStore s (truncateTo w (readReg s rs2)) := by
  rw [h] at hu
  simp [store, h, hu]

/-! ## The HTIF mailbox (R248 to R253) -/

/-- Everything the descriptor read can answer (R250). -/
theorem readDescriptor_cases (s : State) (p : Word) :
    (∃ status, readDescriptor s p = .error status ∧
      (status = .unimplementedMagicSyscall ∨ ∃ addr, accessHalt s addr .word = some status)) ∨
    (AccessAllowed s p .word ∧ AccessAllowed s (p + 16#32) .word ∧ AccessAllowed s (p + 24#32) .word ∧
      Memory.readLE s.mem (offsetOf p) 4 = sysWrite ∧
      readDescriptor s p =
        .ok (Memory.readLE s.mem (offsetOf (p + 16#32)) 4, Memory.readLE s.mem (offsetOf (p + 24#32)) 4)) := by
  rcases memRead_cases s p .word with ⟨status, h, e⟩ | ⟨h0, e0⟩
  · exact .inl ⟨status, by simp [readDescriptor, e], .inr ⟨_, h⟩⟩
  simp only [Width.bytes] at e0
  by_cases hn : Memory.readLE s.mem (offsetOf p) 4 = sysWrite
  · rcases memRead_cases s (p + 16#32) .word with ⟨status, h, e⟩ | ⟨h1, e1⟩
    · exact .inl ⟨status, by simp [readDescriptor, e0, hn, e], .inr ⟨_, h⟩⟩
    rcases memRead_cases s (p + 24#32) .word with ⟨status, h, e⟩ | ⟨h2, e2⟩
    · exact .inl ⟨status, by simp [readDescriptor, e0, hn, e1, e], .inr ⟨_, h⟩⟩
    exact .inr ⟨h0, h1, h2, hn, by simp [readDescriptor, e0, hn, e1, e2, Width.bytes]⟩
  · exact .inl ⟨_, by simp [readDescriptor, e0, hn], .inl rfl⟩

/-- Everything the acknowledge can answer (R253). -/
theorem acknowledge_cases (s : State) :
    (s.cfg.capacity < offsetOf s.cfg.fromhostAddr + 4 ∧ acknowledge s = .error .invalidMemoryAccess) ∨
    (offsetOf s.cfg.fromhostAddr + 4 ≤ s.cfg.capacity ∧
      acknowledge s = .ok { s with mem := Memory.writeLE s.mem (offsetOf s.cfg.fromhostAddr) 4 1#32 }) := by
  by_cases h : s.cfg.capacity < offsetOf s.cfg.fromhostAddr + 4
  · exact .inl ⟨h, by simp [acknowledge, beyondCapacity, h]⟩
  · exact .inr ⟨by omega, by simp [acknowledge, beyondCapacity, h]⟩

/-- Everything a magic syscall can do: halt with nothing changed, halt with the bytes emitted because the acknowledge
is out of bounds (R280's only case), or complete. -/
theorem magicSyscall_cases (s : State) (p : Word) :
    (∃ status, magicSyscall s p = halt s status ∧
      (status = .unimplementedMagicSyscall ∨ status = .invalidMemoryAccess ∨ ∃ addr, accessHalt s addr .word = some status)) ∨
    (∃ bytes, s.cfg.capacity < offsetOf s.cfg.fromhostAddr + 4 ∧
      magicSyscall s p = halt (emitAll s bytes) .invalidMemoryAccess) ∨
    (∃ bytes, offsetOf s.cfg.fromhostAddr + 4 ≤ s.cfg.capacity ∧
      magicSyscall s p =
        advance { emitAll s bytes with mem := Memory.writeLE s.mem (offsetOf s.cfg.fromhostAddr) 4 1#32 }) := by
  rcases readDescriptor_cases s p with ⟨status, e, h⟩ | ⟨-, -, -, -, e⟩
  · exact .inl ⟨status, by simp [magicSyscall, e], h.elim .inl fun h => .inr (.inr h)⟩
  generalize Memory.readLE s.mem (offsetOf (p + 16#32)) 4 = ptr at e
  generalize Memory.readLE s.mem (offsetOf (p + 24#32)) 4 = len at e
  by_cases hr : rangeOutOfBounds s ptr len = true
  · exact .inl ⟨_, by simp [magicSyscall, e, htifWrite, hr], .inr (.inl rfl)⟩
  · have hw : htifWrite s ptr len = .ok (emitAll s (Memory.bytes s.mem (offsetOf ptr) len.toNat)) := by
      simp [htifWrite, hr]
    generalize Memory.bytes s.mem (offsetOf ptr) len.toNat = bytes at hw
    rcases acknowledge_cases (emitAll s bytes) with ⟨h, ea⟩ | ⟨h, ea⟩
    · exact .inr (.inl ⟨bytes, h, by simp [magicSyscall, e, hw, ea]⟩)
    · exact .inr (.inr ⟨bytes, h, by simp [magicSyscall, e, hw, ea]⟩)

/-- A magic syscall that completes, with its effect in full (R250, R251, R253). -/
theorem magicSyscall_write {s : State} {p ptr len : Word} (h0 : AccessAllowed s p .word)
    (h1 : AccessAllowed s (p + 16#32) .word) (h2 : AccessAllowed s (p + 24#32) .word)
    (hn : Memory.readLE s.mem (offsetOf p) 4 = sysWrite) (hp : Memory.readLE s.mem (offsetOf (p + 16#32)) 4 = ptr)
    (hl : Memory.readLE s.mem (offsetOf (p + 24#32)) 4 = len) (hr : offsetOf ptr + len.toNat ≤ s.cfg.capacity)
    (ha : offsetOf s.cfg.fromhostAddr + 4 ≤ s.cfg.capacity) :
    magicSyscall s p =
      advance { emitAll s (Memory.bytes s.mem (offsetOf ptr) len.toNat) with
        mem := Memory.writeLE s.mem (offsetOf s.cfg.fromhostAddr) 4 1#32 } := by
  have e : readDescriptor s p = .ok (ptr, len) := by
    simp [readDescriptor, memRead_allowed h0, memRead_allowed h1, memRead_allowed h2, Width.bytes, hn, hp, hl]
  have hr : ¬ s.cfg.capacity < offsetOf ptr + len.toNat := by omega
  have ha : ¬ s.cfg.capacity < offsetOf s.cfg.fromhostAddr + 4 := by omega
  simp [magicSyscall, e, htifWrite, rangeOutOfBounds, hr, acknowledge, beyondCapacity, ha]

/-- Everything a store to `tohost` can do (R248). -/
theorem tohostStore_cases (s : State) (v : Word) :
    (v.getLsbD 0 = true ∧ tohostStore s v = halt s (.guestExit (exitCode v) true)) ∨
    (v.getLsbD 0 = false ∧ tohostStore s v = magicSyscall s v) := by
  cases h : v.getLsbD 0
  · exact .inr ⟨rfl, by simp only [tohostStore, h]; rfl⟩
  · exact .inl ⟨rfl, by simp only [tohostStore, h, isTestFlag]; rfl⟩

/-- Reading back what a store of the same width wrote gives the stored value, truncated (R36, R35). -/
theorem readLE_writeLE (m : Memory) (a : Nat) (w : Width) (v : Word) :
    Memory.readLE (Memory.writeLE m a w.bytes v) a w.bytes = truncateTo w v := by
  have e : ∀ x, a ≤ x → x < a + w.bytes →
      Memory.read (Memory.writeLE m a w.bytes v) x = (v >>> (8 * (x - a))).setWidth 8 := by
    intro x h1 h2; rw [Memory.read_writeLE, if_pos ⟨h1, h2⟩]
  cases w <;> simp only [Width.bytes, Memory.readLE_one, Memory.readLE_two, Memory.readLE_four, truncateTo,
    zeroExtendByte, zeroExtendHalf] at *
  · rw [e _ (by omega) (by omega)]; simp
  · rw [e _ (by omega) (by omega), e _ (by omega) (by omega)]
    apply BitVec.eq_of_getLsbD_eq; intro i hi
    simp only [BitVec.getLsbD_append, BitVec.getLsbD_setWidth, BitVec.getLsbD_ushiftRight]
    interval_cases i <;> simp
  · rw [e _ (by omega) (by omega), e _ (by omega) (by omega), e _ (by omega) (by omega), e _ (by omega) (by omega)]
    apply BitVec.eq_of_getLsbD_eq; intro i hi
    simp only [BitVec.getLsbD_append, BitVec.getLsbD_setWidth, BitVec.getLsbD_ushiftRight]
    interval_cases i <;> simp

theorem truncateTo_toNat (w : Width) (v : Word) : (truncateTo w v).toNat = v.toNat % 2 ^ (8 * w.bytes) := by
  have := v.isLt
  cases w <;> simp [truncateTo, zeroExtendByte, zeroExtendHalf, Width.bytes] <;> omega

theorem exitCode_toNat (v : Word) : (exitCode v).toNat = v.toNat / 2 := by
  have := v.isLt
  simp [exitCode, BitVec.extractLsb'_toNat, Nat.shiftRight_eq_div_pow]; omega

theorem isTestFlag_iff (v : Word) : isTestFlag v = true ↔ v.toNat % 2 = 1 := by
  simp [isTestFlag, BitVec.getLsbD, Nat.testBit_zero]

theorem truncateTo_bit_zero (w : Width) (v : Word) : (truncateTo w v).getLsbD 0 = v.getLsbD 0 := by
  cases w <;> simp [truncateTo, zeroExtendByte, zeroExtendHalf]

/-! ## Control transfer (R196, R204) -/

/-- JALR's target is the sum rounded down to an even number (R203). -/
theorem jalrTarget_toNat (s : State) (rs1 : RegIdx) (imm : Word) :
    (jalrTarget s rs1 imm).toNat = ((readReg s rs1).toNat + imm.toNat) % 2 ^ 32 / 2 * 2 := by
  unfold jalrTarget baseAddress
  rw [← BitVec.toNat_add]
  generalize readReg s rs1 + imm = x
  have e : x &&& 0xFFFFFFFE#32 = (x.extractLsb' 1 31 ++ 0#1 : BitVec 32) := by
    apply BitVec.eq_of_getLsbD_eq; intro i hi
    simp only [BitVec.getLsbD_append, BitVec.getLsbD_and, BitVec.getLsbD_extractLsb']
    interval_cases i <;> simp
  have := x.isLt
  rw [e, BitVec.toNat_append, BitVec.extractLsb'_toNat, Nat.shiftRight_eq_div_pow, Nat.shiftLeft_eq, BitVec.toNat_ofNat]
  simp only [Nat.zero_mod, Nat.or_zero]
  omega

theorem targetMisaligned_iff (target : Word) : targetMisaligned target = true ↔ target.toNat % 4 ≠ 0 := by
  unfold targetMisaligned
  rw [decide_eq_true_eq, ne_eq, ← BitVec.toNat_inj]
  simp [BitVec.extractLsb'_toNat]

/-- Everything a branch can do. -/
theorem branchIf_cases (taken : Bool) (s : State) (imm : Word) :
    (taken = false ∧ branchIf taken s imm = .next (advance s)) ∨
    (taken = true ∧ (s.pc + imm).toNat % 4 = 0 ∧ branchIf taken s imm = .next (setPc s (s.pc + imm))) ∨
    (taken = true ∧ (s.pc + imm).toNat % 4 ≠ 0 ∧ branchIf taken s imm = .next (halt s .misalignedMemoryAccess)) := by
  cases taken
  · exact .inl ⟨rfl, rfl⟩
  · have hm := targetMisaligned_iff (s.pc + imm)
    by_cases h : (s.pc + imm).toNat % 4 = 0
    · have : targetMisaligned (s.pc + imm) = false := by
        rw [← Bool.not_eq_true, hm]; exact not_not.mpr h
      exact .inr (.inl ⟨rfl, h, by simp [branchIf, jumpTo, pcRelative, this]⟩)
    · exact .inr (.inr ⟨rfl, h, by simp [branchIf, jumpTo, pcRelative, hm.mpr h]⟩)

/-- Everything JAL and JALR can do. -/
theorem jumpAndLink_cases (s : State) (rd : RegIdx) (target : Word) :
    (target.toNat % 4 = 0 ∧ jumpAndLink s rd target = .next (setPc (writeReg s rd (s.pc + 4#32)) target)) ∨
    (target.toNat % 4 ≠ 0 ∧ jumpAndLink s rd target = .next (halt s .misalignedMemoryAccess)) := by
  have hm := targetMisaligned_iff target
  by_cases h : target.toNat % 4 = 0
  · have : targetMisaligned target = false := by rw [← Bool.not_eq_true, hm]; exact not_not.mpr h
    exact .inl ⟨h, by simp [jumpAndLink, linkValue, this]⟩
  · exact .inr ⟨h, by simp [jumpAndLink, hm.mpr h]⟩

/-! ## Register-writing instructions (R94, R98) -/

/-- Where a meaning is one write-back, the instruction completes with that register written. -/
theorem completesWith_of_writeBack {i : Instr} {s : State} {rd : RegIdx} {v : Word} (h : exec i s = writeBack s rd v) :
    CompletesWith i s rd v :=
  ⟨advance (writeReg s rd v), h, fun r => by simp [readReg_writeReg], by simp⟩

/-! ## The bridge (R243, R244) -/

theorem applyWrites_wf {capacity : Nat} {m : Memory} (ws : List Host.Cell) (h : Memory.wf capacity m = true) :
    Memory.wf capacity (applyWrites capacity m ws) = true := by
  induction ws generalizing m with
  | nil => exact h
  | cons c ws ih =>
    obtain ⟨a, b⟩ := c
    unfold applyWrites
    apply ih
    split
    · exact Memory.write_wf b ‹_› h
    · exact h

/-- The bridge touches no byte outside the buffer. -/
theorem read_applyWrites_outside {capacity x : Nat} (m : Memory) (ws : List Host.Cell) (hx : capacity ≤ x) :
    Memory.read (applyWrites capacity m ws) x = Memory.read m x := by
  induction ws generalizing m with
  | nil => rfl
  | cons c ws ih =>
    obtain ⟨a, b⟩ := c
    unfold applyWrites
    rw [ih]
    split
    · rw [Memory.read_write, if_neg (by omega)]
    · rfl

/-- Everything ECALL can do (R240). -/
theorem execEcall_cases (s : State) :
    (readReg s regA7 = sysExit ∧ execEcall s = .next (ecallExit s)) ∨
    (readReg s regA7 = sysWrite ∧ execEcall s = .next (advance (emit s (lowByte (readReg s regA0))))) ∨
    (ecallIsForwarded s = true ∧ execEcall s = .next (advance (ecallForward s))) ∨
    (readReg s regA7 ≠ sysExit ∧ readReg s regA7 ≠ sysWrite ∧ s.cfg.bridgePresent = false ∧
      execEcall s = .next (advance s)) := by
  by_cases h1 : readReg s regA7 = sysExit
  · exact .inl ⟨h1, by simp [execEcall, h1]⟩
  · by_cases h2 : readReg s regA7 = sysWrite
    · exact .inr (.inl ⟨h2, by simp only [execEcall, h2]; rfl⟩)
    · cases h3 : s.cfg.bridgePresent
      · exact .inr (.inr (.inr ⟨h1, h2, rfl, by simp [execEcall, h1, h2, h3]⟩))
      · exact .inr (.inr (.inl ⟨by simp [ecallIsForwarded, h1, h2, h3], by simp [execEcall, h1, h2, h3]⟩))

@[simp] theorem ecallForward_cfg (s : State) : (ecallForward s).cfg = s.cfg := by simp [ecallForward]

@[simp] theorem ecallForward_pc (s : State) : (ecallForward s).pc = s.pc := by simp [ecallForward]

@[simp] theorem ecallForward_run (s : State) : (ecallForward s).run = s.run := by simp [ecallForward]

@[simp] theorem ecallForward_instret (s : State) : (ecallForward s).instret = s.instret := by simp [ecallForward]

@[simp] theorem ecallForward_draws (s : State) : (ecallForward s).draws = s.draws + 1 := by simp [ecallForward]

@[simp] theorem ecallForward_mem (s : State) :
    (ecallForward s).mem = applyWrites s.cfg.capacity s.mem (Config.bridgeWrites s.draws (bridgeCallOf s)) := by
  simp [ecallForward]

@[simp] theorem ecallForward_stdout (s : State) :
    (ecallForward s).stdout = s.stdout ++ Config.bridgeOutput s.draws (bridgeCallOf s) := by
  simp [ecallForward]

theorem readReg_ecallForward (s : State) (r : RegIdx) :
    readReg (ecallForward s) r =
      if r = regA0 then Config.bridgeResult s.draws (bridgeCallOf s) else readReg s r := by
  simp only [ecallForward, readReg_takeDraw, readReg_writeReg]
  have : regA0 ≠ 0#5 := by decide
  simp only [this, ne_eq, not_false_eq_true, and_true]
  rfl

theorem ecallForward_slot_zero (s : State) : (ecallForward s).regs[0] = s.regs[0] := by
  simp [ecallForward, writeReg_slot_zero]

/-! ## The step (R90) -/

/-- Everything a step can do. -/
theorem step_cases (s : State) :
    (∃ status, s.run = .halted status ∧ step s = .fault (.runEnded status)) ∨
    (s.run = .running ∧ s.cfg.capacity < offsetOf s.pc + 4 ∧
      step s = .next (halt (countStep s) .invalidMemoryAccess)) ∨
    (s.run = .running ∧ offsetOf s.pc + 4 ≤ s.cfg.capacity ∧
      step s = exec (decode (Memory.readLE s.mem (offsetOf s.pc) 4)) (countStep s)) := by
  cases hr : s.run with
  | halted status => exact .inl ⟨status, rfl, by simp [step, hr]⟩
  | running =>
    rcases fetchWord_cases (countStep s) s.pc with ⟨h, e⟩ | ⟨h, e⟩
    · exact .inr (.inl ⟨rfl, h, by simp [step, hr, e]⟩)
    · exact .inr (.inr ⟨rfl, h, by simp [step, hr, e]⟩)

/-! ## Run entry (R300 to R305) -/

theorem capacityValid_iff (cfg : Config) : capacityValid cfg = true ↔ CapacityAllowed cfg := by
  simp only [capacityValid, List.any_eq_true, List.mem_range, decide_eq_true_eq]
  constructor
  · rintro ⟨k, hk, h⟩
    exact ⟨⟨k, h⟩, h ▸ Nat.pow_le_pow_right (by decide) (by omega)⟩
  · rintro ⟨⟨k, h⟩, hle⟩
    exact ⟨k, by rw [h, Nat.pow_le_pow_iff_right (by decide)] at hle; omega, h⟩

theorem addressesValid_iff (cfg : Config) : addressesValid cfg = true ↔ AddressesAllowed cfg := by
  simp only [addressesValid, AddressesAllowed, Bool.and_eq_true, decide_eq_true_eq, ne_eq, ← BitVec.toNat_inj]
  constructor
  · rintro ⟨⟨⟨⟨⟨h1, h2⟩, h3⟩, h4⟩, h5⟩, h6⟩
    exact ⟨⟨h1, h2, h3⟩, ⟨h4, by omega, by omega⟩, fun k hk => ⟨by omega, by omega⟩⟩
  · rintro ⟨⟨h1, h2, h3⟩, ⟨h4, -, -⟩, h⟩
    have h0 := h 0 (by omega)
    have h1' := h 1 (by omega)
    have h2' := h 2 (by omega)
    have h3' := h 3 (by omega)
    exact ⟨⟨⟨⟨⟨h1, h2⟩, h3⟩, h4⟩, by omega⟩, by omega⟩

theorem initialRegsValid_iff (initial : Option (Vector Word 32)) :
    initialRegsValid initial = true ↔ ∀ regs, initial = some regs → regs[0] = 0#32 := by
  cases initial <;> simp [initialRegsValid]

/-- The test `launch` makes is R305's list of conditions. -/
theorem launchValid_iff (cfg : Config) (initial : Option (Vector Word 32)) :
    launchValid cfg initial = true ↔ LaunchAllowed cfg initial := by
  rw [launchValid, Bool.and_eq_true, Bool.and_eq_true, capacityValid_iff, addressesValid_iff, initialRegsValid_iff,
    and_assoc, LaunchAllowed]

end Sys2Proof.Machine
end

