-- ==== Sys2Proof/Laws/Exec.lean ====
section
/-! SUPPORT. Everything an instruction can do, said once: `exec_effect`. A claim about all instructions is a case
analysis over `Effect`, with no unfolding of a meaning. -/

namespace Sys2Proof.Machine

/-- Why an instruction ends the run, and with which status. -/
inductive HaltCause (i : Instr) (s : State) : Status → Prop where
  | load (w rs1 imm status) (hi : loadOperands i = some (w, rs1, imm))
      (h : accessHalt s (baseAddress s rs1 imm) w = some status) : HaltCause i s status
  | store (w rs1 rs2 imm status) (hi : storeOperands i = some (w, rs1, rs2, imm))
      (hn : NotIntercepted s (baseAddress s rs1 imm))
      (h : accessHalt s (baseAddress s rs1 imm) w = some status) : HaltCause i s status
  | packet (w rs1 rs2 imm) (hi : storeOperands i = some (w, rs1, rs2, imm))
      (hu : effective (baseAddress s rs1 imm) ≠ s.cfg.uartAddr)
      (ht : effective (baseAddress s rs1 imm) = s.cfg.tohostAddr) (ho : (readReg s rs2).getLsbD 0 = true) :
      HaltCause i s (.guestExit (exitCode (truncateTo w (readReg s rs2))) true)
  | syscall (w rs1 rs2 imm status) (hi : storeOperands i = some (w, rs1, rs2, imm))
      (hu : effective (baseAddress s rs1 imm) ≠ s.cfg.uartAddr)
      (ht : effective (baseAddress s rs1 imm) = s.cfg.tohostAddr) (he : (readReg s rs2).getLsbD 0 = false)
      (h : status = .unimplementedMagicSyscall ∨ status = .invalidMemoryAccess ∨
        ∃ addr, accessHalt s addr .word = some status) : HaltCause i s status
  | target (hi : isControlTransfer i = true) : HaltCause i s .misalignedMemoryAccess
  | exit (hi : i = .ecall) (h : readReg s regA7 = sysExit) :
      HaltCause i s (.guestExit (exitCode (readReg s regA0)) (isTestFlag (readReg s regA0)))
  | ebreak (hi : i = .ebreak) : HaltCause i s .ebreak
  | wfi (hi : i = .wfi) : HaltCause i s .wfi
  | unimp (w) (hi : i = .unimp w) : HaltCause i s .unimplementedOpcode

/-- The states an instruction can leave. -/
inductive Effect (i : Instr) (s : State) : State → Prop where
  /-- The run ends, nothing else changed. -/
  | halts (status) (h : HaltCause i s status) : Effect i s (halt s status)
  /-- One register written, the pc moved on. -/
  | writes (rd v) (hd : destOf i = some rd) (hc : isControlTransfer i = false) (ha : asksHost i s = false) :
      Effect i s (advance (writeReg s rd v))
  /-- A clock CSR read. -/
  | draws (rd v) (hd : destOf i = some rd) (hc : isControlTransfer i = false) (ha : asksHost i s = true) :
      Effect i s (advance (writeReg (takeDraw s) rd v))
  /-- A branch not taken. -/
  | falls (hc : isControlTransfer i = true) (ha : asksHost i s = false) : Effect i s (advance s)
  /-- A branch taken. -/
  | branches (target) (hc : isControlTransfer i = true) (ha : asksHost i s = false) (hm : target.toNat % 4 = 0) :
      Effect i s (setPc s target)
  /-- JAL and JALR. -/
  | links (rd target) (hd : destOf i = some rd) (hc : isControlTransfer i = true) (ha : asksHost i s = false)
      (hm : target.toNat % 4 = 0) : Effect i s (setPc (writeReg s rd (s.pc + 4#32)) target)
  /-- An ordinary store. -/
  | stores (w rs1 rs2 imm) (hi : storeOperands i = some (w, rs1, rs2, imm))
      (hn : NotIntercepted s (baseAddress s rs1 imm)) (h : AccessAllowed s (baseAddress s rs1 imm) w) :
      Effect i s (advance { s with
        mem := Memory.writeLE s.mem (offsetOf (baseAddress s rs1 imm)) w.bytes (readReg s rs2) })
  /-- A store to the UART port. -/
  | uart (w rs1 rs2 imm) (hi : storeOperands i = some (w, rs1, rs2, imm))
      (hu : effective (baseAddress s rs1 imm) = s.cfg.uartAddr) :
      Effect i s (advance (emit s (lowByte (readReg s rs2))))
  /-- A magic syscall whose acknowledge is out of bounds. -/
  | magicHalts (w rs1 rs2 imm bytes) (hi : storeOperands i = some (w, rs1, rs2, imm))
      (hu : effective (baseAddress s rs1 imm) ≠ s.cfg.uartAddr)
      (ht : effective (baseAddress s rs1 imm) = s.cfg.tohostAddr) (he : (readReg s rs2).getLsbD 0 = false)
      (h : s.cfg.capacity < offsetOf s.cfg.fromhostAddr + 4) :
      Effect i s (halt (emitAll s bytes) .invalidMemoryAccess)
  /-- A magic syscall that completes. -/
  | magicWrites (w rs1 rs2 imm bytes) (hi : storeOperands i = some (w, rs1, rs2, imm))
      (hu : effective (baseAddress s rs1 imm) ≠ s.cfg.uartAddr)
      (ht : effective (baseAddress s rs1 imm) = s.cfg.tohostAddr) (he : (readReg s rs2).getLsbD 0 = false)
      (h : offsetOf s.cfg.fromhostAddr + 4 ≤ s.cfg.capacity) :
      Effect i s (advance { emitAll s bytes with mem := Memory.writeLE s.mem (offsetOf s.cfg.fromhostAddr) 4 1#32 })
  /-- ECALL 64. -/
  | ecallWrites (hi : i = .ecall) (h : readReg s regA7 = sysWrite) :
      Effect i s (advance (emit s (lowByte (readReg s regA0))))
  /-- ECALL forwarded to the bridge. -/
  | forwards (hi : i = .ecall) (h : ecallIsForwarded s = true) : Effect i s (advance (ecallForward s))
  /-- ECALL ignored. -/
  | ignores (hi : i = .ecall) (h : ecallIsForwarded s = false) : Effect i s (advance s)

/-! The shapes of the meanings, one lemma each. -/

theorem effect_of_writeBack {i : Instr} {s : State} {rd : RegIdx} {v : Word} (e : exec i s = writeBack s rd v)
    (hd : destOf i = some rd) (hc : isControlTransfer i = false) (ha : asksHost i s = false) :
    ∃ t, exec i s = .next t ∧ Effect i s t :=
  ⟨_, e, .writes rd v hd hc ha⟩

theorem effect_of_load {i : Instr} {s : State} {w : Width} {extend : Word → Word} {rd rs1 : RegIdx} {imm : Word}
    (e : exec i s = .next (load w extend rd rs1 imm s)) (hi : loadOperands i = some (w, rs1, imm))
    (hd : destOf i = some rd) (hc : isControlTransfer i = false) (ha : asksHost i s = false) :
    ∃ t, exec i s = .next t ∧ Effect i s t := by
  refine ⟨_, e, ?_⟩
  rcases load_cases w extend rd rs1 imm s with ⟨status, h, e⟩ | ⟨-, e⟩ <;> rw [e]
  · exact .halts status (.load w rs1 imm status hi h)
  · exact .writes rd _ hd hc ha

/-- The meaning of a store is `store` on its operands. -/
theorem exec_store {i : Instr} {w : Width} {rs1 rs2 : RegIdx} {imm : Word}
    (hi : storeOperands i = some (w, rs1, rs2, imm)) (s : State) : exec i s = .next (store w rs1 rs2 imm s) := by
  cases i <;> simp only [storeOperands, Option.some.injEq, Prod.mk.injEq, reduceCtorEq] at hi <;>
    obtain ⟨rfl, rfl, rfl, rfl⟩ := hi <;> rfl

theorem effect_of_store {i : Instr} {w : Width} {rs1 rs2 : RegIdx} {imm : Word}
    (hi : storeOperands i = some (w, rs1, rs2, imm)) (s : State) : ∃ t, exec i s = .next t ∧ Effect i s t := by
  refine ⟨_, exec_store hi s, ?_⟩
  by_cases hu : effective (baseAddress s rs1 imm) = s.cfg.uartAddr
  · rw [store_uart hu]; exact .uart w rs1 rs2 imm hi hu
  by_cases ht : effective (baseAddress s rs1 imm) = s.cfg.tohostAddr
  · rw [store_tohost hu ht]
    rcases tohostStore_cases s (truncateTo w (readReg s rs2)) with ⟨h, e⟩ | ⟨h, e⟩ <;> rw [e] <;>
      rw [truncateTo_bit_zero] at h
    · exact .halts _ (.packet w rs1 rs2 imm hi hu ht h)
    · rcases magicSyscall_cases s (truncateTo w (readReg s rs2)) with ⟨status, e, c⟩ | ⟨bytes, c, e⟩ | ⟨bytes, c, e⟩ <;>
        rw [e]
      · exact .halts status (.syscall w rs1 rs2 imm status hi hu ht h c)
      · exact .magicHalts w rs1 rs2 imm bytes hi hu ht h c
      · exact .magicWrites w rs1 rs2 imm bytes hi hu ht h c
  · rcases store_ordinary (w := w) (rs2 := rs2) ⟨hu, ht⟩ with ⟨status, h, e⟩ | ⟨h, e⟩ <;> rw [e]
    · exact .halts status (.store w rs1 rs2 imm status hi ⟨hu, ht⟩ h)
    · exact .stores w rs1 rs2 imm hi ⟨hu, ht⟩ h

theorem effect_of_branchIf {i : Instr} {s : State} {taken : Bool} {imm : Word} (e : exec i s = branchIf taken s imm)
    (hc : isControlTransfer i = true) (ha : asksHost i s = false) : ∃ t, exec i s = .next t ∧ Effect i s t := by
  rcases branchIf_cases taken s imm with ⟨-, h⟩ | ⟨-, hm, h⟩ | ⟨-, -, h⟩ <;> rw [h] at e
  · exact ⟨_, e, .falls hc ha⟩
  · exact ⟨_, e, .branches _ hc ha hm⟩
  · exact ⟨_, e, .halts _ (.target hc)⟩

theorem effect_of_jumpAndLink {i : Instr} {s : State} {rd : RegIdx} {target : Word}
    (e : exec i s = jumpAndLink s rd target) (hd : destOf i = some rd) (hc : isControlTransfer i = true)
    (ha : asksHost i s = false) : ∃ t, exec i s = .next t ∧ Effect i s t := by
  rcases jumpAndLink_cases s rd target with ⟨hm, h⟩ | ⟨-, h⟩ <;> rw [h] at e
  · exact ⟨_, e, .links rd _ hd hc ha hm⟩
  · exact ⟨_, e, .halts _ (.target hc)⟩

theorem effect_of_csrInstr {i : Instr} {s : State} {rd : RegIdx} {csr : BitVec 12} (e : exec i s = csrInstr s rd csr)
    (hd : destOf i = some rd) (hc : isControlTransfer i = false) (ha : asksHost i s = csrTakesDraw csr) :
    ∃ t, exec i s = .next t ∧ Effect i s t := by
  refine ⟨_, e, ?_⟩
  cases h : csrTakesDraw csr <;> simp only [afterCsrRead, h, if_true, if_false, Bool.false_eq_true]
  · exact .writes rd _ hd hc (ha.trans h)
  · exact .draws rd _ hd hc (ha.trans h)

theorem effect_of_ecall (s : State) : ∃ t, exec .ecall s = .next t ∧ Effect .ecall s t := by
  rcases execEcall_cases s with ⟨h, e⟩ | ⟨h, e⟩ | ⟨h, e⟩ | ⟨-, -, h, e⟩
  · exact ⟨_, e, .halts _ (.exit rfl h)⟩
  · exact ⟨_, e, .ecallWrites rfl h⟩
  · exact ⟨_, e, .forwards rfl h⟩
  · exact ⟨_, e, .ignores rfl (by simp [ecallIsForwarded, h])⟩

theorem asksHost_csr {i : Instr} {s : State} {csr : BitVec 12} (h : csrOperand i = some csr) (hi : i ≠ .ecall) :
    asksHost i s = csrTakesDraw csr := by
  simp [asksHost, h, hi]

/-- Every instruction answers a next state, and that state is one of the effects. -/
theorem exec_effect (i : Instr) (s : State) : ∃ t, exec i s = .next t ∧ Effect i s t := by
  cases i with
  | lui | auipc => exact effect_of_writeBack rfl rfl rfl rfl
  | addi | slti | sltiu | xori | ori | andi | slli | srli | srai => exact effect_of_writeBack rfl rfl rfl rfl
  | mul | mulh | mulhsu | mulhu | div | divu | rem | remu => exact effect_of_writeBack rfl rfl rfl rfl
  | add | sub | srl | sra | sll | slt | sltu | xor | or | and => exact effect_of_writeBack rfl rfl rfl rfl
  | jal | jalr => exact effect_of_jumpAndLink rfl rfl rfl rfl
  | beq | bne | blt | bge | bltu | bgeu => exact effect_of_branchIf rfl rfl rfl
  | lb | lh | lw | lbu | lhu => exact effect_of_load rfl rfl rfl rfl rfl
  | sb | sh | sw => exact effect_of_store rfl s
  | ecall => exact effect_of_ecall s
  | ebreak => exact ⟨_, rfl, .halts _ (.ebreak rfl)⟩
  | wfi => exact ⟨_, rfl, .halts _ (.wfi rfl)⟩
  | unimp w => exact ⟨_, rfl, .halts _ (.unimp w rfl)⟩
  | csrrw | csrrs | csrrc | csrr4 | csrrwi | csrrsi | csrrci =>
    exact effect_of_csrInstr rfl rfl rfl (asksHost_csr rfl (by simp))

/-- The effect of an instruction whose next state is known. -/
theorem effect_of_exec {i : Instr} {s t : State} (h : exec i s = .next t) : Effect i s t := by
  obtain ⟨t', e, he⟩ := exec_effect i s
  rw [e] at h; cases h; exact he

end Sys2Proof.Machine
end

