-- ==== Sys2Proof/Laws/Fields.lean ====
section
/-! SUPPORT. The fields of a word built by each format (R61, R63), and that an immediate in its range is the value its
field decodes to (R64 to R68). -/

namespace Sys2Proof

/-! ## R format -/

section
variable (f7 : BitVec 7) (rs2 rs1 : RegIdx) (f3 : BitVec 3) (rd : RegIdx) (op : BitVec 7)

@[simp] theorem opcodeOf_encodeR : opcodeOf (encodeR f7 rs2 rs1 f3 rd op) = op := by
  apply BitVec.eq_of_getLsbD_eq; intro i hi; simp [opcodeOf, encodeR]; grind

@[simp] theorem rdOf_encodeR : rdOf (encodeR f7 rs2 rs1 f3 rd op) = rd := by
  apply BitVec.eq_of_getLsbD_eq; intro i hi; simp [rdOf, encodeR]; grind

@[simp] theorem funct3Of_encodeR : funct3Of (encodeR f7 rs2 rs1 f3 rd op) = f3 := by
  apply BitVec.eq_of_getLsbD_eq; intro i hi; simp [funct3Of, encodeR]; grind

@[simp] theorem rs1Of_encodeR : rs1Of (encodeR f7 rs2 rs1 f3 rd op) = rs1 := by
  apply BitVec.eq_of_getLsbD_eq; intro i hi; simp [rs1Of, encodeR]; grind

@[simp] theorem rs2Of_encodeR : rs2Of (encodeR f7 rs2 rs1 f3 rd op) = rs2 := by
  apply BitVec.eq_of_getLsbD_eq; intro i hi; simp [rs2Of, encodeR]; grind

@[simp] theorem funct7Of_encodeR : funct7Of (encodeR f7 rs2 rs1 f3 rd op) = f7 := by
  apply BitVec.eq_of_getLsbD_eq; intro i hi; simp [funct7Of, encodeR]; grind

end

/-! ## I format -/

section
variable (x : BitVec 12) (rs1 : RegIdx) (f3 : BitVec 3) (rd : RegIdx) (op : BitVec 7)

@[simp] theorem opcodeOf_encodeI : opcodeOf (encodeI x rs1 f3 rd op) = op := by
  apply BitVec.eq_of_getLsbD_eq; intro i hi; simp [opcodeOf, encodeI]; grind

@[simp] theorem rdOf_encodeI : rdOf (encodeI x rs1 f3 rd op) = rd := by
  apply BitVec.eq_of_getLsbD_eq; intro i hi; simp [rdOf, encodeI]; grind

@[simp] theorem funct3Of_encodeI : funct3Of (encodeI x rs1 f3 rd op) = f3 := by
  apply BitVec.eq_of_getLsbD_eq; intro i hi; simp [funct3Of, encodeI]; grind

@[simp] theorem rs1Of_encodeI : rs1Of (encodeI x rs1 f3 rd op) = rs1 := by
  apply BitVec.eq_of_getLsbD_eq; intro i hi; simp [rs1Of, encodeI]; grind

@[simp] theorem csrOf_encodeI : csrOf (encodeI x rs1 f3 rd op) = x := by
  apply BitVec.eq_of_getLsbD_eq; intro i hi; simp [csrOf, encodeI]; grind

@[simp] theorem immI_encodeI : immI (encodeI x rs1 f3 rd op) = x.signExtend 32 := by
  have h : csrOf (encodeI x rs1 f3 rd op) = x := csrOf_encodeI x rs1 f3 rd op
  unfold csrOf at h; rw [immI, h]

end

/-! ## S format -/

section
variable (imm : Word) (rs2 rs1 : RegIdx) (f3 : BitVec 3) (op : BitVec 7)

@[simp] theorem opcodeOf_encodeS : opcodeOf (encodeS imm rs2 rs1 f3 op) = op := by
  apply BitVec.eq_of_getLsbD_eq; intro i hi; simp [opcodeOf, encodeS]; grind

@[simp] theorem funct3Of_encodeS : funct3Of (encodeS imm rs2 rs1 f3 op) = f3 := by
  apply BitVec.eq_of_getLsbD_eq; intro i hi; simp [funct3Of, encodeS]; grind

@[simp] theorem rs1Of_encodeS : rs1Of (encodeS imm rs2 rs1 f3 op) = rs1 := by
  apply BitVec.eq_of_getLsbD_eq; intro i hi; simp [rs1Of, encodeS]; grind

@[simp] theorem rs2Of_encodeS : rs2Of (encodeS imm rs2 rs1 f3 op) = rs2 := by
  apply BitVec.eq_of_getLsbD_eq; intro i hi; simp [rs2Of, encodeS]; grind

@[simp] theorem immS_encodeS : immS (encodeS imm rs2 rs1 f3 op) = (imm.setWidth 12).signExtend 32 := by
  unfold immS; congr 1
  apply BitVec.eq_of_getLsbD_eq; intro i hi; simp [encodeS]; grind

end

/-! ## B format -/

section
variable (imm : Word) (rs2 rs1 : RegIdx) (f3 : BitVec 3) (op : BitVec 7)

@[simp] theorem opcodeOf_encodeB : opcodeOf (encodeB imm rs2 rs1 f3 op) = op := by
  apply BitVec.eq_of_getLsbD_eq; intro i hi; simp [opcodeOf, encodeB]; grind

@[simp] theorem funct3Of_encodeB : funct3Of (encodeB imm rs2 rs1 f3 op) = f3 := by
  apply BitVec.eq_of_getLsbD_eq; intro i hi; simp [funct3Of, encodeB]; grind

@[simp] theorem rs1Of_encodeB : rs1Of (encodeB imm rs2 rs1 f3 op) = rs1 := by
  apply BitVec.eq_of_getLsbD_eq; intro i hi; simp [rs1Of, encodeB]; grind

@[simp] theorem rs2Of_encodeB : rs2Of (encodeB imm rs2 rs1 f3 op) = rs2 := by
  apply BitVec.eq_of_getLsbD_eq; intro i hi; simp [rs2Of, encodeB]; grind

end

/-! ## U format -/

section
variable (imm : Word) (rd : RegIdx) (op : BitVec 7)

@[simp] theorem opcodeOf_encodeU : opcodeOf (encodeU imm rd op) = op := by
  apply BitVec.eq_of_getLsbD_eq; intro i hi; simp [opcodeOf, encodeU]; grind

@[simp] theorem rdOf_encodeU : rdOf (encodeU imm rd op) = rd := by
  apply BitVec.eq_of_getLsbD_eq; intro i hi; simp [rdOf, encodeU]; grind

end

/-! ## J format -/

section
variable (imm : Word) (rd : RegIdx) (op : BitVec 7)

@[simp] theorem opcodeOf_encodeJ : opcodeOf (encodeJ imm rd op) = op := by
  apply BitVec.eq_of_getLsbD_eq; intro i hi; simp [opcodeOf, encodeJ]; grind

@[simp] theorem rdOf_encodeJ : rdOf (encodeJ imm rd op) = rd := by
  apply BitVec.eq_of_getLsbD_eq; intro i hi; simp [rdOf, encodeJ]; grind

end

/-! ## Immediates in range -/

/-- A word whose signed value fits in `n` bits is the sign extension of its low `n` bits. -/
theorem signExtend_setWidth_of_fits (n : Nat) (imm : Word) (hn : n ≤ 32) (h1 : -(2 ^ n / 2 : Int) ≤ imm.toInt)
    (h2 : imm.toInt < (2 ^ n + 1) / 2) : (imm.setWidth n).signExtend 32 = imm := by
  apply BitVec.eq_of_toInt_eq
  rw [BitVec.toInt_signExtend_of_le hn, BitVec.toInt_setWidth]
  have e : (imm.toNat : Int).bmod (2 ^ n) = imm.toInt.bmod (2 ^ n) := by
    rw [BitVec.toInt_eq_toNat_bmod]
    exact (Int.bmod_bmod_of_dvd (Nat.pow_dvd_pow 2 hn)).symm
  rw [e]
  apply Int.bmod_eq_of_le <;> push_cast <;> omega

theorem getLsbD_zero_of_even (imm : Word) (h : imm.toNat % 2 = 0) : imm.getLsbD 0 = false := by
  simp [BitVec.getLsbD, Nat.testBit_zero, h]

theorem immI_encodeI_of_fits (imm : Word) (rs1 : RegIdx) (f3 : BitVec 3) (rd : RegIdx) (op : BitVec 7)
    (h : immFits12 imm = true) : immI (encodeI (imm12Of imm) rs1 f3 rd op) = imm := by
  simp only [immFits12, Bool.and_eq_true, decide_eq_true_eq] at h
  have e : imm12Of imm = imm.setWidth 12 := by
    apply BitVec.eq_of_getLsbD_eq; intro i hi; simp [imm12Of]
  rw [immI_encodeI, e]
  exact signExtend_setWidth_of_fits 12 imm (by omega) (by omega) (by omega)

theorem immS_encodeS_of_fits (imm : Word) (rs2 rs1 : RegIdx) (f3 : BitVec 3) (op : BitVec 7)
    (h : immFits12 imm = true) : immS (encodeS imm rs2 rs1 f3 op) = imm := by
  simp only [immFits12, Bool.and_eq_true, decide_eq_true_eq] at h
  rw [immS_encodeS]
  exact signExtend_setWidth_of_fits 12 imm (by omega) (by omega) (by omega)

theorem immB_encodeB (imm : Word) (rs2 rs1 : RegIdx) (f3 : BitVec 3) (op : BitVec 7) (h0 : imm.getLsbD 0 = false) :
    immB (encodeB imm rs2 rs1 f3 op) = (imm.setWidth 13).signExtend 32 := by
  unfold immB; congr 1
  apply BitVec.eq_of_getLsbD_eq; intro i hi
  simp only [encodeB, BitVec.getLsbD_append, BitVec.getLsbD_extractLsb', BitVec.getLsbD_setWidth]
  rcases i with _ | i
  · simpa using h0
  · simp; grind

theorem immB_encodeB_of_fits (imm : Word) (rs2 rs1 : RegIdx) (f3 : BitVec 3) (op : BitVec 7)
    (h : immFitsBranch imm = true) : immB (encodeB imm rs2 rs1 f3 op) = imm := by
  simp only [immFitsBranch, Bool.and_eq_true, decide_eq_true_eq] at h
  rw [immB_encodeB _ _ _ _ _ (getLsbD_zero_of_even imm h.2)]
  exact signExtend_setWidth_of_fits 13 imm (by omega) (by omega) (by omega)

theorem immU_encodeU_of_fits (imm : Word) (rd : RegIdx) (op : BitVec 7) (h : immFitsUpper imm = true) :
    immU (encodeU imm rd op) = imm := by
  simp only [immFitsUpper, decide_eq_true_eq] at h
  have h0 : ∀ i < 12, imm.getLsbD i = false := by
    intro i hi
    have e : (imm.toNat % 2 ^ 12).testBit i = imm.toNat.testBit i := by
      rw [Nat.testBit_mod_two_pow]; simp only [hi, decide_true, Bool.true_and]
    rw [BitVec.getLsbD, ← e, show 2 ^ 12 = 4096 from rfl, h]; simp
  apply BitVec.eq_of_getLsbD_eq; intro i hi; simp [immU, encodeU]; grind

theorem immJ_encodeJ (imm : Word) (rd : RegIdx) (op : BitVec 7) (h0 : imm.getLsbD 0 = false) :
    immJ (encodeJ imm rd op) = (imm.setWidth 21).signExtend 32 := by
  unfold immJ; congr 1
  apply BitVec.eq_of_getLsbD_eq; intro i hi
  simp only [encodeJ, BitVec.getLsbD_append, BitVec.getLsbD_extractLsb', BitVec.getLsbD_setWidth]
  rcases i with _ | i
  · simpa using h0
  · simp; grind

theorem immJ_encodeJ_of_fits (imm : Word) (rd : RegIdx) (op : BitVec 7) (h : immFitsJump imm = true) :
    immJ (encodeJ imm rd op) = imm := by
  simp only [immFitsJump, Bool.and_eq_true, decide_eq_true_eq] at h
  rw [immJ_encodeJ _ _ _ (getLsbD_zero_of_even imm h.2)]
  exact signExtend_setWidth_of_fits 21 imm (by omega) (by omega) (by omega)

/-- Bit 30 of a word in R format is bit 5 of its funct7: the bit that selects SRLI or SRAI (R73). -/
theorem bitThirty_encodeR (f7 : BitVec 7) (rs2 rs1 : RegIdx) (f3 : BitVec 3) (rd : RegIdx) (op : BitVec 7) :
    (encodeR f7 rs2 rs1 f3 rd op).extractLsb' 30 1 = f7.extractLsb' 5 1 := by
  apply BitVec.eq_of_getLsbD_eq; intro i hi; simp [encodeR]; grind

/-! ## What a row's mask keeps of a word (R72) -/

theorem and_mask_opcode (w : Word) : w &&& 0x0000007F#32 = (0#25 ++ opcodeOf w : BitVec 32) := by
  apply BitVec.eq_of_getLsbD_eq; intro i hi
  simp only [opcodeOf, BitVec.getLsbD_append, BitVec.getLsbD_extractLsb', BitVec.getLsbD_and]
  interval_cases i <;> simp

theorem and_mask_funct3 (w : Word) : w &&& 0x0000707F#32 = (0#17 ++ funct3Of w ++ 0#5 ++ opcodeOf w : BitVec 32) := by
  apply BitVec.eq_of_getLsbD_eq; intro i hi
  simp only [opcodeOf, funct3Of, BitVec.getLsbD_append, BitVec.getLsbD_extractLsb', BitVec.getLsbD_and]
  interval_cases i <;> simp

theorem and_mask_funct7 (w : Word) :
    w &&& 0xFE00707F#32 = (funct7Of w ++ 0#10 ++ funct3Of w ++ 0#5 ++ opcodeOf w : BitVec 32) := by
  apply BitVec.eq_of_getLsbD_eq; intro i hi
  simp only [opcodeOf, funct3Of, funct7Of, BitVec.getLsbD_append, BitVec.getLsbD_extractLsb', BitVec.getLsbD_and]
  interval_cases i <;> simp

theorem and_mask_bitThirty (w : Word) :
    w &&& 0x4000707F#32 = (0#1 ++ w.extractLsb' 30 1 ++ 0#15 ++ funct3Of w ++ 0#5 ++ opcodeOf w : BitVec 32) := by
  apply BitVec.eq_of_getLsbD_eq; intro i hi
  simp only [opcodeOf, funct3Of, BitVec.getLsbD_append, BitVec.getLsbD_extractLsb', BitVec.getLsbD_and]
  interval_cases i <;> simp

end Sys2Proof
end

