-- ==== Sys2Proof/Laws/PerInstr.lean ====
section
/-! SUPPORT. Statements made per instruction. `MatchesTableRow`: the canonical word of an instruction matches the match
and mask values of the instruction's row of spec/opcode_table.json (R72). -/

/-- The instruction's canonical word matches its row of the opcode table. -/
def Sys2Proof.Laws.MatchesTableRow.Statement (i : Sys2Proof.Instr) : Prop :=
  i.wellFormed = true → Sys2Proof.rowMatches (Sys2Proof.encode i) (Sys2Proof.tableRow i) = true

section
open Sys2Proof

/-! One proof after another: fifty-six proofs elaborated side by side need more threads than the build allows. -/
set_option Elab.async false

theorem Sys2Proof.Laws.MatchesTableRow.lui (rd : RegIdx) (imm : Word) :
    Sys2Proof.Laws.MatchesTableRow.Statement (.lui rd imm) := by
  intro _; simp [rowMatches, encode, tableRow, and_mask_opcode]

theorem Sys2Proof.Laws.MatchesTableRow.auipc (rd : RegIdx) (imm : Word) :
    Sys2Proof.Laws.MatchesTableRow.Statement (.auipc rd imm) := by
  intro _; simp [rowMatches, encode, tableRow, and_mask_opcode]

theorem Sys2Proof.Laws.MatchesTableRow.jal (rd : RegIdx) (imm : Word) :
    Sys2Proof.Laws.MatchesTableRow.Statement (.jal rd imm) := by
  intro _; simp [rowMatches, encode, tableRow, and_mask_opcode]

theorem Sys2Proof.Laws.MatchesTableRow.jalr (rd rs1 : RegIdx) (imm : Word) :
    Sys2Proof.Laws.MatchesTableRow.Statement (.jalr rd rs1 imm) := by
  intro _; simp [rowMatches, encode, tableRow, and_mask_opcode]

theorem Sys2Proof.Laws.MatchesTableRow.beq (rs1 rs2 : RegIdx) (imm : Word) :
    Sys2Proof.Laws.MatchesTableRow.Statement (.beq rs1 rs2 imm) := by
  intro _; simp [rowMatches, encode, tableRow, and_mask_funct3]

theorem Sys2Proof.Laws.MatchesTableRow.bne (rs1 rs2 : RegIdx) (imm : Word) :
    Sys2Proof.Laws.MatchesTableRow.Statement (.bne rs1 rs2 imm) := by
  intro _; simp [rowMatches, encode, tableRow, and_mask_funct3]

theorem Sys2Proof.Laws.MatchesTableRow.blt (rs1 rs2 : RegIdx) (imm : Word) :
    Sys2Proof.Laws.MatchesTableRow.Statement (.blt rs1 rs2 imm) := by
  intro _; simp [rowMatches, encode, tableRow, and_mask_funct3]

theorem Sys2Proof.Laws.MatchesTableRow.bge (rs1 rs2 : RegIdx) (imm : Word) :
    Sys2Proof.Laws.MatchesTableRow.Statement (.bge rs1 rs2 imm) := by
  intro _; simp [rowMatches, encode, tableRow, and_mask_funct3]

theorem Sys2Proof.Laws.MatchesTableRow.bltu (rs1 rs2 : RegIdx) (imm : Word) :
    Sys2Proof.Laws.MatchesTableRow.Statement (.bltu rs1 rs2 imm) := by
  intro _; simp [rowMatches, encode, tableRow, and_mask_funct3]

theorem Sys2Proof.Laws.MatchesTableRow.bgeu (rs1 rs2 : RegIdx) (imm : Word) :
    Sys2Proof.Laws.MatchesTableRow.Statement (.bgeu rs1 rs2 imm) := by
  intro _; simp [rowMatches, encode, tableRow, and_mask_funct3]

theorem Sys2Proof.Laws.MatchesTableRow.lb (rd rs1 : RegIdx) (imm : Word) :
    Sys2Proof.Laws.MatchesTableRow.Statement (.lb rd rs1 imm) := by
  intro _; simp [rowMatches, encode, tableRow, and_mask_funct3]

theorem Sys2Proof.Laws.MatchesTableRow.lh (rd rs1 : RegIdx) (imm : Word) :
    Sys2Proof.Laws.MatchesTableRow.Statement (.lh rd rs1 imm) := by
  intro _; simp [rowMatches, encode, tableRow, and_mask_funct3]

theorem Sys2Proof.Laws.MatchesTableRow.lw (rd rs1 : RegIdx) (imm : Word) :
    Sys2Proof.Laws.MatchesTableRow.Statement (.lw rd rs1 imm) := by
  intro _; simp [rowMatches, encode, tableRow, and_mask_funct3]

theorem Sys2Proof.Laws.MatchesTableRow.lbu (rd rs1 : RegIdx) (imm : Word) :
    Sys2Proof.Laws.MatchesTableRow.Statement (.lbu rd rs1 imm) := by
  intro _; simp [rowMatches, encode, tableRow, and_mask_funct3]

theorem Sys2Proof.Laws.MatchesTableRow.lhu (rd rs1 : RegIdx) (imm : Word) :
    Sys2Proof.Laws.MatchesTableRow.Statement (.lhu rd rs1 imm) := by
  intro _; simp [rowMatches, encode, tableRow, and_mask_funct3]

theorem Sys2Proof.Laws.MatchesTableRow.sb (rs1 rs2 : RegIdx) (imm : Word) :
    Sys2Proof.Laws.MatchesTableRow.Statement (.sb rs1 rs2 imm) := by
  intro _; simp [rowMatches, encode, tableRow, and_mask_funct3]

theorem Sys2Proof.Laws.MatchesTableRow.sh (rs1 rs2 : RegIdx) (imm : Word) :
    Sys2Proof.Laws.MatchesTableRow.Statement (.sh rs1 rs2 imm) := by
  intro _; simp [rowMatches, encode, tableRow, and_mask_funct3]

theorem Sys2Proof.Laws.MatchesTableRow.sw (rs1 rs2 : RegIdx) (imm : Word) :
    Sys2Proof.Laws.MatchesTableRow.Statement (.sw rs1 rs2 imm) := by
  intro _; simp [rowMatches, encode, tableRow, and_mask_funct3]

theorem Sys2Proof.Laws.MatchesTableRow.addi (rd rs1 : RegIdx) (imm : Word) :
    Sys2Proof.Laws.MatchesTableRow.Statement (.addi rd rs1 imm) := by
  intro _; simp [rowMatches, encode, tableRow, and_mask_funct3]

theorem Sys2Proof.Laws.MatchesTableRow.slti (rd rs1 : RegIdx) (imm : Word) :
    Sys2Proof.Laws.MatchesTableRow.Statement (.slti rd rs1 imm) := by
  intro _; simp [rowMatches, encode, tableRow, and_mask_funct3]

theorem Sys2Proof.Laws.MatchesTableRow.sltiu (rd rs1 : RegIdx) (imm : Word) :
    Sys2Proof.Laws.MatchesTableRow.Statement (.sltiu rd rs1 imm) := by
  intro _; simp [rowMatches, encode, tableRow, and_mask_funct3]

theorem Sys2Proof.Laws.MatchesTableRow.xori (rd rs1 : RegIdx) (imm : Word) :
    Sys2Proof.Laws.MatchesTableRow.Statement (.xori rd rs1 imm) := by
  intro _; simp [rowMatches, encode, tableRow, and_mask_funct3]

theorem Sys2Proof.Laws.MatchesTableRow.ori (rd rs1 : RegIdx) (imm : Word) :
    Sys2Proof.Laws.MatchesTableRow.Statement (.ori rd rs1 imm) := by
  intro _; simp [rowMatches, encode, tableRow, and_mask_funct3]

theorem Sys2Proof.Laws.MatchesTableRow.andi (rd rs1 : RegIdx) (imm : Word) :
    Sys2Proof.Laws.MatchesTableRow.Statement (.andi rd rs1 imm) := by
  intro _; simp [rowMatches, encode, tableRow, and_mask_funct3]

theorem Sys2Proof.Laws.MatchesTableRow.slli (rd rs1 : RegIdx) (shamt : BitVec 5) :
    Sys2Proof.Laws.MatchesTableRow.Statement (.slli rd rs1 shamt) := by
  intro _; simp [rowMatches, encode, tableRow, and_mask_funct3]

theorem Sys2Proof.Laws.MatchesTableRow.srli (rd rs1 : RegIdx) (shamt : BitVec 5) :
    Sys2Proof.Laws.MatchesTableRow.Statement (.srli rd rs1 shamt) := by
  intro _; simp [rowMatches, encode, tableRow, and_mask_bitThirty, bitThirty_encodeR]

theorem Sys2Proof.Laws.MatchesTableRow.srai (rd rs1 : RegIdx) (shamt : BitVec 5) :
    Sys2Proof.Laws.MatchesTableRow.Statement (.srai rd rs1 shamt) := by
  intro _; simp [rowMatches, encode, tableRow, and_mask_bitThirty, bitThirty_encodeR]

theorem Sys2Proof.Laws.MatchesTableRow.mul (rd rs1 rs2 : RegIdx) :
    Sys2Proof.Laws.MatchesTableRow.Statement (.mul rd rs1 rs2) := by
  intro _; simp [rowMatches, encode, tableRow, and_mask_funct7]

theorem Sys2Proof.Laws.MatchesTableRow.mulh (rd rs1 rs2 : RegIdx) :
    Sys2Proof.Laws.MatchesTableRow.Statement (.mulh rd rs1 rs2) := by
  intro _; simp [rowMatches, encode, tableRow, and_mask_funct7]

theorem Sys2Proof.Laws.MatchesTableRow.mulhsu (rd rs1 rs2 : RegIdx) :
    Sys2Proof.Laws.MatchesTableRow.Statement (.mulhsu rd rs1 rs2) := by
  intro _; simp [rowMatches, encode, tableRow, and_mask_funct7]

theorem Sys2Proof.Laws.MatchesTableRow.mulhu (rd rs1 rs2 : RegIdx) :
    Sys2Proof.Laws.MatchesTableRow.Statement (.mulhu rd rs1 rs2) := by
  intro _; simp [rowMatches, encode, tableRow, and_mask_funct7]

theorem Sys2Proof.Laws.MatchesTableRow.div (rd rs1 rs2 : RegIdx) :
    Sys2Proof.Laws.MatchesTableRow.Statement (.div rd rs1 rs2) := by
  intro _; simp [rowMatches, encode, tableRow, and_mask_funct7]

theorem Sys2Proof.Laws.MatchesTableRow.divu (rd rs1 rs2 : RegIdx) :
    Sys2Proof.Laws.MatchesTableRow.Statement (.divu rd rs1 rs2) := by
  intro _; simp [rowMatches, encode, tableRow, and_mask_funct7]

theorem Sys2Proof.Laws.MatchesTableRow.rem (rd rs1 rs2 : RegIdx) :
    Sys2Proof.Laws.MatchesTableRow.Statement (.rem rd rs1 rs2) := by
  intro _; simp [rowMatches, encode, tableRow, and_mask_funct7]

theorem Sys2Proof.Laws.MatchesTableRow.remu (rd rs1 rs2 : RegIdx) :
    Sys2Proof.Laws.MatchesTableRow.Statement (.remu rd rs1 rs2) := by
  intro _; simp [rowMatches, encode, tableRow, and_mask_funct7]

theorem Sys2Proof.Laws.MatchesTableRow.add (rd rs1 rs2 : RegIdx) :
    Sys2Proof.Laws.MatchesTableRow.Statement (.add rd rs1 rs2) := by
  intro _; simp [rowMatches, encode, tableRow, and_mask_funct7]

theorem Sys2Proof.Laws.MatchesTableRow.sub (rd rs1 rs2 : RegIdx) :
    Sys2Proof.Laws.MatchesTableRow.Statement (.sub rd rs1 rs2) := by
  intro _; simp [rowMatches, encode, tableRow, and_mask_funct7]

theorem Sys2Proof.Laws.MatchesTableRow.srl (rd rs1 rs2 : RegIdx) :
    Sys2Proof.Laws.MatchesTableRow.Statement (.srl rd rs1 rs2) := by
  intro _; simp [rowMatches, encode, tableRow, and_mask_funct7]

theorem Sys2Proof.Laws.MatchesTableRow.sra (rd rs1 rs2 : RegIdx) :
    Sys2Proof.Laws.MatchesTableRow.Statement (.sra rd rs1 rs2) := by
  intro _; simp [rowMatches, encode, tableRow, and_mask_funct7]

theorem Sys2Proof.Laws.MatchesTableRow.sll (rd rs1 rs2 : RegIdx) :
    Sys2Proof.Laws.MatchesTableRow.Statement (.sll rd rs1 rs2) := by
  intro _; simp [rowMatches, encode, tableRow, and_mask_funct3]

theorem Sys2Proof.Laws.MatchesTableRow.slt (rd rs1 rs2 : RegIdx) :
    Sys2Proof.Laws.MatchesTableRow.Statement (.slt rd rs1 rs2) := by
  intro _; simp [rowMatches, encode, tableRow, and_mask_funct3]

theorem Sys2Proof.Laws.MatchesTableRow.sltu (rd rs1 rs2 : RegIdx) :
    Sys2Proof.Laws.MatchesTableRow.Statement (.sltu rd rs1 rs2) := by
  intro _; simp [rowMatches, encode, tableRow, and_mask_funct3]

theorem Sys2Proof.Laws.MatchesTableRow.xor (rd rs1 rs2 : RegIdx) :
    Sys2Proof.Laws.MatchesTableRow.Statement (.xor rd rs1 rs2) := by
  intro _; simp [rowMatches, encode, tableRow, and_mask_funct3]

theorem Sys2Proof.Laws.MatchesTableRow.or (rd rs1 rs2 : RegIdx) :
    Sys2Proof.Laws.MatchesTableRow.Statement (.or rd rs1 rs2) := by
  intro _; simp [rowMatches, encode, tableRow, and_mask_funct3]

theorem Sys2Proof.Laws.MatchesTableRow.and (rd rs1 rs2 : RegIdx) :
    Sys2Proof.Laws.MatchesTableRow.Statement (.and rd rs1 rs2) := by
  intro _; simp [rowMatches, encode, tableRow, and_mask_funct3]

theorem Sys2Proof.Laws.MatchesTableRow.ecall :
    Sys2Proof.Laws.MatchesTableRow.Statement (.ecall) := by
  intro _; simp [rowMatches, encode, tableRow, and_mask_funct7]

theorem Sys2Proof.Laws.MatchesTableRow.ebreak :
    Sys2Proof.Laws.MatchesTableRow.Statement (.ebreak) := by
  intro _; simp [rowMatches, encode, tableRow, and_mask_funct7]

theorem Sys2Proof.Laws.MatchesTableRow.wfi :
    Sys2Proof.Laws.MatchesTableRow.Statement (.wfi) := by
  intro _; simp [rowMatches, encode, tableRow, and_mask_funct7]

theorem Sys2Proof.Laws.MatchesTableRow.csrrw (rd : RegIdx) (csr : BitVec 12) (rs1 : RegIdx) :
    Sys2Proof.Laws.MatchesTableRow.Statement (.csrrw rd csr rs1) := by
  intro _; simp [rowMatches, encode, tableRow, and_mask_funct3]

theorem Sys2Proof.Laws.MatchesTableRow.csrrs (rd : RegIdx) (csr : BitVec 12) (rs1 : RegIdx) :
    Sys2Proof.Laws.MatchesTableRow.Statement (.csrrs rd csr rs1) := by
  intro _; simp [rowMatches, encode, tableRow, and_mask_funct3]

theorem Sys2Proof.Laws.MatchesTableRow.csrrc (rd : RegIdx) (csr : BitVec 12) (rs1 : RegIdx) :
    Sys2Proof.Laws.MatchesTableRow.Statement (.csrrc rd csr rs1) := by
  intro _; simp [rowMatches, encode, tableRow, and_mask_funct3]

theorem Sys2Proof.Laws.MatchesTableRow.csrr4 (rd : RegIdx) (csr : BitVec 12) :
    Sys2Proof.Laws.MatchesTableRow.Statement (.csrr4 rd csr) := by
  intro _; simp [rowMatches, encode, tableRow, and_mask_funct3]

theorem Sys2Proof.Laws.MatchesTableRow.csrrwi (rd : RegIdx) (csr : BitVec 12) (uimm : BitVec 5) :
    Sys2Proof.Laws.MatchesTableRow.Statement (.csrrwi rd csr uimm) := by
  intro _; simp [rowMatches, encode, tableRow, and_mask_funct3]

theorem Sys2Proof.Laws.MatchesTableRow.csrrsi (rd : RegIdx) (csr : BitVec 12) (uimm : BitVec 5) :
    Sys2Proof.Laws.MatchesTableRow.Statement (.csrrsi rd csr uimm) := by
  intro _; simp [rowMatches, encode, tableRow, and_mask_funct3]

theorem Sys2Proof.Laws.MatchesTableRow.csrrci (rd : RegIdx) (csr : BitVec 12) (uimm : BitVec 5) :
    Sys2Proof.Laws.MatchesTableRow.Statement (.csrrci rd csr uimm) := by
  intro _; simp [rowMatches, encode, tableRow, and_mask_funct3]

theorem Sys2Proof.Laws.MatchesTableRow.unimp (word : Word) :
    Sys2Proof.Laws.MatchesTableRow.Statement (.unimp word) := by
  intro _; simp [rowMatches, encode, tableRow]

end
end

