-- ==== Sys2Proof/Tests/Slice0.lean ====
section
/-! SUPPORT. The model's own tests. Expected results come from the spec: the encodings of each rule's section, the
tables of 95_test_vectors.md, and the examples the rules give. The second half holds, for every statement that has
hypotheses, a concrete case that meets them. -/

namespace Sys2Proof.Machine

/-! ## Ill-formed terms are refused (R64 to R68, R74) -/

theorem test_wellFormed_refuses_imm12 :
    Instr.wellFormed (.addi 1 0 2048) = false ∧ Instr.wellFormed (.addi 1 0 2047) = true ∧
    Instr.wellFormed (.lw 1 0 0xFFFFF7FF) = false ∧ Instr.wellFormed (.lw 1 0 0xFFFFF800) = true ∧
    Instr.wellFormed (.sb 1 0 2048) = false ∧ Instr.wellFormed (.jalr 1 0 2048) = false := by decide

theorem test_wellFormed_refuses_branch_offset :
    Instr.wellFormed (.beq 1 2 4096) = false ∧ Instr.wellFormed (.beq 1 2 4094) = true ∧
    Instr.wellFormed (.bgeu 1 2 0xFFFFEFFE) = false ∧ Instr.wellFormed (.bgeu 1 2 0xFFFFF000) = true ∧
    Instr.wellFormed (.bne 1 2 3) = false := by decide

theorem test_wellFormed_refuses_jump_offset :
    Instr.wellFormed (.jal 1 1048576) = false ∧ Instr.wellFormed (.jal 1 1048574) = true ∧
    Instr.wellFormed (.jal 1 0xFFEFFFFE) = false ∧ Instr.wellFormed (.jal 1 0xFFF00000) = true ∧
    Instr.wellFormed (.jal 1 1) = false := by decide

theorem test_wellFormed_refuses_upper :
    Instr.wellFormed (.lui 1 0x1800) = false ∧ Instr.wellFormed (.lui 1 0x1000) = true ∧
    Instr.wellFormed (.auipc 1 1) = false := by decide

/-- An assigned word is not an `unimp`; the words of R206, R120, R161, R219 and R74 are. -/
theorem test_wellFormed_refuses_unimp_of_assigned_word :
    Instr.wellFormed (.unimp 0x00500093) = false ∧ Instr.wellFormed (.unimp 0x02000073) = false ∧
    Instr.wellFormed (.unimp 0x00002463) = true ∧ Instr.wellFormed (.unimp 0x00033283) = true ∧
    Instr.wellFormed (.unimp 0x00733023) = true ∧ Instr.wellFormed (.unimp 0x042081B3) = true ∧
    Instr.wellFormed (.unimp 0x04000073) = true ∧ Instr.wellFormed (.unimp 0) = true := by decide

/-! ## Decoding: words written out from the spec's encodings (R61, R63) -/

/-- imm[31:12] | rd | opcode (R190, R191). -/
theorem test_decode_upper :
    decode (0b00010010001101000101_00101_0110111) = .lui 5 0x12345000 ∧
    decode (0b00000000000000000001_00101_0010111) = .auipc 5 0x1000 := by decide

/-- imm[20|10:1|11|19:12] | rd | opcode (R202); imm[11:0] | rs1 | funct3 | rd | opcode (R203). -/
theorem test_decode_jumps :
    decode (0b0_0000000100_0_00000000_00001_1101111) = .jal 1 8 ∧
    decode (0b1_1111111100_1_11111111_00000_1101111) = .jal 0 0xFFFFFFF8 ∧
    decode (0b0_0000000000_0_00000001_00001_1101111) = .jal 1 0x1000 ∧
    decode (0b0_0000000000_1_00000000_00001_1101111) = .jal 1 0x800 ∧
    decode (0b000000000100_00101_000_00001_1100111) = .jalr 1 5 4 := by decide

/-- imm[12|10:5] | rs2 | rs1 | funct3 | imm[4:1|11] | opcode (R197 to R201, R205). -/
theorem test_decode_branches :
    decode (0b0_000000_00010_00001_000_1000_0_1100011) = .beq 1 2 16 ∧
    decode (0b1_111111_00010_00001_001_1110_1_1100011) = .bne 1 2 0xFFFFFFFC ∧
    decode (0b0_000000_00010_00001_100_1000_0_1100011) = .blt 1 2 16 ∧
    decode (0b0_000001_00010_00001_101_0000_0_1100011) = .bge 1 2 32 ∧
    decode (0b0_000000_00010_00001_110_0000_1_1100011) = .bltu 1 2 2048 ∧
    decode (0b1_000000_00010_00001_111_0000_0_1100011) = .bgeu 1 2 0xFFFFF000 := by decide

/-- imm[11:0] | rs1 | funct3 | rd | opcode (R111 to R115). -/
theorem test_decode_loads :
    decode (0b111111111111_00110_000_00101_0000011) = .lb 5 6 0xFFFFFFFF ∧
    decode (0b000000000010_00110_001_00101_0000011) = .lh 5 6 2 ∧
    decode (0b111111111100_00110_010_00101_0000011) = .lw 5 6 0xFFFFFFFC ∧
    decode (0b000000000000_00110_100_00101_0000011) = .lbu 5 6 0 ∧
    decode (0b011111111111_00110_101_00101_0000011) = .lhu 5 6 2047 := by decide

/-- imm[11:5] | rs2 | rs1 | funct3 | imm[4:0] | opcode (R117 to R119). -/
theorem test_decode_stores :
    decode (0b0000000_00111_00110_000_00001_0100011) = .sb 6 7 1 ∧
    decode (0b1111111_00111_00110_001_11110_0100011) = .sh 6 7 0xFFFFFFFE ∧
    decode (0b1000000_00111_00110_010_00000_0100011) = .sw 6 7 0xFFFFF800 := by decide

/-- imm[11:0] | rs1 | funct3 | rd | opcode (R131 to R136); shamt in bits 24 to 20, bit 30 the selector (R137 to R139). -/
theorem test_decode_integer_immediate :
    decode (0b000000000101_00000_000_00001_0010011) = .addi 1 0 5 ∧
    decode (0b111111111111_00110_010_00101_0010011) = .slti 5 6 0xFFFFFFFF ∧
    decode (0b000000000001_00110_011_00101_0010011) = .sltiu 5 6 1 ∧
    decode (0b010101010101_00110_100_00101_0010011) = .xori 5 6 0x555 ∧
    decode (0b100000000000_00110_110_00101_0010011) = .ori 5 6 0xFFFFF800 ∧
    decode (0b111111110000_00110_111_00101_0010011) = .andi 5 6 0xFFFFFFF0 ∧
    decode (0b0000000_11111_00110_001_00101_0010011) = .slli 5 6 31 ∧
    decode (0b0000000_00001_00110_101_00101_0010011) = .srli 5 6 1 ∧
    decode (0b0100000_00100_00110_101_00101_0010011) = .srai 5 6 4 := by decide

/-- funct7 | rs2 | rs1 | funct3 | rd | opcode (R151 to R160). -/
theorem test_decode_integer_register :
    decode (0b0000000_00010_00001_000_00011_0110011) = .add 3 1 2 ∧
    decode (0b0100000_00010_00001_000_00011_0110011) = .sub 3 1 2 ∧
    decode (0b0000000_00010_00001_001_00011_0110011) = .sll 3 1 2 ∧
    decode (0b0000000_00010_00001_010_00011_0110011) = .slt 3 1 2 ∧
    decode (0b0000000_00010_00001_011_00011_0110011) = .sltu 3 1 2 ∧
    decode (0b0000000_00010_00001_100_00011_0110011) = .xor 3 1 2 ∧
    decode (0b0000000_00010_00001_101_00011_0110011) = .srl 3 1 2 ∧
    decode (0b0100000_00010_00001_101_00011_0110011) = .sra 3 1 2 ∧
    decode (0b0000000_00010_00001_110_00011_0110011) = .or 3 1 2 ∧
    decode (0b0000000_00010_00001_111_00011_0110011) = .and 3 1 2 := by decide

/-- funct7 = 1 (R171 to R178). -/
theorem test_decode_muldiv :
    decode (0b0000001_00010_00001_000_00011_0110011) = .mul 3 1 2 ∧
    decode (0b0000001_00010_00001_001_00011_0110011) = .mulh 3 1 2 ∧
    decode (0b0000001_00010_00001_010_00011_0110011) = .mulhsu 3 1 2 ∧
    decode (0b0000001_00010_00001_011_00011_0110011) = .mulhu 3 1 2 ∧
    decode (0b0000001_00010_00001_100_00011_0110011) = .div 3 1 2 ∧
    decode (0b0000001_00010_00001_101_00011_0110011) = .divu 3 1 2 ∧
    decode (0b0000001_00010_00001_110_00011_0110011) = .rem 3 1 2 ∧
    decode (0b0000001_00010_00001_111_00011_0110011) = .remu 3 1 2 := by decide

/-- funct7 selects with funct3 = 0 (R216 to R218); else csr | rs1 or uimm | funct3 | rd | opcode (R221 to R227). -/
theorem test_decode_system :
    decode (0b0000000_00000_00000_000_00000_1110011) = .ecall ∧
    decode (0b0000001_00000_00000_000_00000_1110011) = .ebreak ∧
    decode (0b0001000_00101_00000_000_00000_1110011) = .wfi ∧
    decode (0b001100000000_00110_001_00101_1110011) = .csrrw 5 0x300 6 ∧
    decode (0b101100000010_00000_010_00101_1110011) = .csrrs 5 0xB02 0 ∧
    decode (0b001100000101_00110_011_00101_1110011) = .csrrc 5 0x305 6 ∧
    decode (0b101100000010_00000_100_00101_1110011) = .csrr4 5 0xB02 ∧
    decode (0b001100000101_00011_101_00101_1110011) = .csrrwi 5 0x305 3 ∧
    decode (0b001100000000_01000_110_00101_1110011) = .csrrsi 5 0x300 8 ∧
    decode (0b101100000010_11111_111_00101_1110011) = .csrrci 5 0xB02 31 := by decide

/-- Table 2.10 and the unassigned selectors of R206, R120, R161 and R219. -/
theorem test_decode_unimp :
    decode 0x00000000 = .unimp 0x00000000 ∧ decode 0xFFFFFFFF = .unimp 0xFFFFFFFF ∧
    decode 0x0FF0000F = .unimp 0x0FF0000F ∧ decode 0x007322AF = .unimp 0x007322AF ∧
    decode 0x00010001 = .unimp 0x00010001 ∧ decode 0x00002463 = .unimp 0x00002463 ∧
    decode 0x00036283 = .unimp 0x00036283 ∧ decode 0x00737023 = .unimp 0x00737023 ∧
    decode 0x2020D1B3 = .unimp 0x2020D1B3 ∧ decode 0x30200073 = .unimp 0x30200073 := by decide

/-- Bits R75 lists as not examined: tables 2.3, 2.4, 2.7 and 2.8. -/
theorem test_decode_ignores_unexamined_bits :
    decode 0x40431293 = .slli 5 6 4 ∧ decode 0x02435293 = .srli 5 6 4 ∧ decode 0xC0435293 = .srai 5 6 4 ∧
    decode 0x402091B3 = .sll 3 1 2 ∧ decode 0xFE20F1B3 = .and 3 1 2 ∧ decode 0x0042D0E7 = .jalr 1 5 4 ∧
    decode 0x000F8FF3 = .ecall ∧ decode 0x03F000F3 = .ebreak ∧ decode 0x10200073 = .wfi := by decide

/-- The bytes of a word lie least significant first (R35, R91: `0x00500093` is the bytes 93 00 50 00). -/
theorem test_decode_bytes :
    decodeBytes [0x93, 0x00, 0x50, 0x00, 0xAA] = .ok (.addi 1 0 5, [0xAA]) ∧
    decodeBytes [0x93, 0x00, 0x50] = .error .truncated ∧
    decodeTableWord 32 0x00500093 = some (.addi 1 0 5) := by decide

/-- The encoder on words of the spec's examples, an unexamined bit written as 0. -/
theorem test_encode :
    encode (.addi 1 0 5) = 0x00500093 ∧ encode (.bne 1 2 0xFFFFFFFC) = 0xFE209EE3 ∧
    encode (.jal 0 0xFFFFFFF8) = 0xFF9FF06F ∧ encode (.sh 6 7 0xFFFFFFFE) = 0xFE731F23 ∧
    encode (.srai 5 6 4) = 0x40435293 ∧ encode .wfi = 0x10000073 := by decide

/-! ## One step, from the tables of 95_test_vectors.md -/

/-- Registers written one after the other into a state. -/
def withRegs (s : State) : List (RegIdx × Word) → State
  | [] => s
  | (r, v) :: rest => withRegs (writeReg s r v) rest

/-- The state of the tables' conventions: the default parameters, the registers and memory given, the instruction at
the pc. -/
def caseState (word : Nat) (pc : Word) (regs : List (RegIdx × Word)) (mem : Memory) : State :=
  State.withFetchWord { withRegs State.reset regs with pc := pc, mem := mem } 32 word

/-- What a table's "after" column shows of one register, the pc and the run state. -/
def shown (o : Host.Outcome State Fault Refusal) (r : RegIdx) : Option (Word × Word × RunState) :=
  match o with
  | .next t => some (readReg t r, t.pc, t.run)
  | .fault _ => none
  | .refused _ => none

/-- The bytes of memory after a step, and stdout. -/
def shownBytes (o : Host.Outcome State Fault Refusal) (a n : Nat) : Option (List Byte × List Byte × Word × RunState) :=
  match o with
  | .next t => some (Memory.bytes t.mem a n, t.stdout, t.pc, t.run)
  | .fault _ => none
  | .refused _ => none

/-- Table 2.1's memory. -/
def loadBytes : Memory :=
  [(0x100, 0x80), (0x101, 0xFF), (0x102, 0x7F), (0x103, 0x01), (0x104, 0xEF), (0x105, 0xCD), (0x106, 0xAB), (0x107, 0x89)]

/-- The state with `ALIGN_CHECK` on. -/
def aligned (s : State) : State := { s with cfg := { s.cfg with alignCheck := true } }

/-! Table 2.1, loads. -/

theorem test_lb : shown (step (caseState 0x00030283 0 [(6, 0x100)] loadBytes)) 5 = some (0xFFFFFF80, 4, .running) := by
  decide

theorem test_lb_past_the_end :
    shown (step (caseState 0x00030283 0 [(6, 0x10000), (5, 0xAAAAAAAA)] loadBytes)) 5 =
      some (0xAAAAAAAA, 0, .halted .invalidMemoryAccess) := by decide

theorem test_lbu : shown (step (caseState 0x00034283 0 [(6, 0x100)] loadBytes)) 5 = some (0x80, 4, .running) := by
  decide

theorem test_lh : shown (step (caseState 0x00231283 0 [(6, 0x100)] loadBytes)) 5 = some (0x17F, 4, .running) := by
  decide

theorem test_lhu : shown (step (caseState 0x00035283 0 [(6, 0x100)] loadBytes)) 5 = some (0xFF80, 4, .running) := by
  decide

theorem test_lw : shown (step (caseState 0xFFC32283 0 [(6, 0x108)] loadBytes)) 5 = some (0x89ABCDEF, 4, .running) := by
  decide

theorem test_lw_misaligned_check_on :
    shown (step (aligned (caseState 0x00132283 0 [(6, 0x100)] loadBytes))) 5 =
      some (0, 0, .halted .misalignedMemoryAccess) := by decide

/-! Table 2.2, stores and the two ports. -/

theorem test_sb :
    shownBytes (step (caseState 0x00730023 0 [(6, 0x200), (7, 0x12345678)] [])) 0x200 4 =
      some ([0x78, 0, 0, 0], [], 4, .running) := by decide

theorem test_sb_uart :
    shownBytes (step (caseState 0x00730023 0 [(6, 0x10000000), (7, 0x12345678)] [])) 0x200 0 =
      some ([], [0x78], 4, .running) := by decide

theorem test_sh :
    shownBytes (step (caseState 0x00731023 0 [(6, 0x200), (7, 0x12345678)] [])) 0x200 4 =
      some ([0x78, 0x56, 0, 0], [], 4, .running) := by decide

theorem test_sh_exit_packet :
    shown (step (caseState 0x00731023 0 [(6, 0x1000), (7, 0x00020007)] [])) 0 =
      some (0, 0, .halted (.guestExit 3 true)) := by decide

theorem test_sw :
    shownBytes (step (caseState 0xFE732E23 0 [(6, 0x204), (7, 0x12345678)] [])) 0x1FF 6 =
      some ([0, 0x78, 0x56, 0x34, 0x12, 0], [], 4, .running) := by decide

theorem test_sw_partly_out_of_bounds :
    shownBytes (step (caseState 0x00732023 0 [(6, 0xFFFD), (7, 0x12345678)] [])) 0xFFFD 3 =
      some ([0, 0, 0], [], 0, .halted .invalidMemoryAccess) := by decide

/-! Table 2.3, integer register-immediate. -/

theorem test_addi : shown (step (caseState 0x7FF30293 0 [(6, 0x7FFFF801)] [])) 5 = some (0x80000000, 4, .running) := by
  decide

theorem test_addi_x0 : shown (step (caseState 0x00130013 0 [(6, 5)] [])) 0 = some (0, 4, .running) := by decide

theorem test_slti : shown (step (caseState 0xFFF32293 0 [(6, 0x80000000)] [])) 5 = some (1, 4, .running) := by decide

theorem test_sltiu : shown (step (caseState 0x80033293 0 [(6, 0x7FFFFFFF)] [])) 5 = some (1, 4, .running) := by decide

theorem test_xori : shown (step (caseState 0x55534293 0 [(6, 0xFFFFFFFF)] [])) 5 = some (0xFFFFFAAA, 4, .running) := by
  decide

theorem test_ori : shown (step (caseState 0x80036293 0 [(6, 0x123)] [])) 5 = some (0xFFFFF923, 4, .running) := by decide

theorem test_andi : shown (step (caseState 0xFF037293 0 [(6, 0x12345678)] [])) 5 = some (0x12345670, 4, .running) := by
  decide

theorem test_slli : shown (step (caseState 0x01F31293 0 [(6, 0x80000001)] [])) 5 = some (0x80000000, 4, .running) := by
  decide

theorem test_srli : shown (step (caseState 0x00135293 0 [(6, 0x80000001)] [])) 5 = some (0x40000000, 4, .running) := by
  decide

theorem test_srai : shown (step (caseState 0x40135293 0 [(6, 0x80000001)] [])) 5 = some (0xC0000000, 4, .running) := by
  decide

/-! Table 2.4, integer register-register. -/

theorem test_add :
    shown (step (caseState 0x002081B3 0 [(1, 0x12345678), (2, 0x9ABCDEF0)] [])) 3 = some (0xACF13568, 4, .running) := by
  decide

theorem test_sub : shown (step (caseState 0x402081B3 0 [(1, 0), (2, 1)] [])) 3 = some (0xFFFFFFFF, 4, .running) := by
  decide

theorem test_sub_source_is_destination :
    shown (step (caseState 0x401080B3 0 [(1, 0x1234)] [])) 1 = some (0, 4, .running) := by decide

theorem test_sll :
    shown (step (caseState 0x002091B3 0 [(1, 0xFFFFFFFF), (2, 0xFFFFFFE4)] [])) 3 = some (0xFFFFFFF0, 4, .running) := by
  decide

theorem test_slt :
    shown (step (caseState 0x0020A1B3 0 [(1, 0x80000000), (2, 0x7FFFFFFF)] [])) 3 = some (1, 4, .running) := by decide

theorem test_sltu :
    shown (step (caseState 0x0020B1B3 0 [(1, 0x80000000), (2, 0x7FFFFFFF), (3, 0xAAAAAAAA)] [])) 3 =
      some (0, 4, .running) := by decide

theorem test_xor :
    shown (step (caseState 0x0020C1B3 0 [(1, 0xFF00FF00), (2, 0x0FF00FF0)] [])) 3 = some (0xF0F0F0F0, 4, .running) := by
  decide

theorem test_srl :
    shown (step (caseState 0x0020D1B3 0 [(1, 0xF0000000), (2, 0x24)] [])) 3 = some (0x0F000000, 4, .running) := by decide

theorem test_sra :
    shown (step (caseState 0x4020D1B3 0 [(1, 0xF0000000), (2, 0x24)] [])) 3 = some (0xFF000000, 4, .running) := by decide

theorem test_or :
    shown (step (caseState 0x0020E1B3 0 [(1, 0xFF00FF00), (2, 0x0FF00FF0)] [])) 3 = some (0xFFF0FFF0, 4, .running) := by
  decide

theorem test_and :
    shown (step (caseState 0x0020F1B3 0 [(1, 0xFF00FF00), (2, 0x0FF00FF0)] [])) 3 = some (0x0F000F00, 4, .running) := by
  decide

/-! Table 2.5, multiply and divide. -/

/-- One row of table 2.5: the instruction's word with `rd = x3`, `rs1 = x1`, `rs2 = x2`. -/
def mulDivCase (word : Nat) (a b : Word) : Option (Word × Word × RunState) :=
  shown (step (caseState word 0 [(1, a), (2, b)] [])) 3

theorem test_mul : mulDivCase 0x022081B3 0x12345678 0x9ABCDEF0 = some (0x242D2080, 4, .running) := by decide

theorem test_mulh : mulDivCase 0x022091B3 0x12345678 0x9ABCDEF0 = some (0xF8CC93D6, 4, .running) := by decide

theorem test_mulhsu : mulDivCase 0x0220A1B3 0xFFFFFFF9 0xFFFFFFFD = some (0xFFFFFFF9, 4, .running) := by decide

theorem test_mulhu : mulDivCase 0x0220B1B3 0xFFFFFFF9 0xFFFFFFFD = some (0xFFFFFFF6, 4, .running) := by decide

theorem test_div : mulDivCase 0x0220C1B3 0xFFFFFFF9 3 = some (0xFFFFFFFE, 4, .running) := by decide

theorem test_div_overflow : mulDivCase 0x0220C1B3 0x80000000 0xFFFFFFFF = some (0x80000000, 4, .running) := by decide

theorem test_divu : mulDivCase 0x0220D1B3 0xFFFFFFF9 3 = some (0x55555553, 4, .running) := by decide

theorem test_divu_by_zero : mulDivCase 0x0220D1B3 1 0 = some (0xFFFFFFFF, 4, .running) := by decide

theorem test_rem : mulDivCase 0x0220E1B3 7 0xFFFFFFFD = some (1, 4, .running) := by decide

theorem test_rem_by_zero : mulDivCase 0x0220E1B3 0x80000000 0 = some (0x80000000, 4, .running) := by decide

theorem test_remu : mulDivCase 0x0220F1B3 0xDEADBEEF 0xCAFE = some (0x9F95, 4, .running) := by decide

/-! Table 2.6, LUI and AUIPC. -/

theorem test_lui : shown (step (caseState 0x123452B7 0 [(5, 0xFFFFFFFF)] [])) 5 = some (0x12345000, 4, .running) := by
  decide

/-- R191's own example of the unmasked pc: program P8's `auipc x6,0` at 0x80000010. -/
theorem test_auipc :
    shown (step (caseState 0x00000317 0x80000010 [] [])) 6 = some (0x80000010, 0x80000014, .running) := by decide

/-! Table 2.7, control transfer, at pc 0x40. -/

/-- A branch of `x1` and `x2` by +16 from 0x40: the pc after it. -/
def branchCase (word : Nat) (a b : Word) : Option Word :=
  (shown (step (caseState word 0x40 [(1, a), (2, b)] [])) 0).map (·.2.1)

theorem test_beq : branchCase 0x00208863 5 5 = some 0x50 ∧ branchCase 0x00208863 1 0xFFFFFFFF = some 0x44 := by decide

theorem test_bne : branchCase 0x00209863 5 5 = some 0x44 ∧ branchCase 0x00209863 1 0xFFFFFFFF = some 0x50 := by decide

theorem test_blt :
    branchCase 0x0020C863 5 5 = some 0x44 ∧ branchCase 0x0020C863 0xFFFFFFFF 1 = some 0x50 := by decide

theorem test_bge :
    branchCase 0x0020D863 5 5 = some 0x50 ∧ branchCase 0x0020D863 0xFFFFFFFF 1 = some 0x44 := by decide

theorem test_bltu :
    branchCase 0x0020E863 5 5 = some 0x44 ∧ branchCase 0x0020E863 1 0xFFFFFFFF = some 0x50 := by decide

theorem test_bgeu :
    branchCase 0x0020F863 5 5 = some 0x50 ∧ branchCase 0x0020F863 1 0xFFFFFFFF = some 0x44 := by decide

/-- A taken branch to 0x42 halts; the same branch not taken makes no check. -/
theorem test_branch_target_misaligned :
    shown (step (caseState 0x00000163 0x40 [] [])) 0 = some (0, 0x40, .halted .misalignedMemoryAccess) ∧
    shown (step (caseState 0x00001163 0x40 [] [])) 0 = some (0, 0x44, .running) := by decide

theorem test_jal : shown (step (caseState 0x800000EF 0x40 [] [])) 1 = some (0x44, 0xFFF00040, .running) := by decide

theorem test_jal_misaligned :
    shown (step (caseState 0x002000EF 0x40 [(1, 0xAAAAAAAA)] [])) 1 =
      some (0xAAAAAAAA, 0x40, .halted .misalignedMemoryAccess) := by decide

/-- `rd = rs1`: the target comes from the old value (D46). -/
theorem test_jalr : shown (step (caseState 0x000282E7 0x40 [(5, 0x100)] [])) 5 = some (0x44, 0x100, .running) := by decide

theorem test_jalr_clears_bit_zero :
    shown (step (caseState 0x005280E7 0x40 [(5, 0x100)] [])) 1 = some (0x44, 0x104, .running) ∧
    shown (step (caseState 0x003280E7 0x40 [(5, 0x100), (1, 0xAAAAAAAA)] [])) 1 =
      some (0xAAAAAAAA, 0x40, .halted .misalignedMemoryAccess) := by decide

/-! Table 2.8, system. -/

theorem test_ecall_exit :
    shown (step (caseState 0x00000073 0x40 [(17, 93), (10, 0x19)] [])) 10 =
      some (0x19, 0x40, .halted (.guestExit 12 true)) := by decide

theorem test_ecall_write :
    shownBytes (step (caseState 0x00000073 0x40 [(17, 64), (10, 0x12345641)] [])) 0 0 =
      some ([], [0x41], 0x44, .running) := by decide

theorem test_ebreak :
    shown (step (caseState 0x03F000F3 0x40 [] [])) 1 = some (0, 0x40, .halted .ebreak) := by decide

theorem test_wfi : shown (step (caseState 0x10500073 0x44 [] [])) 0 = some (0, 0x44, .halted .wfi) := by decide

theorem test_unimp :
    shown (step (caseState 0x30200073 0x44 [] [])) 0 = some (0, 0x44, .halted .unimplementedOpcode) := by decide

/-! Table 2.9, CSR reads: `instret` is the counter before the step, `x5 = 0xAAAAAAAA` and `x6 = 0xFFFFFFFF`. -/

/-- One row of table 2.9. -/
def csrCase (word : Nat) (instret : BitVec 64) : Option (Word × Word × RunState) :=
  shown (step { caseState word 0x40 [(5, 0xAAAAAAAA), (6, 0xFFFFFFFF)] [] with instret := instret }) 5

theorem test_csrrs :
    csrCase 0xB02022F3 41 = some (0x2A, 0x44, .running) ∧ csrCase 0xB82022F3 0xFFFFFFFF = some (1, 0x44, .running) := by
  decide

theorem test_csrrw : csrCase 0xB02312F3 9 = some (0xA, 0x44, .running) := by decide

theorem test_csrrc : csrCase 0x305332F3 0 = some (0, 0x44, .running) := by decide

theorem test_csrr4 : csrCase 0xB02042F3 9 = some (0xA, 0x44, .running) := by decide

theorem test_csrrwi : csrCase 0x3051D2F3 0 = some (0, 0x44, .running) := by decide

theorem test_csrrsi : csrCase 0x300462F3 0 = some (0, 0x44, .running) := by decide

theorem test_csrrci : csrCase 0xB02FF2F3 9 = some (0xA, 0x44, .running) := by decide

/-- A clock read takes a draw and writes half of its answer, whatever that answer is. -/
theorem test_csr_mcycle (n : Nat) :
    csrRead { State.reset with draws := n } 0xB00 = (Config.now n).extractLsb' 0 32 ∧
    (afterCsrRead State.reset 0xB00).draws = 1 := ⟨rfl, rfl⟩

/-! Table 2.11, the magic syscall: `sw x7,0(x6)` with `x6 = 0x1000`, the descriptor at 0x200. -/

/-- A descriptor [number, 1, pointer, length] at 0x200, small entries. -/
def descriptor (number pointerHigh length : Byte) : Memory :=
  [(0x200, number), (0x208, 1), (0x211, pointerHigh), (0x218, length)]

/-- "Hello" at 0x300. -/
def helloBytes : Memory := [(0x300, 0x48), (0x301, 0x65), (0x302, 0x6C), (0x303, 0x6C), (0x304, 0x6F)]

theorem test_magic_write :
    shownBytes (step (caseState 0x00732023 0 [(6, 0x1000), (7, 0x200)] (descriptor 64 3 5 ++ helloBytes))) 0x1040 4 =
      some ([1, 0, 0, 0], [0x48, 0x65, 0x6C, 0x6C, 0x6F], 4, .running) := by decide

theorem test_magic_other_number :
    shownBytes (step (caseState 0x00732023 0 [(6, 0x1000), (7, 0x200)] (descriptor 63 3 5 ++ helloBytes))) 0x1040 4 =
      some ([0, 0, 0, 0], [], 0, .halted .unimplementedMagicSyscall) := by decide

/-- The acknowledge is out of bounds: the output is not undone (R280). -/
theorem test_magic_acknowledge_out_of_bounds :
    shownBytes (step { caseState 0x00732023 0 [(6, 0x1000), (7, 0x200)] (descriptor 64 3 2 ++ helloBytes) with
      cfg := { defaultConfig with capacity := 0x1000 } }) 0x200 1 =
      some ([64], [0x48, 0x65], 0, .halted .invalidMemoryAccess) := by decide

/-! Table 2.12, run entry. -/

theorem test_launch_image_too_long :
    launch { defaultConfig with capacity := 4 } none [1, 2, 3, 4, 5] =
      .next (halt { State.reset with cfg := { defaultConfig with capacity := 4 } } .outOfMem) := by
  rfl

theorem test_launch_refused :
    launch { defaultConfig with capacity := 3 } none [] = .refused .launchPrecondition ∧
    launch { defaultConfig with tohostAddr := 0x1042 } none [] = .refused .launchPrecondition := ⟨rfl, rfl⟩

/-- Running off the memory: capacity 4, one `addi x1,x0,1`. -/
theorem test_run_off_the_memory :
    run 2 { defaultConfig with capacity := 4 } none [0x93, 0x00, 0x10, 0x00] =
      some { regs := [0, 1] ++ List.replicate 30 0, pc := 4, status := .invalidMemoryAccess } := by decide

theorem test_withFetchWord_runs_from_reset :
    shown (step (State.reset.withFetchWord 32 0x00500093)) 1 = some (5, 4, .running) := by decide

/-! ## Witnesses: for each statement with hypotheses, a case that meets them -/

theorem witness_DecodeOfEncodeIsIdentity :
    Instr.wellFormed (.beq 31 1 0xFFFFF000) = true ∧ Instr.wellFormed (.jal 1 0x000FFFFE) = true ∧
    Instr.wellFormed (.sw 1 2 0xFFFFF800) = true ∧ Instr.wellFormed (.lui 1 0xFFFFF000) = true ∧
    Instr.wellFormed (.unimp 0xFFFFFFFF) = true := by decide

/-- One pair of different words for each clause: JALR, SLLI, SRLI, AND, WFI, CSRR4. -/
theorem witness_UnexaminedBitsDoNotSelect :
    (opcodeOf 0x004280E7 = 0x67#7 ∧ (0x0042D0E7#32 : Word) &&& 0xFFFF8FFF = 0x004280E7 &&& 0xFFFF8FFF) ∧
    (opcodeOf 0x00431293 = 0x13#7 ∧ funct3Of 0x00431293 = 1#3 ∧
      (0xFE431293#32 : Word) &&& 0x01FFFFFF = 0x00431293 &&& 0x01FFFFFF) ∧
    (opcodeOf 0x00435293 = 0x13#7 ∧ funct3Of 0x00435293 = 5#3 ∧
      (0xBE435293#32 : Word) &&& 0x41FFFFFF = 0x00435293 &&& 0x41FFFFFF) ∧
    (opcodeOf 0x0020F1B3 = 0x33#7 ∧ funct3Of 0x0020F1B3 ≠ 0#3 ∧ funct3Of 0x0020F1B3 ≠ 5#3 ∧
      funct7Of 0x0020F1B3 ≠ 1#7 ∧ funct7Of 0xFE20F1B3 ≠ 1#7 ∧
      (0xFE20F1B3#32 : Word) &&& 0x01FFFFFF = 0x0020F1B3 &&& 0x01FFFFFF) ∧
    (opcodeOf 0x10500073 = 0x73#7 ∧ funct3Of 0x10500073 = 0#3 ∧ funct7Of 0x10500073 = 8#7 ∧
      (0x10200073#32 : Word) &&& 0xFE00707F = 0x10500073 &&& 0xFE00707F) ∧
    (opcodeOf 0xB02042F3 = 0x73#7 ∧ funct3Of 0xB02042F3 = 4#3 ∧
      (0xB02FC2F3#32 : Word) &&& 0xFFF07FFF = 0xB02042F3 &&& 0xFFF07FFF) := by decide

/-- At pc 0, and at the last four bytes of memory. -/
theorem witness_StepRunsDecodedInstruction :
    (∃ s : State, s = caseState 0x00500093 0 [] [] ∧ s.run = .running ∧ offsetOf s.pc + 4 ≤ s.cfg.capacity ∧
      decodeBytes (Memory.bytes s.mem (offsetOf s.pc) 4) = .ok (.addi 1 0 5, [])) ∧
    (∃ s : State, s = caseState 0x0FF0000F 0x8000FFFC [] [] ∧ s.run = .running ∧
      offsetOf s.pc + 4 ≤ s.cfg.capacity ∧
      decodeBytes (Memory.bytes s.mem (offsetOf s.pc) 4) = .ok (.unimp 0x0FF0000F, [])) := by
  exact ⟨⟨_, rfl, by decide⟩, _, rfl, by decide⟩

theorem witness_FetchOutOfBoundsHalts :
    ∃ s : State, s = { State.reset with pc := 0xFFFD } ∧ s.run = .running ∧ s.cfg.capacity < offsetOf s.pc + 4 :=
  ⟨_, rfl, by decide⟩

theorem witness_HaltedRunTakesNoStep : (halt State.reset .ebreak).run = .halted .ebreak := rfl

/-- Also at the wrap of the counter. -/
theorem witness_InstretCountsEveryStep :
    (∃ t, step State.reset = .next t) ∧
    ∃ t, step { State.reset with instret := 0xFFFFFFFFFFFFFFFF } = .next t ∧ t.instret = 0 :=
  ⟨⟨_, rfl⟩, _, rfl, by decide⟩

theorem witness_RunningAlwaysHasNextStep : State.reset.run = .running := rfl

theorem witness_StepKeepsInvariant :
    State.reset.Inv ∧ (∃ t, step State.reset = .next t) ∧
    (caseState 0x00732023 0 [(6, 0x200), (7, 0x12345678)] []).Inv := ⟨by decide, ⟨_, rfl⟩, by decide⟩

/-- A launch with registers, and one of a program that is too long. -/
theorem witness_LaunchMeetsInvariant :
    (∃ s, launch defaultConfig (some (State.reset.regs.set 5 0x1234)) [0x93, 0x82, 0x12, 0x00] = .next s) ∧
    ∃ s, launch { defaultConfig with capacity := 1 } none [0x93, 0x82] = .next s := ⟨⟨_, rfl⟩, _, rfl⟩

/-- A halt with no output, and one with output: the acknowledge out of bounds. -/
theorem witness_HaltIsPrecise :
    (∃ t, step State.reset = .next t ∧ t.run = .halted .unimplementedOpcode) ∧
    ∃ t, step { caseState 0x00732023 0 [(6, 0x1000), (7, 0x200)] (descriptor 64 3 2 ++ helloBytes) with
      cfg := { defaultConfig with capacity := 0x1000 } } = .next t ∧ t.run = .halted .invalidMemoryAccess ∧
      t.stdout = [0x48, 0x65] := ⟨⟨_, rfl, by decide⟩, _, rfl, by decide, by decide⟩

/-- Every status that an instruction can raise is raised: no clause is empty but the one that says so. -/
theorem witness_EachStatusHasItsCause :
    (∃ t, exec (.lw 5 0 0xFFFFFFFF) State.reset = .next t ∧ t.run = .halted .invalidMemoryAccess) ∧
    (∃ t, exec (.jal 1 2) State.reset = .next t ∧ t.run = .halted .misalignedMemoryAccess) ∧
    (∃ t, exec (.sh 0 7 1) (aligned State.reset) = .next t ∧ t.run = .halted .misalignedMemoryAccess) ∧
    (∃ t, exec (.unimp 0) State.reset = .next t ∧ t.run = .halted .unimplementedOpcode) ∧
    (∃ t, exec (.sw 6 0 0) (withRegs State.reset [(6, 0x1000)]) = .next t ∧ t.run = .halted .unimplementedMagicSyscall) ∧
    (∃ t, exec .ebreak State.reset = .next t ∧ t.run = .halted .ebreak) ∧
    (∃ t, exec .wfi State.reset = .next t ∧ t.run = .halted .wfi) ∧
    (∃ t, exec .ecall (withRegs State.reset [(17, 93)]) = .next t ∧ t.run = .halted (.guestExit 0 false)) ∧
    (∃ t, exec (.sb 6 7 0) (withRegs State.reset [(6, 0x1000), (7, 3)]) = .next t ∧
      t.run = .halted (.guestExit 1 true)) := by
  exact ⟨⟨_, rfl, by decide⟩, ⟨_, rfl, by decide⟩, ⟨_, rfl, by decide⟩, ⟨_, rfl, by decide⟩, ⟨_, rfl, by decide⟩,
    ⟨_, rfl, by decide⟩, ⟨_, rfl, by decide⟩, ⟨_, rfl, by decide⟩, ⟨_, rfl, by decide⟩⟩

theorem witness_StdoutOnlyGrows :
    (∃ t, exec (.addi 1 0 5) State.reset = .next t) ∧ mayEmit (.addi 1 0 5) = false := ⟨⟨_, rfl⟩, by decide⟩

theorem witness_OnlyControlTransfersJump :
    (∃ t, exec (.addi 1 0 5) State.reset = .next t ∧ t.run = .running ∧ isControlTransfer (.addi 1 0 5) = false) ∧
    (∃ t, exec (.jal 1 8) State.reset = .next t ∧ t.run = .running ∧ isControlTransfer (.jal 1 8) = true ∧
      State.reset.pc.toNat % 4 = 0) := ⟨⟨_, rfl, by decide⟩, _, rfl, by decide⟩

theorem witness_CounterAndParametersAreNotWritten : ∃ t, exec (.csrrw 5 0xB02 6) State.reset = .next t := ⟨_, rfl⟩

theorem witness_RegistersUnchangedExceptDestination :
    (∃ t, exec (.lui 31 0x1000) State.reset = .next t) ∧ mayWriteReg (.lui 31 0x1000) State.reset 30 = false ∧
    mayWriteReg .ecall State.reset 10 = false := ⟨⟨_, rfl⟩, by decide, by decide⟩

/-- The bytes just below and just above a stored word. -/
theorem witness_MemoryUnchangedOutsideStores :
    (∃ t, exec (.sw 0 7 0x200) State.reset = .next t) ∧ storesTo (.sw 0 7 0x200) State.reset 0x1FF = false ∧
    storesTo (.sw 0 7 0x200) State.reset 0x203 = true ∧ storesTo (.sw 0 7 0x200) State.reset 0x204 = false :=
  ⟨⟨_, rfl⟩, by decide, by decide, by decide⟩

theorem witness_HostAnswersReachOnlyHostReads :
    asksHost (.csrrs 5 0xB02 0) State.reset = false ∧ (∃ t, exec (.csrrs 5 0xB02 0) State.reset = .next t) ∧
    asksHost .ecall State.reset = false := ⟨by decide, ⟨_, rfl⟩, by decide⟩

theorem witness_RegisterReadAfterWrite : (31#5 : RegIdx) ≠ 0#5 ∧ (30#5 : RegIdx) ≠ 31#5 := by decide

/-- Shift amounts 0 (register 32), and 31. -/
theorem witness_ShiftRegisterComplete :
    0 = (readReg (withRegs State.reset [(2, 32)]) 2).toNat % 32 ∧
    31 = (readReg (withRegs State.reset [(2, 0xFFFFFFFF)]) 2).toNat % 32 := by decide

/-- The three cases of division, each for one state. -/
theorem witness_DivisionSpecialCases :
    readReg State.reset 2 = 0#32 ∧
    (readReg (withRegs State.reset [(1, 0x80000000), (2, 0xFFFFFFFF)]) 1).toInt = -2 ^ 31 ∧
    (readReg (withRegs State.reset [(1, 0x80000000), (2, 0xFFFFFFFF)]) 2).toInt = -1 := by decide

theorem witness_SignedDivisionLaw :
    readReg (withRegs State.reset [(1, 0x80000000), (2, 1)]) 2 ≠ 0#32 ∧
    ¬((readReg (withRegs State.reset [(1, 0x80000000), (2, 1)]) 1).toInt = -2 ^ 31 ∧
      (readReg (withRegs State.reset [(1, 0x80000000), (2, 1)]) 2).toInt = -1) := by decide

theorem witness_UnsignedDivisionLaw : readReg (withRegs State.reset [(2, 0xFFFFFFFF)]) 2 ≠ 0#32 := by decide

/-- The last byte inside, the first outside, a word across the end, and a misaligned word. -/
theorem witness_DataAccessChecks :
    State.reset.cfg.capacity < (0x10000#32 : Word).toNat % 2 ^ 31 + Width.byte.bytes ∧
    (0x8000FFFF#32 : Word).toNat % 2 ^ 31 + Width.byte.bytes ≤ State.reset.cfg.capacity ∧
    State.reset.cfg.capacity < (0xFFFD#32 : Word).toNat % 2 ^ 31 + Width.word.bytes ∧
    (State.reset.cfg.alignCheck = false ∨ (0xFFFF#32 : Word).toNat % Width.byte.bytes = 0) ∧
    ((aligned State.reset).cfg.alignCheck = true ∧ (0x102#32 : Word).toNat % Width.word.bytes ≠ 0 ∧
      (0x102#32 : Word).toNat % 2 ^ 31 + Width.word.bytes ≤ (aligned State.reset).cfg.capacity) := by decide

theorem witness_MemoryRoundTrip :
    (∃ t, memWrite State.reset 0xFFFC .word 0x12345678 = .ok t) ∧
    NotIntercepted State.reset (baseAddress State.reset 0 0x200) ∧ State.reset.run = .running ∧
    (∃ t, exec (.sb 0 7 0x200) State.reset = .next t ∧ t.run = .running) ∧
    (∃ t, exec (.sh 0 7 0x200) State.reset = .next t ∧ t.run = .running) ∧
    (∃ t, exec (.sw 0 7 0x200) State.reset = .next t ∧ t.run = .running) := by
  exact ⟨⟨_, rfl⟩, ⟨by decide, by decide⟩, rfl, ⟨_, rfl, by decide⟩, ⟨_, rfl, by decide⟩, ⟨_, rfl, by decide⟩⟩

theorem witness_StoreIsSeenByFetch :
    NotIntercepted State.reset (baseAddress State.reset 0 0x200) ∧
    AccessAllowed State.reset (baseAddress State.reset 0 0x200) .word ∧
    ∃ t, exec (.sw 0 7 0x200) State.reset = .next t := ⟨⟨by decide, by decide⟩, ⟨by decide, by decide⟩, _, rfl⟩

/-- A byte, a half and a word that end with the last byte of memory, the two wider ones under `ALIGN_CHECK`. -/
theorem witness_LoadsComplete :
    AccessAllowed State.reset (readReg (withRegs State.reset [(6, 0x10000)]) 6 + 0xFFFFFFFF#32) .byte ∧
    AccessAllowed (aligned State.reset) (readReg (withRegs State.reset [(6, 0x10000)]) 6 + 0xFFFFFFFE#32) .half ∧
    AccessAllowed (aligned State.reset) (readReg (withRegs State.reset [(6, 0x10000)]) 6 + 0xFFFFFFFC#32) .word :=
  ⟨⟨by decide, by decide⟩, ⟨by decide, by decide⟩, ⟨by decide, by decide⟩⟩

theorem witness_LoadsHaltWhereNotAllowed :
    loadOperands (.lw 0 6 0xFFFFFFFD) = some (.word, 6, 0xFFFFFFFD) ∧
    State.reset.cfg.capacity < offsetOf (readReg (withRegs State.reset [(6, 0x10000)]) 6 + 0xFFFFFFFD#32) + Width.word.bytes ∧
    (offsetOf (readReg (aligned State.reset) 6 + 2#32) + Width.word.bytes ≤ (aligned State.reset).cfg.capacity ∧
      (aligned State.reset).cfg.alignCheck = true ∧ offsetOf (readReg (aligned State.reset) 6 + 2#32) % Width.word.bytes ≠ 0) := by
  decide

/-- Not intercepted: also the byte after the `tohost` port (R43), and `FROMHOST_ADDR` (R254). -/
theorem witness_StoresComplete :
    NotIntercepted State.reset (readReg State.reset 0 + 0x1001#32) ∧
    AccessAllowed State.reset (readReg State.reset 0 + 0x1001#32) .byte ∧
    AccessAllowed State.reset (readReg State.reset 0 + 0x1001#32) .half ∧
    NotIntercepted State.reset (readReg State.reset 0 + 0x1040#32) ∧
    AccessAllowed (aligned State.reset) (readReg State.reset 0 + 0x1040#32) .word :=
  ⟨⟨by decide, by decide⟩, ⟨by decide, by decide⟩, ⟨by decide, by decide⟩, ⟨by decide, by decide⟩, ⟨by decide, by decide⟩⟩

theorem witness_StoresHaltWhereNotAllowed :
    storeOperands (.sw 6 7 0xFFFFFFFD) = some (.word, 6, 7, 0xFFFFFFFD) ∧
    NotIntercepted State.reset (readReg (withRegs State.reset [(6, 0x10000)]) 6 + 0xFFFFFFFD#32) ∧
    State.reset.cfg.capacity < offsetOf (readReg (withRegs State.reset [(6, 0x10000)]) 6 + 0xFFFFFFFD#32) + Width.word.bytes ∧
    NotIntercepted (aligned State.reset) (readReg (aligned State.reset) 6 + 1#32) ∧
    (offsetOf (readReg (aligned State.reset) 6 + 1#32) + Width.half.bytes ≤ (aligned State.reset).cfg.capacity ∧
      (aligned State.reset).cfg.alignCheck = true ∧ offsetOf (readReg (aligned State.reset) 6 + 1#32) % Width.half.bytes ≠ 0) :=
  ⟨by decide, ⟨by decide, by decide⟩, by decide, ⟨by decide, by decide⟩, by decide⟩

/-- The port itself and its alias with bit 31 set. -/
theorem witness_StoresToUartEmit :
    (readReg (withRegs State.reset [(6, 0x10000000)]) 6 + 0#32) &&& 0x7FFFFFFF#32 = State.reset.cfg.uartAddr ∧
    (readReg (withRegs State.reset [(6, 0x90000004)]) 6 + 0xFFFFFFFC#32) &&& 0x7FFFFFFF#32 = State.reset.cfg.uartAddr := by
  decide

theorem witness_OddTohostStoreExits :
    storeOperands (.sh 6 7 0) = some (.half, 6, 7, 0) ∧
    (readReg (withRegs State.reset [(6, 0x1000)]) 6 + 0#32) &&& 0x7FFFFFFF#32 ≠ State.reset.cfg.uartAddr ∧
    (readReg (withRegs State.reset [(6, 0x1000)]) 6 + 0#32) &&& 0x7FFFFFFF#32 = State.reset.cfg.tohostAddr ∧
    (readReg (withRegs State.reset [(7, 0x00020007)]) 7).toNat % 2 = 1 := by decide

/-- A state in which `sw x7, 0(x6)` stores the packet to `TOHOST_ADDR`, with the memory given (table 2.11). -/
def magicState (packet : Word) (m : Memory) : State := { withRegs State.reset [(6, 0x1000), (7, packet)] with mem := m }

/-- What the two statements about magic syscalls ask of the store and of the packet `p`, for `sw x7, 0(x6)`. -/
abbrev magicPacket (s : State) (p : Word) : Prop :=
  storeOperands (.sw 6 7 0) = some (.word, 6, 7, 0) ∧
  (readReg s 6 + 0#32) &&& 0x7FFFFFFF#32 ≠ s.cfg.uartAddr ∧
  (readReg s 6 + 0#32) &&& 0x7FFFFFFF#32 = s.cfg.tohostAddr ∧
  p.toNat = (readReg s 7).toNat % 2 ^ (8 * Width.word.bytes) ∧ p.toNat % 2 = 0

/-- The three descriptor entries as `memRead` answers them. -/
abbrev magicReads (s : State) (p ptr len : Word) : Prop :=
  memRead s p .word = .ok 64#32 ∧ memRead s (p + 16#32) .word = .ok ptr ∧ memRead s (p + 24#32) .word = .ok len

/-- Length 5 inside memory; the largest range that ends with the last byte, the acknowledge the last four bytes of
memory; and a `FROMHOST_ADDR` that is no multiple of 4 under `ALIGN_CHECK`. -/
theorem witness_MagicWriteCompletes :
    (∃ s, s = magicState 0x200 (descriptor 64 3 5 ++ helloBytes) ∧ magicPacket s 0x200 ∧ magicReads s 0x200 0x300 5 ∧
      offsetOf 0x300 + (5#32 : Word).toNat ≤ s.cfg.capacity ∧ offsetOf s.cfg.fromhostAddr + 4 ≤ s.cfg.capacity) ∧
    (∃ s, s = { magicState 0x200 [(0x200, 64), (0x210, 0xFD), (0x211, 0xFF), (0x218, 3)] with
        cfg := { defaultConfig with fromhostAddr := 0xFFFC } } ∧ magicPacket s 0x200 ∧ magicReads s 0x200 0xFFFD 3 ∧
      offsetOf 0xFFFD + (3#32 : Word).toNat ≤ s.cfg.capacity ∧ offsetOf s.cfg.fromhostAddr + 4 ≤ s.cfg.capacity) ∧
    (∃ s, s = { magicState 0x200 (descriptor 64 3 5 ++ helloBytes) with
        cfg := { defaultConfig with alignCheck := true, fromhostAddr := 0x1041 } } ∧
      magicPacket s 0x200 ∧ magicReads s 0x200 0x300 5 ∧ offsetOf 0x300 + (5#32 : Word).toNat ≤ s.cfg.capacity ∧
      offsetOf s.cfg.fromhostAddr + 4 ≤ s.cfg.capacity) :=
  ⟨⟨_, rfl, by decide, by decide, by decide, by decide⟩, ⟨_, rfl, by decide, by decide, by decide, by decide⟩,
    _, rfl, by decide, by decide, by decide, by decide⟩

/-- One state for each halt, table 2.11's rows, each meeting every premise of its clause: the number, the pointer and
the length across the end of memory, another number, a range one byte too long, and an acknowledge past the end of a
memory of 0x1000 bytes. -/
theorem witness_MagicSyscallHalts :
    (∃ s, s = magicState 0xFFFE [] ∧ magicPacket s 0xFFFE ∧ memRead s 0xFFFE .word = .error .invalidMemoryAccess) ∧
    (∃ s, s = magicState 0x200 [] ∧ magicPacket s 0x200 ∧ memRead s 0x200 .word = .ok 0 ∧ (0#32 : Word) ≠ 64#32) ∧
    (∃ s, s = magicState 0xFFF0 [(0xFFF0, 64)] ∧ magicPacket s 0xFFF0 ∧ memRead s 0xFFF0 .word = .ok 64#32 ∧
      memRead s (0xFFF0#32 + 16#32) .word = .error .invalidMemoryAccess) ∧
    (∃ s, s = magicState 0xFFE8 [(0xFFE8, 64)] ∧ magicPacket s 0xFFE8 ∧ memRead s 0xFFE8 .word = .ok 64#32 ∧
      memRead s (0xFFE8#32 + 16#32) .word = .ok 0 ∧ memRead s (0xFFE8#32 + 24#32) .word = .error .invalidMemoryAccess) ∧
    (∃ s, s = magicState 0x200 [(0x200, 64), (0x210, 0xFE), (0x211, 0xFF), (0x218, 3)] ∧ magicPacket s 0x200 ∧
      magicReads s 0x200 0xFFFE 3 ∧ s.cfg.capacity < offsetOf 0xFFFE + (3#32 : Word).toNat) ∧
    (∃ s, s = { magicState 0x200 (descriptor 64 3 2) with cfg := { defaultConfig with capacity := 0x1000 } } ∧
      magicPacket s 0x200 ∧ magicReads s 0x200 0x300 2 ∧ offsetOf 0x300 + (2#32 : Word).toNat ≤ s.cfg.capacity ∧
      s.cfg.capacity < offsetOf s.cfg.fromhostAddr + 4) :=
  ⟨⟨_, rfl, by decide, by decide⟩, ⟨_, rfl, by decide, by decide, by decide⟩, ⟨_, rfl, by decide, by decide, by decide⟩,
    ⟨_, rfl, by decide, by decide, by decide, by decide⟩, ⟨_, rfl, by decide, by decide, by decide⟩,
    _, rfl, by decide, by decide, by decide, by decide⟩

/-- For each condition a state in which it holds and one in which it does not, and an aligned target. -/
theorem witness_BranchesComplete :
    readReg State.reset 1 = readReg State.reset 2 ∧
    readReg (withRegs State.reset [(2, 1)]) 1 ≠ readReg (withRegs State.reset [(2, 1)]) 2 ∧
    (readReg (withRegs State.reset [(1, 0x80000000)]) 1).toInt < (readReg (withRegs State.reset [(1, 0x80000000)]) 2).toInt ∧
    ¬(readReg State.reset 1).toInt < (readReg State.reset 2).toInt ∧
    (readReg (withRegs State.reset [(2, 1)]) 1).toNat < (readReg (withRegs State.reset [(2, 1)]) 2).toNat ∧
    ¬(readReg State.reset 1).toNat < (readReg State.reset 2).toNat ∧
    (State.reset.pc + 0xFFFFFFFC#32).toNat % 4 = 0 := by decide

theorem witness_JumpsLinkAndJump :
    ((0xFFFFFFF8#32 : Word).toNat = (State.reset.pc.toNat + (0xFFFFFFF8#32 : Word).toNat) % 2 ^ 32 ∧
      (0xFFFFFFF8#32 : Word).toNat % 4 = 0) ∧
    ((0x104#32 : Word).toNat =
        ((readReg (withRegs State.reset [(5, 0x100)]) 5).toNat + (5#32 : Word).toNat) % 2 ^ 32 / 2 * 2 ∧
      (0x104#32 : Word).toNat % 4 = 0) := by decide

/-- A taken branch and a JAL to 2; a JALR to 3, which becomes 2. -/
theorem witness_MisalignedTargetsHalt :
    readReg State.reset 1 = readReg State.reset 2 ∧ (State.reset.pc + 2#32).toNat % 4 ≠ 0 ∧
    (readReg State.reset 5 + 3#32).toNat % 4 / 2 = 1 ∧
    readReg (withRegs State.reset [(2, 1)]) 1 ≠ readReg (withRegs State.reset [(2, 1)]) 2 ∧
    (readReg (withRegs State.reset [(1, 0x80000000)]) 1).toInt < (readReg (withRegs State.reset [(1, 0x80000000)]) 2).toInt ∧
    (readReg (withRegs State.reset [(2, 1)]) 1).toNat < (readReg (withRegs State.reset [(2, 1)]) 2).toNat := by decide

theorem witness_EcallExitAndWrite :
    readReg (withRegs State.reset [(17, 93)]) 17 = 93#32 ∧ readReg (withRegs State.reset [(17, 64)]) 17 = 64#32 := by
  decide

theorem witness_EcallWithoutBridgeIsIgnored :
    State.reset.cfg.bridgePresent = false ∧ readReg State.reset 17 ≠ 93#32 ∧ readReg State.reset 17 ≠ 64#32 := by decide

theorem witness_EcallForwardsToBridge :
    ∃ s : State, s = { State.reset with cfg := { defaultConfig with bridgePresent := true } } ∧
      s.cfg.bridgePresent = true ∧ readReg s 17 ≠ 93#32 ∧ readReg s 17 ≠ 64#32 := ⟨_, rfl, by decide⟩

/-- `minstret`, `minstreth` and an address nobody recognises, at a counter that fills both halves. -/
theorem witness_CsrReadsComplete :
    (0xB02#12 ≠ 0xB00#12 ∧ 0xB02#12 ≠ 0xB80#12 ∧ (0x55667788#32 : Word).toNat = (0x1122334455667788#64 : BitVec 64).toNat % 2 ^ 32) ∧
    (0xB82#12 ≠ 0xB00#12 ∧ 0xB82#12 ≠ 0xB80#12 ∧ (0x11223344#32 : Word).toNat = (0x1122334455667788#64 : BitVec 64).toNat / 2 ^ 32) ∧
    (0xC00#12 ≠ 0xB00#12 ∧ 0xC00#12 ≠ 0xB80#12 ∧ (0#32 : Word).toNat = 0) := by decide

/-- For each half of the answer there is a word that is it. -/
theorem witness_CsrClockReadsTakeAnAnswer :
    (∃ v : Word, v.toNat = (Config.now State.reset.draws).toNat % 2 ^ 32) ∧
    (∃ v : Word, v.toNat = (Config.now State.reset.draws).toNat / 2 ^ 32) := by
  refine ⟨⟨(Config.now State.reset.draws).setWidth 32, by simp⟩,
    ⟨BitVec.ofNat 32 ((Config.now State.reset.draws).toNat / 2 ^ 32), ?_⟩⟩
  have := (Config.now State.reset.draws).isLt
  rw [BitVec.toNat_ofNat]; omega

/-- The default addresses and a capacity of `2 ^ k` bytes meet R305, with no registers given. -/
theorem launchAllowed_default {k : Nat} (h : k ≤ 31) : LaunchAllowed { defaultConfig with capacity := 2 ^ k } none :=
  ⟨⟨⟨k, rfl⟩, Nat.pow_le_pow_right (by decide) h⟩, (by decide : AddressesAllowed defaultConfig), by simp⟩

/-- The smallest and the largest capacity; ports that touch the acknowledge word on either side, with registers given;
and a program that fills memory exactly. -/
theorem witness_LaunchStartsAtZero :
    LaunchAllowed { defaultConfig with capacity := 1 } none ∧
    LaunchAllowed { defaultConfig with capacity := 0x80000000 } none ∧
    LaunchAllowed { defaultConfig with uartAddr := 0x7FFFFFFF, tohostAddr := 0x7FFFFFFA, fromhostAddr := 0x7FFFFFFB }
      (some (State.reset.regs.set 5 0x1234)) ∧
    (LaunchAllowed { defaultConfig with capacity := 4 } none ∧
      [(0x93 : Byte), 0x82, 0x12, 0x00].length ≤ ({ defaultConfig with capacity := 4 } : Config).capacity) :=
  ⟨launchAllowed_default (k := 0) (by decide), launchAllowed_default (k := 31) (by decide),
    ⟨⟨⟨16, rfl⟩, by decide⟩, by decide, fun _ h => by cases h; decide⟩,
    launchAllowed_default (k := 2) (by decide), by decide⟩

theorem witness_LaunchSetsRegistersAndCounter :
    (∃ s, launch defaultConfig none [0x93] = .next s) ∧
    ∃ s, launch defaultConfig (some (State.reset.regs.set 5 0x1234)) [] = .next s := ⟨⟨_, rfl⟩, _, rfl⟩

/-- A program that fills memory and one too long by a byte; and for each condition of R305 a launch that breaks it: a
capacity that is no power of two, one of 2^32, an address of 2^31, two ports at one address, a port at the
acknowledge's first byte and at its last, a register 0 that is not zero. -/
theorem witness_LaunchTurnsAway :
    (LaunchAllowed { defaultConfig with capacity := 4 } none ∧
      [(1 : Byte), 2, 3, 4].length ≤ ({ defaultConfig with capacity := 4 } : Config).capacity ∧
      ({ defaultConfig with capacity := 4 } : Config).capacity < [(1 : Byte), 2, 3, 4, 5].length) ∧
    ¬LaunchAllowed { defaultConfig with capacity := 3 } none ∧
    ¬LaunchAllowed { defaultConfig with capacity := 0x100000000 } none ∧
    ¬LaunchAllowed { defaultConfig with uartAddr := 0x80000000 } none ∧
    ¬LaunchAllowed { defaultConfig with tohostAddr := 0x10000000 } none ∧
    ¬LaunchAllowed { defaultConfig with uartAddr := 0x1040 } none ∧
    ¬LaunchAllowed { defaultConfig with tohostAddr := 0x1043 } none ∧
    ¬LaunchAllowed defaultConfig (some (State.reset.regs.set 0 1)) := by
  refine ⟨⟨launchAllowed_default (k := 2) (by decide), by decide, by decide⟩, ?_, ?_, ?_, ?_, ?_, ?_, ?_⟩
  · rintro ⟨⟨⟨k, h⟩, -⟩, -⟩
    match k with
    | 0 | 1 => exact absurd h (by decide)
    | k + 2 => have e : 3 = 2 ^ k * 2 * 2 := h.trans (by rw [Nat.pow_succ, Nat.pow_succ]); omega
  · rintro ⟨⟨-, h⟩, -⟩; exact absurd h (by decide)
  · rintro ⟨-, h, -⟩; exact absurd h (by decide)
  · rintro ⟨-, h, -⟩; exact absurd h (by decide)
  · rintro ⟨-, h, -⟩; exact absurd h (by decide)
  · rintro ⟨-, h, -⟩; exact absurd h (by decide)
  · rintro ⟨-, -, h⟩; exact absurd (h _ rfl) (by decide)

end Sys2Proof.Machine
end

section
/-! Run entry (R300 to R305): what `launch` answers in each case, and the registers it starts with. -/

namespace Sys2Proof.Machine

/-! ## What a launch answers -/

theorem launch_of_fits {cfg : Config} {initial : Option (Vector Word 32)} {program : List Byte}
    (h : LaunchAllowed cfg initial) (hfit : program.length ≤ cfg.capacity) :
    launch cfg initial program = .next (bootState cfg initial (Memory.image 0 program)) := by
  rw [launch, if_pos ((launchValid_iff cfg initial).mpr h), if_neg (Nat.not_lt.mpr hfit)]

theorem launch_of_too_long {cfg : Config} {initial : Option (Vector Word 32)} {program : List Byte}
    (h : LaunchAllowed cfg initial) (hlong : cfg.capacity < program.length) :
    launch cfg initial program = .next (halt (bootState cfg initial []) .outOfMem) := by
  rw [launch, if_pos ((launchValid_iff cfg initial).mpr h), if_pos hlong]

theorem launch_of_not_allowed {cfg : Config} {initial : Option (Vector Word 32)} (program : List Byte)
    (h : ¬LaunchAllowed cfg initial) : launch cfg initial program = .refused .launchPrecondition := by
  rw [launch, if_neg (mt (launchValid_iff cfg initial).mp h)]

/-! ## The registers at run entry -/

/-- Where slot 0 holds zero, the register file reads as its slots: R10's case for `x0` makes no difference. -/
theorem readReg_of_slot_zero {s : State} (h : s.regs[0] = 0#32) (r : RegIdx) : readReg s r = s.regs[r.toNat] := by
  by_cases hr : r = 0#5
  · subst hr; exact (readReg_zero s).trans h.symm
  · rw [readReg, if_neg hr]

/-- R26: the launch precondition on element 0 makes slot 0 zero, with or without the caller's registers. -/
theorem bootState_slot_zero {cfg : Config} {initial : Option (Vector Word 32)} (h : LaunchAllowed cfg initial)
    (mem : Memory) : (bootState cfg initial mem).regs[0] = 0#32 := by
  obtain ⟨-, -, hregs⟩ := h
  cases initial with
  | none => rfl
  | some regs => exact hregs regs rfl

/-- R303: run entry puts the caller's registers, or zeros, in the register file. -/
theorem readReg_bootState {cfg : Config} {initial : Option (Vector Word 32)} (h : LaunchAllowed cfg initial)
    (mem : Memory) (r : RegIdx) :
    readReg (bootState cfg initial mem) r = (initial.getD (Vector.replicate 32 0#32))[r.toNat] :=
  readReg_of_slot_zero (bootState_slot_zero h mem) r

/-- Settles O60: `launch`'s test is R305's list of conditions (`launchValid_iff`), and each case of `launch` answers
`bootState`, running or halted, or the refusal. -/
theorem launchTurnsAway : Obligations.LaunchTurnsAway := by
  intro cfg initial program
  refine ⟨fun h hfit => ?running, fun h hlong => ?outOfMem, launch_of_not_allowed program⟩
  case running => exact ⟨_, launch_of_fits h hfit, rfl⟩
  case outOfMem => exact ⟨_, launch_of_too_long h hlong, rfl, rfl, rfl, readReg_bootState h []⟩

end Sys2Proof.Machine
end

section
/-! What an instruction and a step do to each field of the state (10_state.md), read off `Effect`. -/

namespace Sys2Proof.Machine

/-! ## The register file (R10 to R13) -/

/-- No instruction writes the slot of `x0` (R11). -/
theorem effect_slot_zero {i : Instr} {s t : State} (h : Effect i s t) : t.regs[0] = s.regs[0] := by
  cases h with
  | writes rd v => exact writeReg_slot_zero s rd v
  | draws rd v => exact writeReg_slot_zero (takeDraw s) rd v
  | links rd target => exact writeReg_slot_zero s rd (s.pc + 4#32)
  | forwards => exact ecallForward_slot_zero s
  | halts | falls | branches | stores | uart | magicHalts | magicWrites | ecallWrites | ignores => rfl

/-- A register the instruction may not write is not its `rd`. -/
theorem ne_dest_of_not_mayWriteReg {i : Instr} {s : State} {r rd : RegIdx} (hr : mayWriteReg i s r = false)
    (hd : destOf i = some rd) : r ≠ rd := by
  rintro rfl
  simp [mayWriteReg, hd] at hr

/-- A register a forwarded ECALL may not write is not `x10` (R243). -/
theorem ne_regA0_of_not_mayWriteReg {s : State} {r : RegIdx} (hr : mayWriteReg .ecall s r = false)
    (hf : ecallIsForwarded s = true) : r ≠ regA0 := by
  rintro rfl
  simp [mayWriteReg, hf] at hr

theorem readReg_writeReg_of_ne (s : State) {i r : RegIdx} (v : Word) (h : r ≠ i) :
    readReg (writeReg s i v) r = readReg s r := by
  rw [readReg_writeReg, if_neg fun e => h e.1]

/-- The register frame: what the instruction may not write reads as before (R13). -/
theorem effect_readReg {i : Instr} {s t : State} {r : RegIdx} (h : Effect i s t) (hr : mayWriteReg i s r = false) :
    readReg t r = readReg s r := by
  cases h with
  | writes rd v hd => exact readReg_writeReg_of_ne s v (ne_dest_of_not_mayWriteReg hr hd)
  | draws rd v hd => exact readReg_writeReg_of_ne (takeDraw s) v (ne_dest_of_not_mayWriteReg hr hd)
  | links rd target hd => exact readReg_writeReg_of_ne s (s.pc + 4#32) (ne_dest_of_not_mayWriteReg hr hd)
  | forwards hi hf =>
    subst hi
    rw [readReg_advance, readReg_ecallForward, if_neg (ne_regA0_of_not_mayWriteReg hr hf)]
  | halts | falls | branches | stores | uart | magicHalts | magicWrites | ecallWrites | ignores => rfl

/-! ## The pc (R14 to R16) -/

/-- Everything an instruction can do to the pc: leave it as the run ends, move it on by 4, or jump to a multiple
of 4. -/
theorem effect_pc {i : Instr} {s t : State} (h : Effect i s t) :
    (t.run ≠ .running ∧ t.pc = s.pc) ∨ t.pc = s.pc + 4#32 ∨ (isControlTransfer i = true ∧ t.pc.toNat % 4 = 0) := by
  cases h with
  | halts | magicHalts => exact .inl ⟨nofun, rfl⟩
  | branches target hc _ hm => exact .inr (.inr ⟨hc, hm⟩)
  | links rd target _ hc _ hm => exact .inr (.inr ⟨hc, hm⟩)
  | writes | draws | forwards => exact .inr (.inl (by simp))
  | falls | stores | uart | magicWrites | ecallWrites | ignores => exact .inr (.inl rfl)

theorem pc_add_four_aligned {pc : Word} (h : pc.toNat % 4 = 0) : (pc + 4#32).toNat % 4 = 0 := by
  simp only [BitVec.toNat_add, BitVec.toNat_ofNat]
  omega

/-! ## Memory (R19, R30) -/

/-- Everything an instruction can do to memory: nothing, one little-endian write inside the buffer, or the bridge's
writes, which are kept inside it (R244). -/
theorem effect_mem {i : Instr} {s t : State} (h : Effect i s t) :
    t.mem = s.mem ∨
    (∃ a n v, a + n ≤ s.cfg.capacity ∧ t.mem = Memory.writeLE s.mem a n v) ∨
    (∃ writes, t.mem = applyWrites s.cfg.capacity s.mem writes) := by
  cases h with
  | stores w rs1 rs2 imm _ _ ha => exact .inr (.inl ⟨_, _, _, ha.1, rfl⟩)
  | magicWrites w rs1 rs2 imm bytes _ _ _ _ ha => exact .inr (.inl ⟨_, 4, 1#32, ha, rfl⟩)
  | forwards => exact .inr (.inr ⟨_, ecallForward_mem s⟩)
  | writes | draws | links => exact .inl (by simp)
  | halts | falls | branches | uart | magicHalts | ecallWrites | ignores => exact .inl rfl

theorem effect_mem_wf {i : Instr} {s t : State} (h : Effect i s t) (hs : Memory.wf s.cfg.capacity s.mem = true) :
    Memory.wf s.cfg.capacity t.mem = true := by
  rcases effect_mem h with e | ⟨a, n, v, ha, e⟩ | ⟨writes, e⟩ <;> rw [e]
  · exact hs
  · exact Memory.writeLE_wf a n v ha hs
  · exact applyWrites_wf writes hs

/-! ## Stdout (R21, R256) -/

theorem mayEmit_of_storeOperands {i : Instr} {ops : Width × RegIdx × RegIdx × Word} (h : storeOperands i = some ops) :
    mayEmit i = true := by
  simp [mayEmit, h]

/-- Everything an instruction can do to stdout: nothing, or, for an ECALL or a store, append to it. -/
theorem effect_stdout {i : Instr} {s t : State} (h : Effect i s t) :
    t.stdout = s.stdout ∨ (mayEmit i = true ∧ ∃ out, t.stdout = s.stdout ++ out) := by
  cases h with
  | uart w rs1 rs2 imm hi => exact .inr ⟨mayEmit_of_storeOperands hi, _, rfl⟩
  | magicHalts w rs1 rs2 imm bytes hi => exact .inr ⟨mayEmit_of_storeOperands hi, _, rfl⟩
  | magicWrites w rs1 rs2 imm bytes hi => exact .inr ⟨mayEmit_of_storeOperands hi, _, rfl⟩
  | ecallWrites hi => subst hi; exact .inr ⟨rfl, _, rfl⟩
  | forwards hi => subst hi; exact .inr ⟨rfl, _, ecallForward_stdout s⟩
  | writes | draws | links => exact .inl (by simp)
  | halts | falls | branches | stores | ignores => exact .inl rfl

/-! ## The counter and the parameters (R6, R18) -/

theorem effect_instret_cfg {i : Instr} {s t : State} (h : Effect i s t) : t.instret = s.instret ∧ t.cfg = s.cfg := by
  cases h with
  | writes | draws | links | forwards => simp
  | halts | falls | branches | stores | uart | magicHalts | magicWrites | ecallWrites | ignores => exact ⟨rfl, rfl⟩

/-! ## The step (R90) -/

/-- Everything a step that answers has done: halted at the fetch (R92), or run the fetched instruction. -/
theorem step_next_cases {s t : State} (h : step s = .next t) :
    (s.cfg.capacity < offsetOf s.pc + 4 ∧ t = halt (countStep s) .invalidMemoryAccess) ∨
    (offsetOf s.pc + 4 ≤ s.cfg.capacity ∧
      Effect (decode (Memory.readLE s.mem (offsetOf s.pc) 4)) (countStep s) t) := by
  rcases step_cases s with ⟨status, -, e⟩ | ⟨-, hb, e⟩ | ⟨-, hb, e⟩ <;> rw [e] at h
  · cases h
  · cases h; exact .inl ⟨hb, rfl⟩
  · exact .inr ⟨hb, effect_of_exec h⟩

/-- An instruction keeps the invariant, field by field. -/
theorem effect_keeps_inv {i : Instr} {s t : State} (h : Effect i s t) (hs : s.Inv) : t.Inv := by
  obtain ⟨hzero, hpc, hmem⟩ := hs
  refine ⟨(effect_slot_zero h).trans hzero, ?pc, ?mem⟩
  case pc =>
    rcases effect_pc h with ⟨-, e⟩ | e | ⟨-, ha⟩
    · rw [e]; exact hpc
    · rw [e]; exact pc_add_four_aligned hpc
    · exact ha
  case mem =>
    rw [(effect_instret_cfg h).2]
    exact effect_mem_wf h hmem

/-! ## The statements -/

/-- Settles O14: neither the counting nor the halt at the fetch touches what the invariant speaks of, and every effect
of an instruction keeps it. -/
theorem stepKeepsInvariant : Obligations.StepKeepsInvariant := by
  intro s t hs h
  rcases step_next_cases h with ⟨-, rfl⟩ | ⟨-, he⟩
  · exact hs
  · exact effect_keeps_inv he hs

/-- Settles O12: `countStep` adds one and no effect changes the counter. -/
theorem instretCountsEveryStep : Obligations.InstretCountsEveryStep := by
  intro s t h
  have count : t.instret = s.instret + 1#64 := by
    rcases step_next_cases h with ⟨-, rfl⟩ | ⟨-, he⟩
    · rfl
    · exact (effect_instret_cfg he).1
  rw [count, BitVec.toNat_add, BitVec.toNat_ofNat, Nat.add_mod_mod]

/-- Settles O19: the two cases of `effect_stdout`, of which only the first is left where the instruction may not emit. -/
theorem stdoutOnlyGrows : Obligations.StdoutOnlyGrows := by
  intro i s t h
  rcases effect_stdout (effect_of_exec h) with e | ⟨hi, out, e⟩ <;> rw [e]
  · exact ⟨List.prefix_refl _, fun _ => rfl⟩
  · exact ⟨List.prefix_append _ _, fun hn => by simp [hi] at hn⟩

/-- Settles O20: of the three things `effect_pc` lists, a running run excludes the first and an instruction that is no
control transfer the last. -/
theorem onlyControlTransfersJump : Obligations.OnlyControlTransfersJump := by
  intro i s t h hrun
  rcases effect_pc (effect_of_exec h) with ⟨hn, -⟩ | e | ⟨hc, ha⟩
  · exact absurd hrun hn
  · exact ⟨fun _ => e, fun _ hpc => e ▸ pc_add_four_aligned hpc⟩
  · exact ⟨fun hn => by simp [hc] at hn, fun _ _ => ha⟩

/-- Settles O21: no effect changes either field. -/
theorem counterAndParametersAreNotWritten : Obligations.CounterAndParametersAreNotWritten :=
  fun _ _ _ h => effect_instret_cfg (effect_of_exec h)

/-- Settles O22: the register frame over `Effect`, and R10 for `x0`. -/
theorem registersUnchangedExceptDestination : Obligations.RegistersUnchangedExceptDestination :=
  fun _ _ t h => ⟨readReg_zero t, fun _ hr => effect_readReg (effect_of_exec h) hr⟩

/-- Settles O25: the clauses of `readReg_writeReg`, and R10 and R11 for `x0`. -/
theorem registerReadAfterWrite : Obligations.RegisterReadAfterWrite := by
  intro s i v
  refine ⟨fun hi => ?same, fun r hr => readReg_writeReg_of_ne s v hr, readReg_zero s, writeReg_zero s v⟩
  case same => rw [readReg_writeReg, if_pos ⟨rfl, hi⟩]

/-- Settles O15: the state after reset is one closed state, with no byte in memory. -/
theorem resetMeetsInvariant : Obligations.ResetMeetsInvariant := ⟨rfl, rfl, rfl⟩

end Sys2Proof.Machine
end

section
/-! What a launch leaves in each field of the state (R300 to R305), read off `launch`'s two answers. -/

namespace Sys2Proof.Machine

/-! ## What a launch has done -/

/-- Everything a launch that answers has done: it met R305's conditions, and it starts the run or, where the program is
too long, ends it (R301). -/
theorem launch_next_cases {cfg : Config} {initial : Option (Vector Word 32)} {program : List Byte} {s : State}
    (h : launch cfg initial program = .next s) :
    LaunchAllowed cfg initial ∧
      ((program.length ≤ cfg.capacity ∧ s = bootState cfg initial (Memory.image 0 program)) ∨
      (cfg.capacity < program.length ∧ s = halt (bootState cfg initial []) .outOfMem)) := by
  by_cases ha : LaunchAllowed cfg initial
  · refine ⟨ha, ?_⟩
    rcases Nat.lt_or_ge cfg.capacity program.length with hl | hl
    · rw [launch_of_too_long ha hl] at h; cases h; exact .inr ⟨hl, rfl⟩
    · rw [launch_of_fits ha hl] at h; cases h; exact .inl ⟨hl, rfl⟩
  · rw [launch_of_not_allowed program ha] at h; cases h

/-- A launch leaves the fields of R303 and R304 the same whether it starts the run or ends it. -/
theorem launch_next_fields {cfg : Config} {initial : Option (Vector Word 32)} {program : List Byte} {s : State}
    (h : launch cfg initial program = .next s) :
    s.instret = 0#64 ∧ s.stdout = [] ∧
      ∀ r : RegIdx, readReg s r = (initial.getD (Vector.replicate 32 0#32))[r.toNat] := by
  obtain ⟨ha, ⟨-, rfl⟩ | ⟨-, rfl⟩⟩ := launch_next_cases h
  · exact ⟨rfl, rfl, readReg_bootState ha _⟩
  · exact ⟨rfl, rfl, readReg_bootState ha []⟩

theorem launchAllowed_defaultConfig : LaunchAllowed defaultConfig none :=
  (launchValid_iff defaultConfig none).mp (by decide)

/-- Byte for byte what the image at offset 0 reads as (R29). -/
theorem read_image_zero (program : List Byte) (a : Nat) :
    Memory.read (Memory.image 0 program) a = if h : a < program.length then program[a] else 0#8 := by
  rw [Memory.read_image, if_pos (Nat.zero_le a), Nat.sub_zero]
  split
  · next h => exact List.getD_eq_getElem program 0#8 h
  · next h => exact List.getD_eq_default program 0#8 (Nat.not_lt.mp h)

/-! ## The statements -/

/-- Settles O58: a launch whose program fits boots over the program's image (`launch_of_fits`), and reset has no byte
listed. -/
theorem launchStartsAtZero : Obligations.LaunchStartsAtZero :=
  ⟨fun _ _ program h hfit => ⟨_, launch_of_fits h hfit, rfl, rfl, rfl, read_image_zero program⟩,
    rfl, rfl, fun _ => rfl⟩

/-- Settles O59: the register file is the caller's or zeros, and the launch of no program under the default parameters
boots into the state after reset. -/
theorem launchSetsRegistersAndCounter : Obligations.LaunchSetsRegistersAndCounter := by
  refine ⟨fun cfg initial program s h => ?fields, launch_of_fits launchAllowed_defaultConfig (Nat.zero_le _)⟩
  obtain ⟨hinstret, hstdout, hregs⟩ := launch_next_fields h
  obtain ⟨⟨-, -, hzero⟩, -⟩ := launch_next_cases h
  refine ⟨hinstret, hstdout, readReg_zero s, ?absent, ?given⟩
  case absent => rintro rfl r; rw [hregs, Option.getD_none, Vector.getElem_replicate]
  case given => rintro regs rfl; exact ⟨hzero regs rfl, hregs⟩

end Sys2Proof.Machine
end

section
/-! Memory (20_memory.md): what the access checks refuse, that the top address bit does not count, and that what is
written is what a later read, load or fetch of the same address answers. -/

namespace Sys2Proof.Machine

/-! ## The access checks (R31 to R34) -/

theorem memRead_error {s : State} {addr : Word} {w : Width} {status : Status} (h : accessHalt s addr w = some status) :
    memRead s addr w = .error status := by
  rw [memRead, h]

theorem memWrite_error {s : State} {addr : Word} {w : Width} {status : Status} (v : Word)
    (h : accessHalt s addr w = some status) : memWrite s addr w v = .error status := by
  rw [memWrite, h]

theorem fetchWord_inside {s : State} {addr : Word} (h : offsetOf addr + 4 ≤ s.cfg.capacity) :
    fetchWord s addr = .ok (Memory.readLE s.mem (offsetOf addr) 4) := by
  rcases fetchWord_cases s addr with ⟨hb, -⟩ | ⟨-, e⟩
  · exact absurd h (Nat.not_le.mpr hb)
  · exact e

/-- A byte access is aligned wherever it is (R33). -/
theorem ne_byte_of_mod_bytes_ne_zero {n : Nat} {w : Width} (h : n % w.bytes ≠ 0) : w ≠ .byte := by
  rintro rfl
  exact h (Nat.mod_one n)

/-- Bit 31 of an address is masked away (R31). -/
theorem offsetOf_add_topBit (a : Word) : offsetOf (a + 0x80000000#32) = offsetOf a := by
  rw [offsetOf_eq, offsetOf_eq, BitVec.toNat_add, BitVec.toNat_ofNat]
  omega

/-! ## A write read back (R35, R36, R51) -/

theorem memWrite_ok {s t : State} {addr : Word} {w : Width} {v : Word} (h : memWrite s addr w v = .ok t) :
    AccessAllowed s addr w ∧ t = { s with mem := Memory.writeLE s.mem (offsetOf addr) w.bytes v } := by
  rcases memWrite_cases s addr w v with ⟨_, _, e⟩ | ⟨ha, e⟩
  · rw [e] at h; cases h
  · rw [e] at h; cases h; exact ⟨ha, rfl⟩

/-- A load whose access is allowed completes with the extended bytes in memory (R110). -/
theorem completesWith_of_load {i : Instr} {s : State} {w : Width} {extend : Word → Word} {rd rs1 : RegIdx} {imm : Word}
    (hi : exec i s = .next (load w extend rd rs1 imm s)) (ha : AccessAllowed s (baseAddress s rs1 imm) w) :
    CompletesWith i s rd (extend (Memory.readLE s.mem (offsetOf (baseAddress s rs1 imm)) w.bytes)) := by
  refine ⟨_, ?_, fun r => by rw [readReg_advance, readReg_writeReg], by simp⟩
  rw [hi, load, memRead_allowed ha]

/-- A store that is allowed and not intercepted writes its bytes and ends normally (R116). -/
theorem store_of_allowed {w : Width} {rs1 rs2 : RegIdx} {imm : Word} {s : State}
    (hn : NotIntercepted s (baseAddress s rs1 imm)) (ha : AccessAllowed s (baseAddress s rs1 imm) w) :
    store w rs1 rs2 imm s =
      advance { s with mem := Memory.writeLE s.mem (offsetOf (baseAddress s rs1 imm)) w.bytes (readReg s rs2) } := by
  rcases store_ordinary (rs2 := rs2) hn with ⟨_, h, -⟩ | ⟨-, e⟩
  · rw [(accessHalt_none_iff _ _ _).mpr ha] at h; cases h
  · exact e

/-- An ordinary store that did not end the run passed the checks. -/
theorem allowed_of_store_running {w : Width} {rs1 rs2 : RegIdx} {imm : Word} {s : State}
    (hn : NotIntercepted s (baseAddress s rs1 imm)) (hrun : (store w rs1 rs2 imm s).run = .running) :
    AccessAllowed s (baseAddress s rs1 imm) w := by
  rcases store_ordinary (rs2 := rs2) hn with ⟨_, -, e⟩ | ⟨ha, -⟩
  · rw [e] at hrun; cases hrun
  · exact ha

/-- The round trip of a store and a load of one width at one address: neither the registers the address is made from
nor the parameters the checks look at have changed in between. -/
theorem load_after_store {i j : Instr} {s t : State} {w : Width} {extend : Word → Word} {rd rs1 rs2 : RegIdx}
    {imm : Word} (hi : storeOperands i = some (w, rs1, rs2, imm)) (h : exec i s = .next t)
    (hn : NotIntercepted s (baseAddress s rs1 imm)) (hrun : t.run = .running)
    (hj : exec j t = .next (load w extend rd rs1 imm t)) :
    CompletesWith j t rd (extend (truncateTo w (readReg s rs2))) := by
  rw [exec_store hi] at h
  cases h
  have ha := allowed_of_store_running hn hrun
  rw [store_of_allowed hn ha] at hj ⊢
  rw [← readLE_writeLE s.mem (offsetOf (baseAddress s rs1 imm)) w]
  exact completesWith_of_load hj ha

/-! ## The extensions on a truncated value (R37) -/

theorem signExtendByte_truncateTo (v : Word) : (signExtendByte (truncateTo .byte v)).toInt = (v.setWidth 8).toInt := by
  simp [signExtendByte, truncateTo, zeroExtendByte, BitVec.toInt_signExtend_of_le]

theorem signExtendHalf_truncateTo (v : Word) : (signExtendHalf (truncateTo .half v)).toInt = (v.setWidth 16).toInt := by
  simp [signExtendHalf, truncateTo, zeroExtendHalf, BitVec.toInt_signExtend_of_le]

theorem zeroExtendByte_truncateTo (v : Word) : (zeroExtendByte (truncateTo .byte v)).toNat = v.toNat % 2 ^ 8 := by
  simp [truncateTo, zeroExtendByte]
  omega

theorem zeroExtendHalf_truncateTo (v : Word) : (zeroExtendHalf (truncateTo .half v)).toNat = v.toNat % 2 ^ 16 := by
  simp [truncateTo, zeroExtendHalf]
  omega

/-! ## The statements -/

/-- Settles O37: each clause is one answer of `accessHalt`, stated on the address modulo 2^31 by `offsetOf_eq`. -/
theorem dataAccessChecks : Obligations.DataAccessChecks := by
  intro s addr w v
  rw [← offsetOf_eq, ← offsetOf_mod_bytes]
  refine ⟨rfl, fun hb => ?bounds, fun hb hc hm => ?misaligned, fun hb hc => ?allowed, rfl⟩
  case bounds =>
    have hh := accessHalt_outOfBounds hb
    exact ⟨memRead_error hh, memWrite_error v hh⟩
  case misaligned =>
    have hh := accessHalt_misaligned hb hc hm
    exact ⟨ne_byte_of_mod_bytes_ne_zero hm, memRead_error hh, memWrite_error v hh⟩
  case allowed =>
    have ha : AccessAllowed s addr w := ⟨hb, fun hon => hc.resolve_left (by simp [hon])⟩
    exact ⟨⟨_, memRead_allowed ha⟩, _, memWrite_allowed v ha⟩

/-- Settles O38: `readLE_writeLE` for the two operations, and `load_after_store` with each load's extension for the
instructions. -/
theorem memoryRoundTrip : Obligations.MemoryRoundTrip := by
  refine ⟨fun s t addr w v h => ?operations, fun s t rd rs1 rs2 imm hn _ hrun =>
    ⟨fun h => ?bytes, fun h => ?halves, fun h => ?words⟩⟩
  case operations =>
    obtain ⟨ha, rfl⟩ := memWrite_ok h
    refine ⟨truncateTo w v, ?_, truncateTo_toNat w v⟩
    rw [← readLE_writeLE s.mem (offsetOf addr)]
    exact memRead_allowed ha
  case bytes =>
    exact ⟨⟨_, load_after_store rfl h hn hrun rfl, signExtendByte_truncateTo _⟩,
      _, load_after_store rfl h hn hrun rfl, zeroExtendByte_truncateTo _⟩
  case halves =>
    exact ⟨⟨_, load_after_store rfl h hn hrun rfl, signExtendHalf_truncateTo _⟩,
      _, load_after_store rfl h hn hrun rfl, zeroExtendHalf_truncateTo _⟩
  case words => exact load_after_store (w := .word) (extend := id) rfl h hn hrun rfl

/-- Settles O39: the three operations look at the buffer offset alone, which `offsetOf_add_topBit` leaves the same. -/
theorem topBitAliases : Obligations.TopBitAliases := fun _ a _ _ =>
  have h := offsetOf_add_topBit a
  ⟨memRead_congr_offset h, memWrite_congr_offset h, fetchWord_congr_offset h⟩

/-- Settles O40: the store leaves its word in memory (`store_of_allowed`), and the fetch, whose bounds check the store
has passed, assembles the same four bytes. -/
theorem storeIsSeenByFetch : Obligations.StoreIsSeenByFetch := by
  intro s t rs1 rs2 imm hn ha h
  rw [exec_store rfl, store_of_allowed hn ha] at h
  cases h
  exact Eq.trans (fetchWord_inside ha.1) (congrArg Except.ok (readLE_writeLE s.mem _ .word _))

end Sys2Proof.Machine
end

section
/-! Everything the decoder can answer, said once: `DecodesTo`, one case for each row of the opcode table with the field
values that select it (R72 to R74). A claim about every decoded word is a case analysis of `decodesTo_decode`; a claim
about one row goes through `DecodesTo.decode_eq`. -/

namespace Sys2Proof

/-! ## The unassigned selectors, category by category (R74) -/

section
variable {w : Word}

/-- R206: Branch. -/
theorem unassignedWord_branch (hop : opcodeOf w = 0x63#7) :
    unassignedWord w = true ↔ funct3Of w = 2#3 ∨ funct3Of w = 3#3 := by
  rw [opcodeOf] at hop
  simp [unassignedWord, funct3Of, hop]

/-- R120: Load. -/
theorem unassignedWord_load (hop : opcodeOf w = 0x03#7) :
    unassignedWord w = true ↔ funct3Of w = 3#3 ∨ funct3Of w = 6#3 ∨ funct3Of w = 7#3 := by
  rw [opcodeOf] at hop
  simp [unassignedWord, funct3Of, hop]

/-- R120: Store. -/
theorem unassignedWord_store (hop : opcodeOf w = 0x23#7) : unassignedWord w = true ↔ 3 ≤ (funct3Of w).toNat := by
  rw [opcodeOf] at hop
  simp [unassignedWord, funct3Of, hop]

/-- R161: Integer-Register-Op. -/
theorem unassignedWord_intReg (hop : opcodeOf w = 0x33#7) :
    unassignedWord w = true ↔
      (funct3Of w = 0#3 ∨ funct3Of w = 5#3) ∧ funct7Of w ≠ 0x00#7 ∧ funct7Of w ≠ 0x01#7 ∧ funct7Of w ≠ 0x20#7 := by
  rw [opcodeOf] at hop
  simp [unassignedWord, funct3Of, funct7Of, hop]

/-- R219: System. -/
theorem unassignedWord_system (hop : opcodeOf w = 0x73#7) :
    unassignedWord w = true ↔ funct3Of w = 0#3 ∧ funct7Of w ≠ 0#7 ∧ funct7Of w ≠ 1#7 ∧ funct7Of w ≠ 8#7 := by
  rw [opcodeOf] at hop
  simp [unassignedWord, funct3Of, funct7Of, hop]

/-- R71: an opcode whose every word is assigned. -/
theorem unassignedWord_of_assigned_opcode
    (hop : opcodeOf w = 0x37#7 ∨ opcodeOf w = 0x17#7 ∨ opcodeOf w = 0x6F#7 ∨ opcodeOf w = 0x67#7 ∨
      opcodeOf w = 0x13#7) :
    unassignedWord w = false := by
  rw [opcodeOf] at hop
  rcases hop with hop | hop | hop | hop | hop <;> simp [unassignedWord, hop]

end

/-! ## What a word decodes to -/

theorem funct3_cases (x : BitVec 3) :
    x = 0#3 ∨ x = 1#3 ∨ x = 2#3 ∨ x = 3#3 ∨ x = 4#3 ∨ x = 5#3 ∨ x = 6#3 ∨ x = 7#3 := by
  decide +revert

/-- Instruction `i` is what `w` decodes to: the constructor names the row, its hypotheses the selecting fields. -/
inductive DecodesTo (w : Word) : Instr → Prop where
  | lui (hop : opcodeOf w = 0x37#7) : DecodesTo w (.lui (rdOf w) (immU w))
  | auipc (hop : opcodeOf w = 0x17#7) : DecodesTo w (.auipc (rdOf w) (immU w))
  | jal (hop : opcodeOf w = 0x6F#7) : DecodesTo w (.jal (rdOf w) (immJ w))
  | jalr (hop : opcodeOf w = 0x67#7) : DecodesTo w (.jalr (rdOf w) (rs1Of w) (immI w))
  | beq (hop : opcodeOf w = 0x63#7) (h3 : funct3Of w = 0#3) : DecodesTo w (.beq (rs1Of w) (rs2Of w) (immB w))
  | bne (hop : opcodeOf w = 0x63#7) (h3 : funct3Of w = 1#3) : DecodesTo w (.bne (rs1Of w) (rs2Of w) (immB w))
  | blt (hop : opcodeOf w = 0x63#7) (h3 : funct3Of w = 4#3) : DecodesTo w (.blt (rs1Of w) (rs2Of w) (immB w))
  | bge (hop : opcodeOf w = 0x63#7) (h3 : funct3Of w = 5#3) : DecodesTo w (.bge (rs1Of w) (rs2Of w) (immB w))
  | bltu (hop : opcodeOf w = 0x63#7) (h3 : funct3Of w = 6#3) : DecodesTo w (.bltu (rs1Of w) (rs2Of w) (immB w))
  | bgeu (hop : opcodeOf w = 0x63#7) (h3 : funct3Of w = 7#3) : DecodesTo w (.bgeu (rs1Of w) (rs2Of w) (immB w))
  | lb (hop : opcodeOf w = 0x03#7) (h3 : funct3Of w = 0#3) : DecodesTo w (.lb (rdOf w) (rs1Of w) (immI w))
  | lh (hop : opcodeOf w = 0x03#7) (h3 : funct3Of w = 1#3) : DecodesTo w (.lh (rdOf w) (rs1Of w) (immI w))
  | lw (hop : opcodeOf w = 0x03#7) (h3 : funct3Of w = 2#3) : DecodesTo w (.lw (rdOf w) (rs1Of w) (immI w))
  | lbu (hop : opcodeOf w = 0x03#7) (h3 : funct3Of w = 4#3) : DecodesTo w (.lbu (rdOf w) (rs1Of w) (immI w))
  | lhu (hop : opcodeOf w = 0x03#7) (h3 : funct3Of w = 5#3) : DecodesTo w (.lhu (rdOf w) (rs1Of w) (immI w))
  | sb (hop : opcodeOf w = 0x23#7) (h3 : funct3Of w = 0#3) : DecodesTo w (.sb (rs1Of w) (rs2Of w) (immS w))
  | sh (hop : opcodeOf w = 0x23#7) (h3 : funct3Of w = 1#3) : DecodesTo w (.sh (rs1Of w) (rs2Of w) (immS w))
  | sw (hop : opcodeOf w = 0x23#7) (h3 : funct3Of w = 2#3) : DecodesTo w (.sw (rs1Of w) (rs2Of w) (immS w))
  | addi (hop : opcodeOf w = 0x13#7) (h3 : funct3Of w = 0#3) : DecodesTo w (.addi (rdOf w) (rs1Of w) (immI w))
  | slti (hop : opcodeOf w = 0x13#7) (h3 : funct3Of w = 2#3) : DecodesTo w (.slti (rdOf w) (rs1Of w) (immI w))
  | sltiu (hop : opcodeOf w = 0x13#7) (h3 : funct3Of w = 3#3) : DecodesTo w (.sltiu (rdOf w) (rs1Of w) (immI w))
  | xori (hop : opcodeOf w = 0x13#7) (h3 : funct3Of w = 4#3) : DecodesTo w (.xori (rdOf w) (rs1Of w) (immI w))
  | ori (hop : opcodeOf w = 0x13#7) (h3 : funct3Of w = 6#3) : DecodesTo w (.ori (rdOf w) (rs1Of w) (immI w))
  | andi (hop : opcodeOf w = 0x13#7) (h3 : funct3Of w = 7#3) : DecodesTo w (.andi (rdOf w) (rs1Of w) (immI w))
  | slli (hop : opcodeOf w = 0x13#7) (h3 : funct3Of w = 1#3) : DecodesTo w (.slli (rdOf w) (rs1Of w) (rs2Of w))
  | srli (hop : opcodeOf w = 0x13#7) (h3 : funct3Of w = 5#3) (h30 : w.extractLsb' 30 1 = 0#1) :
    DecodesTo w (.srli (rdOf w) (rs1Of w) (rs2Of w))
  | srai (hop : opcodeOf w = 0x13#7) (h3 : funct3Of w = 5#3) (h30 : w.extractLsb' 30 1 = 1#1) :
    DecodesTo w (.srai (rdOf w) (rs1Of w) (rs2Of w))
  | mul (hop : opcodeOf w = 0x33#7) (h3 : funct3Of w = 0#3) (h7 : funct7Of w = 0x01#7) :
    DecodesTo w (.mul (rdOf w) (rs1Of w) (rs2Of w))
  | mulh (hop : opcodeOf w = 0x33#7) (h3 : funct3Of w = 1#3) (h7 : funct7Of w = 0x01#7) :
    DecodesTo w (.mulh (rdOf w) (rs1Of w) (rs2Of w))
  | mulhsu (hop : opcodeOf w = 0x33#7) (h3 : funct3Of w = 2#3) (h7 : funct7Of w = 0x01#7) :
    DecodesTo w (.mulhsu (rdOf w) (rs1Of w) (rs2Of w))
  | mulhu (hop : opcodeOf w = 0x33#7) (h3 : funct3Of w = 3#3) (h7 : funct7Of w = 0x01#7) :
    DecodesTo w (.mulhu (rdOf w) (rs1Of w) (rs2Of w))
  | div (hop : opcodeOf w = 0x33#7) (h3 : funct3Of w = 4#3) (h7 : funct7Of w = 0x01#7) :
    DecodesTo w (.div (rdOf w) (rs1Of w) (rs2Of w))
  | divu (hop : opcodeOf w = 0x33#7) (h3 : funct3Of w = 5#3) (h7 : funct7Of w = 0x01#7) :
    DecodesTo w (.divu (rdOf w) (rs1Of w) (rs2Of w))
  | rem (hop : opcodeOf w = 0x33#7) (h3 : funct3Of w = 6#3) (h7 : funct7Of w = 0x01#7) :
    DecodesTo w (.rem (rdOf w) (rs1Of w) (rs2Of w))
  | remu (hop : opcodeOf w = 0x33#7) (h3 : funct3Of w = 7#3) (h7 : funct7Of w = 0x01#7) :
    DecodesTo w (.remu (rdOf w) (rs1Of w) (rs2Of w))
  | add (hop : opcodeOf w = 0x33#7) (h3 : funct3Of w = 0#3) (h7 : funct7Of w = 0x00#7) :
    DecodesTo w (.add (rdOf w) (rs1Of w) (rs2Of w))
  | sub (hop : opcodeOf w = 0x33#7) (h3 : funct3Of w = 0#3) (h7 : funct7Of w = 0x20#7) :
    DecodesTo w (.sub (rdOf w) (rs1Of w) (rs2Of w))
  | srl (hop : opcodeOf w = 0x33#7) (h3 : funct3Of w = 5#3) (h7 : funct7Of w = 0x00#7) :
    DecodesTo w (.srl (rdOf w) (rs1Of w) (rs2Of w))
  | sra (hop : opcodeOf w = 0x33#7) (h3 : funct3Of w = 5#3) (h7 : funct7Of w = 0x20#7) :
    DecodesTo w (.sra (rdOf w) (rs1Of w) (rs2Of w))
  | sll (hop : opcodeOf w = 0x33#7) (h3 : funct3Of w = 1#3) (h7 : funct7Of w ≠ 0x01#7) :
    DecodesTo w (.sll (rdOf w) (rs1Of w) (rs2Of w))
  | slt (hop : opcodeOf w = 0x33#7) (h3 : funct3Of w = 2#3) (h7 : funct7Of w ≠ 0x01#7) :
    DecodesTo w (.slt (rdOf w) (rs1Of w) (rs2Of w))
  | sltu (hop : opcodeOf w = 0x33#7) (h3 : funct3Of w = 3#3) (h7 : funct7Of w ≠ 0x01#7) :
    DecodesTo w (.sltu (rdOf w) (rs1Of w) (rs2Of w))
  | xor (hop : opcodeOf w = 0x33#7) (h3 : funct3Of w = 4#3) (h7 : funct7Of w ≠ 0x01#7) :
    DecodesTo w (.xor (rdOf w) (rs1Of w) (rs2Of w))
  | or (hop : opcodeOf w = 0x33#7) (h3 : funct3Of w = 6#3) (h7 : funct7Of w ≠ 0x01#7) :
    DecodesTo w (.or (rdOf w) (rs1Of w) (rs2Of w))
  | and (hop : opcodeOf w = 0x33#7) (h3 : funct3Of w = 7#3) (h7 : funct7Of w ≠ 0x01#7) :
    DecodesTo w (.and (rdOf w) (rs1Of w) (rs2Of w))
  | ecall (hop : opcodeOf w = 0x73#7) (h3 : funct3Of w = 0#3) (h7 : funct7Of w = 0x00#7) : DecodesTo w .ecall
  | ebreak (hop : opcodeOf w = 0x73#7) (h3 : funct3Of w = 0#3) (h7 : funct7Of w = 0x01#7) : DecodesTo w .ebreak
  | wfi (hop : opcodeOf w = 0x73#7) (h3 : funct3Of w = 0#3) (h7 : funct7Of w = 0x08#7) : DecodesTo w .wfi
  | csrrw (hop : opcodeOf w = 0x73#7) (h3 : funct3Of w = 1#3) : DecodesTo w (.csrrw (rdOf w) (csrOf w) (rs1Of w))
  | csrrs (hop : opcodeOf w = 0x73#7) (h3 : funct3Of w = 2#3) : DecodesTo w (.csrrs (rdOf w) (csrOf w) (rs1Of w))
  | csrrc (hop : opcodeOf w = 0x73#7) (h3 : funct3Of w = 3#3) : DecodesTo w (.csrrc (rdOf w) (csrOf w) (rs1Of w))
  | csrr4 (hop : opcodeOf w = 0x73#7) (h3 : funct3Of w = 4#3) : DecodesTo w (.csrr4 (rdOf w) (csrOf w))
  | csrrwi (hop : opcodeOf w = 0x73#7) (h3 : funct3Of w = 5#3) : DecodesTo w (.csrrwi (rdOf w) (csrOf w) (rs1Of w))
  | csrrsi (hop : opcodeOf w = 0x73#7) (h3 : funct3Of w = 6#3) : DecodesTo w (.csrrsi (rdOf w) (csrOf w) (rs1Of w))
  | csrrci (hop : opcodeOf w = 0x73#7) (h3 : funct3Of w = 7#3) : DecodesTo w (.csrrci (rdOf w) (csrOf w) (rs1Of w))
  | unimp (h : unassignedWord w = true) : DecodesTo w (.unimp w)

section
variable {w : Word}

theorem decodesTo_decodeBranch (hop : opcodeOf w = 0x63#7) : DecodesTo w (decodeBranch w) := by
  unfold decodeBranch
  split
  next h3 => exact .beq hop h3
  next h3 => exact .bne hop h3
  next h3 => exact .blt hop h3
  next h3 => exact .bge hop h3
  next h3 => exact .bltu hop h3
  next h3 => exact .bgeu hop h3
  next => exact .unimp ((unassignedWord_branch hop).mpr (by have := funct3_cases (funct3Of w); tauto))

theorem decodesTo_decodeLoad (hop : opcodeOf w = 0x03#7) : DecodesTo w (decodeLoad w) := by
  unfold decodeLoad
  split
  next h3 => exact .lb hop h3
  next h3 => exact .lh hop h3
  next h3 => exact .lw hop h3
  next h3 => exact .lbu hop h3
  next h3 => exact .lhu hop h3
  next => exact .unimp ((unassignedWord_load hop).mpr (by have := funct3_cases (funct3Of w); tauto))

theorem decodesTo_decodeStore (hop : opcodeOf w = 0x23#7) : DecodesTo w (decodeStore w) := by
  unfold decodeStore
  split
  next h3 => exact .sb hop h3
  next h3 => exact .sh hop h3
  next h3 => exact .sw hop h3
  next h0 h1 h2 =>
    rw [imp_false] at h0 h1 h2
    exact .unimp ((unassignedWord_store hop).mpr (by bv_omega))

theorem decodesTo_decodeIntImm (hop : opcodeOf w = 0x13#7) : DecodesTo w (decodeIntImm w) := by
  unfold decodeIntImm
  split
  next h3 => exact .addi hop h3
  next h3 => exact .slli hop h3
  next h3 => exact .slti hop h3
  next h3 => exact .sltiu hop h3
  next h3 => exact .xori hop h3
  next h3 =>
    split
    next h30 => exact .srai hop h3 h30
    next h30 => exact .srli hop h3 (BitVec.eq_zero_or_eq_one _ |>.resolve_right h30)
  next h3 => exact .ori hop h3
  next => exact .andi hop (by have := funct3_cases (funct3Of w); tauto)

theorem decodesTo_decodeMulDiv (hop : opcodeOf w = 0x33#7) (h7 : funct7Of w = 0x01#7) :
    DecodesTo w (decodeMulDiv w) := by
  unfold decodeMulDiv
  split
  next h3 => exact .mul hop h3 h7
  next h3 => exact .mulh hop h3 h7
  next h3 => exact .mulhsu hop h3 h7
  next h3 => exact .mulhu hop h3 h7
  next h3 => exact .div hop h3 h7
  next h3 => exact .divu hop h3 h7
  next h3 => exact .rem hop h3 h7
  next => exact .remu hop (by have := funct3_cases (funct3Of w); tauto) h7

theorem decodesTo_decodeIntReg (hop : opcodeOf w = 0x33#7) (h7 : funct7Of w ≠ 0x01#7) :
    DecodesTo w (decodeIntReg w) := by
  unfold decodeIntReg
  split
  next h3 =>
    split
    next h0 => exact .add hop h3 h0
    next h0 =>
      split
      next h2 => exact .sub hop h3 h2
      next h2 => exact .unimp ((unassignedWord_intReg hop).mpr ⟨.inl h3, h0, h7, h2⟩)
  next h3 => exact .sll hop h3 h7
  next h3 => exact .slt hop h3 h7
  next h3 => exact .sltu hop h3 h7
  next h3 => exact .xor hop h3 h7
  next h3 =>
    split
    next h0 => exact .srl hop h3 h0
    next h0 =>
      split
      next h2 => exact .sra hop h3 h2
      next h2 => exact .unimp ((unassignedWord_intReg hop).mpr ⟨.inr h3, h0, h7, h2⟩)
  next h3 => exact .or hop h3 h7
  next => exact .and hop (by have := funct3_cases (funct3Of w); tauto) h7

theorem decodesTo_decodeSystem (hop : opcodeOf w = 0x73#7) : DecodesTo w (decodeSystem w) := by
  unfold decodeSystem
  split
  next h3 =>
    split
    next h0 => exact .ecall hop h3 h0
    next h0 =>
      split
      next h1 => exact .ebreak hop h3 h1
      next h1 =>
        split
        next h8 => exact .wfi hop h3 h8
        next h8 => exact .unimp ((unassignedWord_system hop).mpr ⟨h3, h0, h1, h8⟩)
  next h3 => exact .csrrw hop h3
  next h3 => exact .csrrs hop h3
  next h3 => exact .csrrc hop h3
  next h3 => exact .csrr4 hop h3
  next h3 => exact .csrrwi hop h3
  next h3 => exact .csrrsi hop h3
  next => exact .csrrci hop (by have := funct3_cases (funct3Of w); tauto)

end

/-- Every word decodes by one of the cases (R62). -/
theorem decodesTo_decode (w : Word) : DecodesTo w (decode w) := by
  unfold decode
  split
  next hop => exact .lui hop
  next hop => exact .auipc hop
  next hop => exact .jal hop
  next hop => exact .jalr hop
  next hop => exact decodesTo_decodeBranch hop
  next hop => exact decodesTo_decodeLoad hop
  next hop => exact decodesTo_decodeStore hop
  next hop => exact decodesTo_decodeIntImm hop
  next hop =>
    split
    next h7 => exact decodesTo_decodeMulDiv hop h7
    next h7 => exact decodesTo_decodeIntReg hop h7
  next hop => exact decodesTo_decodeSystem hop
  next => exact .unimp (by simp_all [unassignedWord, opcodeOf])

/-- A word of the illegal set meets the selectors of no row. -/
theorem DecodesTo.eq_unimp {w : Word} {i : Instr} (hd : DecodesTo w i) (h : unassignedWord w = true) :
    i = .unimp w := by
  cases hd with
  | unimp => rfl
  | lui hop | auipc hop | jal hop | jalr hop | addi hop | slti hop | sltiu hop | xori hop | ori hop | andi hop
  | slli hop | srli hop | srai hop => exact absurd h (by simp [unassignedWord_of_assigned_opcode, hop])
  | beq hop h3 | bne hop h3 | blt hop h3 | bge hop h3 | bltu hop h3 | bgeu hop h3 =>
    exact absurd h (by simp [unassignedWord_branch hop, h3])
  | lb hop h3 | lh hop h3 | lw hop h3 | lbu hop h3 | lhu hop h3 =>
    exact absurd h (by simp [unassignedWord_load hop, h3])
  | sb hop h3 | sh hop h3 | sw hop h3 => exact absurd h (by simp [unassignedWord_store hop, h3])
  | mul hop h3 h7 | mulh hop h3 h7 | mulhsu hop h3 h7 | mulhu hop h3 h7 | div hop h3 h7 | divu hop h3 h7
  | rem hop h3 h7 | remu hop h3 h7 | add hop h3 h7 | sub hop h3 h7 | srl hop h3 h7 | sra hop h3 h7 | sll hop h3 h7
  | slt hop h3 h7 | sltu hop h3 h7 | xor hop h3 h7 | or hop h3 h7 | and hop h3 h7 =>
    exact absurd h (by simp [unassignedWord_intReg hop, h3, h7])
  | ecall hop h3 h7 | ebreak hop h3 h7 | wfi hop h3 h7 => exact absurd h (by simp [unassignedWord_system hop, h7])
  | csrrw hop h3 | csrrs hop h3 | csrrc hop h3 | csrr4 hop h3 | csrrwi hop h3 | csrrsi hop h3 | csrrci hop h3 =>
    exact absurd h (by simp [unassignedWord_system hop, h3])

/-- The selectors of a row determine what a word decodes to. -/
theorem DecodesTo.decode_eq {w : Word} {i : Instr} (h : DecodesTo w i) : decode w = i := by
  cases h with
  | unimp h => exact (decodesTo_decode w).eq_unimp h
  | lui hop | auipc hop | jal hop | jalr hop => simp only [decode, hop]
  | beq hop h3 | bne hop h3 | blt hop h3 | bge hop h3 | bltu hop h3 | bgeu hop h3 =>
    simp only [decode, hop, decodeBranch, h3]
  | lb hop h3 | lh hop h3 | lw hop h3 | lbu hop h3 | lhu hop h3 => simp only [decode, hop, decodeLoad, h3]
  | sb hop h3 | sh hop h3 | sw hop h3 => simp only [decode, hop, decodeStore, h3]
  | addi hop h3 | slti hop h3 | sltiu hop h3 | xori hop h3 | ori hop h3 | andi hop h3 | slli hop h3 =>
    simp [decode, hop, decodeIntImm, h3]
  | srli hop h3 h30 | srai hop h3 h30 => simp [decode, hop, decodeIntImm, h3, h30]
  | mul hop h3 h7 | mulh hop h3 h7 | mulhsu hop h3 h7 | mulhu hop h3 h7 | div hop h3 h7 | divu hop h3 h7
  | rem hop h3 h7 | remu hop h3 h7 => simp [decode, hop, decodeMulDiv, h3, h7]
  | add hop h3 h7 | sub hop h3 h7 | srl hop h3 h7 | sra hop h3 h7 | sll hop h3 h7 | slt hop h3 h7 | sltu hop h3 h7
  | xor hop h3 h7 | or hop h3 h7 | and hop h3 h7 => simp [decode, hop, decodeIntReg, h3, h7]
  | ecall hop h3 h7 | ebreak hop h3 h7 | wfi hop h3 h7 => simp [decode, hop, decodeSystem, h3, h7]
  | csrrw hop h3 | csrrs hop h3 | csrrc hop h3 | csrr4 hop h3 | csrrwi hop h3 | csrrsi hop h3 | csrrci hop h3 =>
    simp [decode, hop, decodeSystem, h3]

/-- The words that decode to an `unimp` are those of the illegal set, each carried as it stands. -/
theorem decode_eq_unimp_iff {w v : Word} : decode w = .unimp v ↔ v = w ∧ unassignedWord w = true := by
  constructor
  · intro e
    have hd := decodesTo_decode w
    rw [e] at hd
    cases hd with
    | unimp h => exact ⟨rfl, h⟩
  · rintro ⟨rfl, h⟩
    exact (DecodesTo.unimp h).decode_eq

/-! ## The statements -/

/-- Settles O2: format by format, the fields of the canonical word are the operands, and the immediate read back from it
is the operand wherever that is in range (the `_of_fits` lemmas). -/
theorem decodeOfEncodeIsIdentity : Obligations.DecodeOfEncodeIsIdentity := by
  intro i hi
  cases i with
  | lui rd imm | auipc rd imm => simp [decode, encode, immU_encodeU_of_fits imm rd _ hi]
  | jal rd imm => simp [decode, encode, immJ_encodeJ_of_fits imm rd _ hi]
  | jalr rd rs1 imm => simp [decode, encode, immI_encodeI_of_fits imm rs1 _ rd _ hi]
  | beq rs1 rs2 imm | bne rs1 rs2 imm | blt rs1 rs2 imm | bge rs1 rs2 imm | bltu rs1 rs2 imm | bgeu rs1 rs2 imm =>
    simp [decode, decodeBranch, encode, immB_encodeB_of_fits imm rs2 rs1 _ _ hi]
  | lb rd rs1 imm | lh rd rs1 imm | lw rd rs1 imm | lbu rd rs1 imm | lhu rd rs1 imm =>
    simp [decode, decodeLoad, encode, immI_encodeI_of_fits imm rs1 _ rd _ hi]
  | sb rs1 rs2 imm | sh rs1 rs2 imm | sw rs1 rs2 imm =>
    simp [decode, decodeStore, encode, immS_encodeS_of_fits imm rs2 rs1 _ _ hi]
  | addi rd rs1 imm | slti rd rs1 imm | sltiu rd rs1 imm | xori rd rs1 imm | ori rd rs1 imm | andi rd rs1 imm =>
    simp [decode, decodeIntImm, encode, immI_encodeI_of_fits imm rs1 _ rd _ hi]
  | slli | srli | srai => simp [decode, decodeIntImm, encode, bitThirty_encodeR]
  | mul | mulh | mulhsu | mulhu | div | divu | rem | remu => simp [decode, decodeMulDiv, encode]
  | add | sub | srl | sra | sll | slt | sltu | xor | or | and => simp [decode, decodeIntReg, encode]
  | ecall | ebreak | wfi | csrrw | csrrs | csrrc | csrr4 | csrrwi | csrrsi | csrrci =>
    simp [decode, decodeSystem, encode]
  | unimp w => exact (DecodesTo.unimp hi).decode_eq

/-- Settles O6, by `decode_eq_unimp_iff`. -/
theorem unimpExactlyOnUnassignedWords : Obligations.UnimpExactlyOnUnassignedWords := by
  intro w
  refine ⟨?_, fun v e => (decode_eq_unimp_iff.mp e).1⟩
  rw [decode_eq_unimp_iff, and_iff_right rfl]

end Sys2Proof
end

section
/-! The five immediates as the rules word them (R64 to R68): the bits they take, their ranges, and that the offsets of
branches and jumps are even. -/

namespace Sys2Proof

/-! ## Bits -/

theorem immI_eq_sshiftRight (w : Word) : immI w = w.sshiftRight 20 := by
  apply BitVec.eq_of_getLsbD_eq; intro i hi
  simp only [immI, BitVec.getLsbD_signExtend, BitVec.getLsbD_sshiftRight, BitVec.getLsbD_extractLsb',
    BitVec.msb_eq_getLsbD_last]
  grind

theorem immS_getLsbD (w : Word) (k : Nat) (hk : k < 32) : (immS w).getLsbD k =
    if k < 5 then w.getLsbD (k + 7) else if k < 12 then w.getLsbD (k + 20) else w.getLsbD 31 := by
  simp only [immS, BitVec.getLsbD_signExtend, BitVec.getLsbD_append, BitVec.getLsbD_extractLsb',
    BitVec.msb_eq_getLsbD_last]
  grind

theorem immB_getLsbD (w : Word) (k : Nat) (hk : k < 32) : (immB w).getLsbD k =
    if k = 0 then false else if k < 5 then w.getLsbD (k + 7) else if k < 11 then w.getLsbD (k + 20)
    else if k = 11 then w.getLsbD 7 else w.getLsbD 31 := by
  simp only [immB, BitVec.getLsbD_signExtend, BitVec.getLsbD_append, BitVec.getLsbD_extractLsb',
    BitVec.msb_eq_getLsbD_last]
  grind

theorem immJ_getLsbD (w : Word) (k : Nat) (hk : k < 32) : (immJ w).getLsbD k =
    if k = 0 then false else if k < 11 then w.getLsbD (k + 20) else if k = 11 then w.getLsbD 20
    else if k < 20 then w.getLsbD k else w.getLsbD 31 := by
  simp only [immJ, BitVec.getLsbD_signExtend, BitVec.getLsbD_append, BitVec.getLsbD_extractLsb',
    BitVec.msb_eq_getLsbD_last]
  grind

theorem immU_eq_and_mask (w : Word) : immU w = w &&& 0xFFFFF000#32 := by
  apply BitVec.eq_of_getLsbD_eq; intro i hi
  simp only [immU, BitVec.getLsbD_append, BitVec.getLsbD_extractLsb', BitVec.getLsbD_and]
  interval_cases i <;> simp

/-! ## Ranges -/

/-- The range of a sign extension is that of the field it extends. -/
theorem toInt_signExtend_range {n : Nat} (x : BitVec (n + 1)) (hn : n + 1 ≤ 32) :
    -(2 ^ n : Int) ≤ (x.signExtend 32).toInt ∧ (x.signExtend 32).toInt ≤ 2 ^ n - 1 := by
  rw [BitVec.toInt_signExtend_of_le hn]
  exact ⟨BitVec.le_toInt x, Int.le_sub_one_of_lt BitVec.toInt_lt⟩

theorem immI_range (w : Word) : -2048 ≤ (immI w).toInt ∧ (immI w).toInt ≤ 2047 :=
  toInt_signExtend_range (n := 11) _ (by decide)

theorem immS_range (w : Word) : -2048 ≤ (immS w).toInt ∧ (immS w).toInt ≤ 2047 :=
  toInt_signExtend_range (n := 11) _ (by decide)

theorem even_of_getLsbD_zero {imm : Word} (h : imm.getLsbD 0 = false) : imm.toNat % 2 = 0 := by
  simpa [BitVec.getLsbD, Nat.testBit_zero] using h

theorem immB_even (w : Word) : (immB w).toNat % 2 = 0 := even_of_getLsbD_zero (immB_getLsbD w 0 (by decide))

theorem immJ_even (w : Word) : (immJ w).toNat % 2 = 0 := even_of_getLsbD_zero (immJ_getLsbD w 0 (by decide))

/-- An even word is even as a signed value too, so an odd upper bound is not reached. -/
theorem toInt_le_of_even {imm : Word} {k : Int} (h : imm.toNat % 2 = 0) (hle : imm.toInt ≤ 2 * k - 1) :
    imm.toInt ≤ 2 * k - 2 := by
  rw [BitVec.toInt_eq_toNat_cond] at *
  omega

theorem immB_range (w : Word) : -4096 ≤ (immB w).toInt ∧ (immB w).toInt ≤ 4094 :=
  have ⟨hlow, hhigh⟩ := toInt_signExtend_range (n := 12) _ (by decide)
  ⟨hlow, toInt_le_of_even (k := 2048) (immB_even w) hhigh⟩

theorem immJ_range (w : Word) : -1048576 ≤ (immJ w).toInt ∧ (immJ w).toInt ≤ 1048574 :=
  have ⟨hlow, hhigh⟩ := toInt_signExtend_range (n := 20) _ (by decide)
  ⟨hlow, toInt_le_of_even (k := 524288) (immJ_even w) hhigh⟩

theorem immU_mod (w : Word) : (immU w).toNat % 4096 = 0 := by
  rw [immU, BitVec.toNat_append, BitVec.toNat_ofNat, Nat.zero_mod, Nat.or_zero, Nat.shiftLeft_eq]
  exact Nat.mul_mod_left _ _

/-! ## The decoded immediates meet their checks -/

theorem immFits12_immI (w : Word) : immFits12 (immI w) = true := by simp [immFits12, immI_range w]

theorem immFits12_immS (w : Word) : immFits12 (immS w) = true := by simp [immFits12, immS_range w]

theorem immFitsBranch_immB (w : Word) : immFitsBranch (immB w) = true := by
  simp [immFitsBranch, immB_range w, immB_even w]

theorem immFitsUpper_immU (w : Word) : immFitsUpper (immU w) = true := by simp [immFitsUpper, immU_mod w]

theorem immFitsJump_immJ (w : Word) : immFitsJump (immJ w) = true := by
  simp [immFitsJump, immJ_range w, immJ_even w]

/-! ## The statements -/

/-- Settles O3: case by case of what the word decodes to, the immediate's own range; the case of `unimp` is itself the
claim. -/
theorem decodedInstructionsAreWellFormed : Obligations.DecodedInstructionsAreWellFormed := by
  intro w
  have hd := decodesTo_decode w
  generalize decode w = i at hd ⊢
  cases hd with
  | lui | auipc => exact immFitsUpper_immU w
  | jal => exact immFitsJump_immJ w
  | beq | bne | blt | bge | bltu | bgeu => exact immFitsBranch_immB w
  | jalr | lb | lh | lw | lbu | lhu | addi | slti | sltiu | xori | ori | andi => exact immFits12_immI w
  | sb | sh | sw => exact immFits12_immS w
  | unimp h => exact h
  | _ => rfl

/-- Settles O8: the lemmas on bits and ranges, and the rules' examples by evaluation. -/
theorem immediatesAreTheNamedBits : Obligations.ImmediatesAreTheNamedBits := fun w =>
  ⟨⟨immI_eq_sshiftRight w, immI_range w⟩, ⟨rfl, immS_range w⟩, immB_getLsbD w, ⟨immB_even w, immB_range w⟩,
    immU_eq_and_mask w, immJ_getLsbD w, ⟨immJ_even w, immJ_range w⟩, by decide⟩

end Sys2Proof
end

section
/-! A word put together again from its fields, format by format (R61, R63), and the bits of a word that R75 leaves
examined. -/

namespace Sys2Proof

/-! ## A word is what its format makes of its fields (R63) -/

@[simp] theorem imm12Of_immI (w : Word) : imm12Of (immI w) = csrOf w := by
  apply BitVec.eq_of_getLsbD_eq; intro i hi; simp [imm12Of, immI, csrOf]; grind

section
variable {w : Word} {op : BitVec 7} {f3 : BitVec 3} {f7 : BitVec 7}

theorem encodeU_of_fields (hop : opcodeOf w = op) : encodeU (immU w) (rdOf w) op = w := by
  subst hop
  apply BitVec.eq_of_getLsbD_eq; intro i hi; simp [encodeU, immU, rdOf, opcodeOf]; grind

theorem encodeJ_of_fields (hop : opcodeOf w = op) : encodeJ (immJ w) (rdOf w) op = w := by
  subst hop
  apply BitVec.eq_of_getLsbD_eq; intro i hi
  simp only [encodeJ, rdOf, opcodeOf, BitVec.getLsbD_append, BitVec.getLsbD_extractLsb']
  grind [immJ_getLsbD]

theorem encodeB_of_fields (h3 : funct3Of w = f3) (hop : opcodeOf w = op) :
    encodeB (immB w) (rs2Of w) (rs1Of w) f3 op = w := by
  subst h3 hop
  apply BitVec.eq_of_getLsbD_eq; intro i hi
  simp only [encodeB, rs2Of, rs1Of, funct3Of, opcodeOf, BitVec.getLsbD_append, BitVec.getLsbD_extractLsb']
  grind [immB_getLsbD]

theorem encodeI_of_fields (h3 : funct3Of w = f3) (hop : opcodeOf w = op) :
    encodeI (csrOf w) (rs1Of w) f3 (rdOf w) op = w := by
  subst h3 hop
  apply BitVec.eq_of_getLsbD_eq; intro i hi; simp [encodeI, csrOf, rs1Of, funct3Of, rdOf, opcodeOf]; grind

theorem encodeI_immI_of_fields (h3 : funct3Of w = f3) (hop : opcodeOf w = op) :
    encodeI (imm12Of (immI w)) (rs1Of w) f3 (rdOf w) op = w := by
  rw [imm12Of_immI, encodeI_of_fields h3 hop]

theorem encodeS_of_fields (h3 : funct3Of w = f3) (hop : opcodeOf w = op) :
    encodeS (immS w) (rs2Of w) (rs1Of w) f3 op = w := by
  subst h3 hop
  apply BitVec.eq_of_getLsbD_eq; intro i hi
  simp only [encodeS, rs2Of, rs1Of, funct3Of, opcodeOf, BitVec.getLsbD_append, BitVec.getLsbD_extractLsb']
  grind [immS_getLsbD]

theorem encodeR_of_fields (h7 : funct7Of w = f7) (h3 : funct3Of w = f3) (hop : opcodeOf w = op) :
    encodeR f7 (rs2Of w) (rs1Of w) f3 (rdOf w) op = w := by
  subst h7 h3 hop
  apply BitVec.eq_of_getLsbD_eq; intro i hi; simp [encodeR, funct7Of, rs2Of, rs1Of, funct3Of, rdOf, opcodeOf]; grind

end

theorem encode_and_of_eq {i : Instr} {w m : Word} (h : encode i = w) : encode i &&& m = w &&& m := by rw [h]

/-! ## What the bits R75 leaves examined keep of a word -/

/-- JALR. -/
theorem and_mask_allButFunct3 (w : Word) :
    w &&& 0xFFFF8FFF#32 = (csrOf w ++ rs1Of w ++ 0#3 ++ rdOf w ++ opcodeOf w : BitVec 32) := by
  apply BitVec.eq_of_getLsbD_eq; intro i hi
  simp only [csrOf, rs1Of, rdOf, opcodeOf, BitVec.getLsbD_append, BitVec.getLsbD_extractLsb', BitVec.getLsbD_and]
  interval_cases i <;> simp

/-- SLLI and the register forms whose funct7 is not examined. -/
theorem and_mask_allButFunct7 (w : Word) :
    w &&& 0x01FFFFFF#32 = (0#7 ++ rs2Of w ++ rs1Of w ++ funct3Of w ++ rdOf w ++ opcodeOf w : BitVec 32) := by
  apply BitVec.eq_of_getLsbD_eq; intro i hi
  simp only [rs2Of, rs1Of, funct3Of, rdOf, opcodeOf, BitVec.getLsbD_append, BitVec.getLsbD_extractLsb',
    BitVec.getLsbD_and]
  interval_cases i <;> simp

/-- SRLI and SRAI: of funct7, bit 30 alone. -/
theorem and_mask_rightShift (w : Word) :
    w &&& 0x41FFFFFF#32 =
      (0#1 ++ w.extractLsb' 30 1 ++ 0#5 ++ rs2Of w ++ rs1Of w ++ funct3Of w ++ rdOf w ++ opcodeOf w : BitVec 32) := by
  apply BitVec.eq_of_getLsbD_eq; intro i hi
  simp only [rs2Of, rs1Of, funct3Of, rdOf, opcodeOf, BitVec.getLsbD_append, BitVec.getLsbD_extractLsb',
    BitVec.getLsbD_and]
  interval_cases i <;> simp

/-- CSRR4. -/
theorem and_mask_allButRs1 (w : Word) :
    w &&& 0xFFF07FFF#32 = (csrOf w ++ 0#5 ++ funct3Of w ++ rdOf w ++ opcodeOf w : BitVec 32) := by
  apply BitVec.eq_of_getLsbD_eq; intro i hi
  simp only [csrOf, funct3Of, rdOf, opcodeOf, BitVec.getLsbD_append, BitVec.getLsbD_extractLsb', BitVec.getLsbD_and]
  interval_cases i <;> simp

/-! ## A field inside the examined bits -/

/-- Two words that agree under a mask agree on a field the mask covers. -/
theorem extractLsb'_eq_of_and_eq {v w m : Word} {start len : Nat} (h : v &&& m = w &&& m)
    (hm : m.extractLsb' start len = BitVec.allOnes len) : v.extractLsb' start len = w.extractLsb' start len := by
  have e := congrArg (BitVec.extractLsb' start len) h
  simpa only [BitVec.extractLsb'_and, hm, BitVec.and_allOnes] using e

section
variable {v w : Word}

/-- The fields below funct7, under any mask that covers them. -/
theorem registerFields_eq {m : Word} (h : v &&& m = w &&& m) (hm : m &&& 0x01FFFFFF#32 = 0x01FFFFFF#32) :
    opcodeOf v = opcodeOf w ∧ funct3Of v = funct3Of w ∧ rdOf v = rdOf w ∧ rs1Of v = rs1Of w ∧ rs2Of v = rs2Of w := by
  have h' : v &&& 0x01FFFFFF#32 = w &&& 0x01FFFFFF#32 := by
    rw [← hm, ← BitVec.and_assoc, h, BitVec.and_assoc]
  refine ⟨?_, ?_, ?_, ?_, ?_⟩ <;> exact extractLsb'_eq_of_and_eq h' (by decide)

/-! ## Decoding looks at no other bit (R75) -/

theorem decode_jalr_congr (hop : opcodeOf w = 0x67#7) (h : v &&& 0xFFFF8FFF#32 = w &&& 0xFFFF8FFF#32) :
    decode v = decode w := by
  have eop : opcodeOf v = opcodeOf w := extractLsb'_eq_of_and_eq h (by decide)
  have erd : rdOf v = rdOf w := extractLsb'_eq_of_and_eq h (by decide)
  have ers1 : rs1Of v = rs1Of w := extractLsb'_eq_of_and_eq h (by decide)
  have ecsr : csrOf v = csrOf w := extractLsb'_eq_of_and_eq h (by decide)
  have eimm : immI v = immI w := congrArg (BitVec.signExtend 32) ecsr
  rw [(DecodesTo.jalr hop).decode_eq, (DecodesTo.jalr (eop.trans hop)).decode_eq, erd, ers1, eimm]

theorem decode_slli_congr (hop : opcodeOf w = 0x13#7) (h3 : funct3Of w = 1#3)
    (h : v &&& 0x01FFFFFF#32 = w &&& 0x01FFFFFF#32) : decode v = decode w := by
  obtain ⟨eop, e3, erd, ers1, ers2⟩ := registerFields_eq h (by decide)
  rw [(DecodesTo.slli hop h3).decode_eq, (DecodesTo.slli (eop.trans hop) (e3.trans h3)).decode_eq, erd, ers1, ers2]

theorem decode_rightShift_congr (hop : opcodeOf w = 0x13#7) (h3 : funct3Of w = 5#3)
    (h : v &&& 0x41FFFFFF#32 = w &&& 0x41FFFFFF#32) : decode v = decode w := by
  obtain ⟨eop, e3, erd, ers1, ers2⟩ := registerFields_eq h (by decide)
  have e30 : v.extractLsb' 30 1 = w.extractLsb' 30 1 := extractLsb'_eq_of_and_eq h (by decide)
  rcases BitVec.eq_zero_or_eq_one (w.extractLsb' 30 1) with h30 | h30
  · rw [(DecodesTo.srli hop h3 h30).decode_eq,
      (DecodesTo.srli (eop.trans hop) (e3.trans h3) (e30.trans h30)).decode_eq, erd, ers1, ers2]
  · rw [(DecodesTo.srai hop h3 h30).decode_eq,
      (DecodesTo.srai (eop.trans hop) (e3.trans h3) (e30.trans h30)).decode_eq, erd, ers1, ers2]

theorem decode_of_intReg (hop : opcodeOf w = 0x33#7) (h7 : funct7Of w ≠ 1#7) : decode w = decodeIntReg w := by
  simp [decode, hop, h7]

/-- Only funct3 = 0 and 5 examine funct7 further (R161). -/
theorem decodeIntReg_congr (n0 : funct3Of w ≠ 0#3) (n5 : funct3Of w ≠ 5#3)
    (h : v &&& 0x01FFFFFF#32 = w &&& 0x01FFFFFF#32) : decodeIntReg v = decodeIntReg w := by
  obtain ⟨-, e3, erd, ers1, ers2⟩ := registerFields_eq h (by decide)
  simp only [decodeIntReg, e3, erd, ers1, ers2]
  split
  case h_1 h0 => exact absurd h0 n0
  case h_6 h5 => exact absurd h5 n5
  all_goals rfl

/-- ECALL, EBREAK and WFI are told apart by funct7 alone (R73). -/
theorem decode_funct7_congr (hop : opcodeOf w = 0x73#7) (h3 : funct3Of w = 0#3)
    (h7 : funct7Of w = 0#7 ∨ funct7Of w = 1#7 ∨ funct7Of w = 8#7) (h : v &&& 0xFE00707F#32 = w &&& 0xFE00707F#32) :
    decode v = decode w := by
  have eop : opcodeOf v = opcodeOf w := extractLsb'_eq_of_and_eq h (by decide)
  have e3 : funct3Of v = funct3Of w := extractLsb'_eq_of_and_eq h (by decide)
  have e7 : funct7Of v = funct7Of w := extractLsb'_eq_of_and_eq h (by decide)
  rcases h7 with h7 | h7 | h7
  · rw [(DecodesTo.ecall hop h3 h7).decode_eq, (DecodesTo.ecall (eop.trans hop) (e3.trans h3) (e7.trans h7)).decode_eq]
  · rw [(DecodesTo.ebreak hop h3 h7).decode_eq,
      (DecodesTo.ebreak (eop.trans hop) (e3.trans h3) (e7.trans h7)).decode_eq]
  · rw [(DecodesTo.wfi hop h3 h7).decode_eq, (DecodesTo.wfi (eop.trans hop) (e3.trans h3) (e7.trans h7)).decode_eq]

theorem decode_csrr4_congr (hop : opcodeOf w = 0x73#7) (h3 : funct3Of w = 4#3)
    (h : v &&& 0xFFF07FFF#32 = w &&& 0xFFF07FFF#32) : decode v = decode w := by
  have eop : opcodeOf v = opcodeOf w := extractLsb'_eq_of_and_eq h (by decide)
  have e3 : funct3Of v = funct3Of w := extractLsb'_eq_of_and_eq h (by decide)
  have erd : rdOf v = rdOf w := extractLsb'_eq_of_and_eq h (by decide)
  have ecsr : csrOf v = csrOf w := extractLsb'_eq_of_and_eq h (by decide)
  rw [(DecodesTo.csrr4 hop h3).decode_eq, (DecodesTo.csrr4 (eop.trans hop) (e3.trans h3)).decode_eq, erd, ecsr]

end

/-! ## The statements -/

/-- Settles O4: a word whose every bit is examined is what its format makes of its fields; for the others the two masked
words have the same fields. -/
theorem encodeKeepsExaminedBits : Obligations.EncodeKeepsExaminedBits := by
  intro w
  have hd := decodesTo_decode w
  generalize decode w = i at hd ⊢
  cases hd with
  | lui hop | auipc hop => exact encode_and_of_eq (encodeU_of_fields hop)
  | jal hop => exact encode_and_of_eq (encodeJ_of_fields hop)
  | jalr hop =>
    change _ &&& 0xFFFF8FFF#32 = w &&& 0xFFFF8FFF#32
    simp [encode, and_mask_allButFunct3, hop]
  | beq hop h3 | bne hop h3 | blt hop h3 | bge hop h3 | bltu hop h3 | bgeu hop h3 =>
    exact encode_and_of_eq (encodeB_of_fields h3 hop)
  | lb hop h3 | lh hop h3 | lw hop h3 | lbu hop h3 | lhu hop h3 | addi hop h3 | slti hop h3 | sltiu hop h3 | xori hop h3
  | ori hop h3 | andi hop h3 => exact encode_and_of_eq (encodeI_immI_of_fields h3 hop)
  | sb hop h3 | sh hop h3 | sw hop h3 => exact encode_and_of_eq (encodeS_of_fields h3 hop)
  | slli hop h3 | sll hop h3 | slt hop h3 | sltu hop h3 | xor hop h3 | or hop h3 | and hop h3 =>
    change _ &&& 0x01FFFFFF#32 = w &&& 0x01FFFFFF#32
    simp [encode, and_mask_allButFunct7, h3, hop]
  | srli hop h3 h30 | srai hop h3 h30 =>
    change _ &&& 0x41FFFFFF#32 = w &&& 0x41FFFFFF#32
    simp [encode, and_mask_rightShift, bitThirty_encodeR, h30, h3, hop]
  | mul hop h3 h7 | mulh hop h3 h7 | mulhsu hop h3 h7 | mulhu hop h3 h7 | div hop h3 h7 | divu hop h3 h7
  | rem hop h3 h7 | remu hop h3 h7 | add hop h3 h7 | sub hop h3 h7 | srl hop h3 h7 | sra hop h3 h7 =>
    exact encode_and_of_eq (encodeR_of_fields h7 h3 hop)
  | ecall hop h3 h7 | ebreak hop h3 h7 | wfi hop h3 h7 =>
    change _ &&& 0xFE00707F#32 = w &&& 0xFE00707F#32
    simp [encode, and_mask_funct7, h7, h3, hop]
  | csrrw hop h3 | csrrs hop h3 | csrrc hop h3 | csrrwi hop h3 | csrrsi hop h3 | csrrci hop h3 =>
    exact encode_and_of_eq (encodeI_of_fields h3 hop)
  | csrr4 hop h3 =>
    change _ &&& 0xFFF07FFF#32 = w &&& 0xFFF07FFF#32
    simp [encode, and_mask_allButRs1, h3, hop]
  | unimp => rfl

/-- Settles O7: one lemma for each case R75 lists. -/
theorem unexaminedBitsDoNotSelect : Obligations.UnexaminedBitsDoNotSelect := by
  intro w v
  refine ⟨decode_jalr_congr, decode_slli_congr, decode_rightShift_congr, fun hop n0 n5 h7 h7v h => ?intReg,
    decode_funct7_congr, decode_csrr4_congr⟩
  case intReg =>
    have hopv : opcodeOf v = 0x33#7 := (registerFields_eq h (by decide)).1.trans hop
    rw [decode_of_intReg hop h7, decode_of_intReg hopv h7v, decodeIntReg_congr n0 n5 h]

end Sys2Proof
end

section
/-! The opcode table by fields (R72): each row says which values of opcode, funct3, funct7 or bit 30 it matches, and the
rows of an opcode stand together. -/

namespace Sys2Proof

/-! ## The four kinds of row -/

/-- A row that examines the opcode alone. -/
def rowOfOpcode (op : BitVec 7) : Word × Word := (0#25 ++ op, 0x0000007F#32)

/-- A row that examines the opcode and funct3. -/
def rowOfFunct3 (op : BitVec 7) (f3 : BitVec 3) : Word × Word := (0#17 ++ f3 ++ 0#5 ++ op, 0x0000707F#32)

/-- A row that examines the opcode, funct3 and funct7. -/
def rowOfFunct7 (op f7 : BitVec 7) (f3 : BitVec 3) : Word × Word :=
  (f7 ++ 0#10 ++ f3 ++ 0#5 ++ op, 0xFE00707F#32)

/-- A row that examines the opcode, funct3 and bit 30. -/
def rowOfBitThirty (op : BitVec 7) (f3 : BitVec 3) (b : BitVec 1) : Word × Word :=
  (0#1 ++ b ++ 0#15 ++ f3 ++ 0#5 ++ op, 0x4000707F#32)

theorem append_inj_iff {m n : Nat} {a b : BitVec m} {c d : BitVec n} : a ++ c = b ++ d ↔ a = b ∧ c = d := by
  refine ⟨fun h => ⟨?high, ?low⟩, fun ⟨ha, hc⟩ => by rw [ha, hc]⟩
  case high => rw [← BitVec.extractLsb'_append_eq_left (a := a) (b := c), h, BitVec.extractLsb'_append_eq_left]
  case low => rw [← BitVec.extractLsb'_append_eq_right (a := a) (b := c), h, BitVec.extractLsb'_append_eq_right]

section
variable (w : Word) (op f7 : BitVec 7) (f3 : BitVec 3) (b : BitVec 1)

theorem rowMatches_rowOfOpcode : rowMatches w (rowOfOpcode op) = decide (opcodeOf w = op) := by
  simp only [rowMatches, rowOfOpcode, and_mask_opcode, append_inj_iff (n := 7), true_and]

theorem rowMatches_rowOfFunct3 :
    rowMatches w (rowOfFunct3 op f3) = decide (funct3Of w = f3 ∧ opcodeOf w = op) := by
  simp only [rowMatches, rowOfFunct3, and_mask_funct3, append_inj_iff (n := 7), append_inj_iff, true_and, and_true]

theorem rowMatches_rowOfFunct7 :
    rowMatches w (rowOfFunct7 op f7 f3) = decide ((funct7Of w = f7 ∧ funct3Of w = f3) ∧ opcodeOf w = op) := by
  simp only [rowMatches, rowOfFunct7, and_mask_funct7, append_inj_iff (n := 7), append_inj_iff, and_true]

theorem rowMatches_rowOfBitThirty :
    rowMatches w (rowOfBitThirty op f3 b) =
      decide ((w.extractLsb' 30 1 = b ∧ funct3Of w = f3) ∧ opcodeOf w = op) := by
  simp only [rowMatches, rowOfBitThirty, and_mask_bitThirty, append_inj_iff (n := 7), append_inj_iff, true_and,
    and_true]

@[simp] theorem rowMatches_catchAll : rowMatches w (0#32, 0#32) = true := by simp [rowMatches]

end

/-! ## The search, one opcode's rows at a time -/

/-- Rows of one opcode are searched only for a word of that opcode. -/
theorem find?_rows_of_opcode {α : Type} {w : Word} {op : BitVec 7} {row : α → Word × Word} {p : α → Prop}
    [DecidablePred p] (hrow : ∀ a, rowMatches w (row a) = decide (p a ∧ opcodeOf w = op)) (as : List α) :
    (as.map row).find? (rowMatches w) = if opcodeOf w = op then (as.find? fun a => decide (p a)).map row else none := by
  rw [List.find?_map, Function.comp_def]
  by_cases hop : opcodeOf w = op <;> simp [hrow, hop]

section
variable (w : Word) (op f7 : BitVec 7) (f3 : BitVec 3)

theorem find?_rowOfOpcode (ops : List (BitVec 7)) :
    (ops.map rowOfOpcode).find? (rowMatches w) = (ops.find? fun op => opcodeOf w = op).map rowOfOpcode := by
  simp only [List.find?_map, Function.comp_def, rowMatches_rowOfOpcode]

theorem find?_rowOfFunct3 (f3s : List (BitVec 3)) :
    (f3s.map (rowOfFunct3 op)).find? (rowMatches w) =
      if opcodeOf w = op then (f3s.find? fun f3 => funct3Of w = f3).map (rowOfFunct3 op) else none :=
  find?_rows_of_opcode (rowMatches_rowOfFunct3 w op) f3s

theorem find?_rowOfFunct7 (f3s : List (BitVec 3)) :
    (f3s.map (rowOfFunct7 op f7)).find? (rowMatches w) =
      if opcodeOf w = op then (f3s.find? fun f3 => funct7Of w = f7 ∧ funct3Of w = f3).map (rowOfFunct7 op f7)
      else none :=
  find?_rows_of_opcode (rowMatches_rowOfFunct7 w op f7) f3s

theorem find?_rowOfFunct7_funct3 (f7s : List (BitVec 7)) :
    (f7s.map (rowOfFunct7 op · f3)).find? (rowMatches w) =
      if opcodeOf w = op then (f7s.find? fun f7 => funct7Of w = f7 ∧ funct3Of w = f3).map (rowOfFunct7 op · f3)
      else none :=
  find?_rows_of_opcode (rowMatches_rowOfFunct7 w op · f3) f7s

theorem find?_rowOfBitThirty (bs : List (BitVec 1)) :
    (bs.map (rowOfBitThirty op f3)).find? (rowMatches w) =
      if opcodeOf w = op then
        (bs.find? fun b => w.extractLsb' 30 1 = b ∧ funct3Of w = f3).map (rowOfBitThirty op f3)
      else none :=
  find?_rows_of_opcode (rowMatches_rowOfBitThirty w op f3) bs

end

/-- spec/opcode_table.json's rows by fields, in its order. -/
theorem opcodeTable_eq_fields : opcodeTable =
    [0x37, 0x17, 0x6F, 0x67].map rowOfOpcode ++ [0, 1, 4, 5, 6, 7].map (rowOfFunct3 0x63) ++
    [0, 1, 2, 4, 5].map (rowOfFunct3 0x03) ++ [0, 1, 2].map (rowOfFunct3 0x23) ++
    [0, 2, 3, 4, 6, 7, 1].map (rowOfFunct3 0x13) ++ [0, 1].map (rowOfBitThirty 0x13 5) ++
    [0, 1, 2, 3, 4, 5, 6, 7].map (rowOfFunct7 0x33 0x01) ++ [0x00, 0x20].map (rowOfFunct7 0x33 · 0) ++
    [0x00, 0x20].map (rowOfFunct7 0x33 · 5) ++ [1, 2, 3, 4, 6, 7].map (rowOfFunct3 0x33) ++
    [0x00, 0x01, 0x08].map (rowOfFunct7 0x73 · 0) ++ [1, 2, 3, 4, 5, 6, 7].map (rowOfFunct3 0x73) ++ [(0, 0)] := rfl

/-- No selector of a row before the last is among the unassigned ones. -/
theorem find?_opcodeTable_of_unassigned {w : Word} (h : unassignedWord w = true) :
    opcodeTable.find? (rowMatches w) = some (0#32, 0#32) := by
  simp only [opcodeTable_eq_fields, List.find?_append, find?_rowOfOpcode, find?_rowOfFunct3, find?_rowOfFunct7,
    find?_rowOfFunct7_funct3, find?_rowOfBitThirty]
  by_cases hbranch : opcodeOf w = 0x63#7
  · rcases (unassignedWord_branch hbranch).mp h with h3 | h3 <;> simp [hbranch, h3]
  by_cases hload : opcodeOf w = 0x03#7
  · rcases (unassignedWord_load hload).mp h with h3 | h3 | h3 <;> simp [hload, h3]
  by_cases hstore : opcodeOf w = 0x23#7
  · have h3 := (unassignedWord_store hstore).mp h
    have n0 : funct3Of w ≠ 0#3 := by bv_omega
    have n1 : funct3Of w ≠ 1#3 := by bv_omega
    have n2 : funct3Of w ≠ 2#3 := by bv_omega
    simp [hstore, n0, n1, n2]
  by_cases hreg : opcodeOf w = 0x33#7
  · obtain ⟨h3 | h3, n0, n1, n2⟩ := (unassignedWord_intReg hreg).mp h <;> simp [hreg, h3, n0, n1, n2]
  by_cases hsystem : opcodeOf w = 0x73#7
  · obtain ⟨h3, n0, n1, n8⟩ := (unassignedWord_system hsystem).mp h
    simp [hsystem, h3, n0, n1, n8]
  have hrest := mt (unassignedWord_of_assigned_opcode (w := w)) (by simp [h])
  simp only [not_or] at hrest
  simp [hbranch, hload, hstore, hreg, hsystem, hrest]

/-! ## The statement -/

/-- Settles O5: a word of the illegal set falls through to the last row; for any other, the selectors of its case leave
the rows of its opcode, of which the first that matches is its own. -/
theorem decodeAgreesWithOpcodeTable : Obligations.DecodeAgreesWithOpcodeTable := by
  intro w
  by_cases hu : unassignedWord w = true
  · rw [(DecodesTo.unimp hu).decode_eq]
    exact find?_opcodeTable_of_unassigned hu
  have hd := decodesTo_decode w
  generalize decode w = i at hd ⊢
  simp only [opcodeTable_eq_fields, List.find?_append, find?_rowOfOpcode, find?_rowOfFunct3, find?_rowOfFunct7,
    find?_rowOfFunct7_funct3, find?_rowOfBitThirty]
  cases hd with
  | unimp h => exact absurd h hu
  | lui hop | auipc hop | jal hop | jalr hop =>
    simp [hop]
    rfl
  | beq hop h3 | bne hop h3 | blt hop h3 | bge hop h3 | bltu hop h3 | bgeu hop h3 | lb hop h3 | lh hop h3 | lw hop h3
  | lbu hop h3 | lhu hop h3 | sb hop h3 | sh hop h3 | sw hop h3 | addi hop h3 | slti hop h3 | sltiu hop h3 | xori hop h3
  | ori hop h3 | andi hop h3 | slli hop h3 | csrrw hop h3 | csrrs hop h3 | csrrc hop h3 | csrr4 hop h3 | csrrwi hop h3
  | csrrsi hop h3 | csrrci hop h3 =>
    simp [hop, h3]
    rfl
  | srli hop h3 h30 | srai hop h3 h30 =>
    simp [hop, h3, h30]
    rfl
  | sll hop h3 h7 | slt hop h3 h7 | sltu hop h3 h7 | xor hop h3 h7 | or hop h3 h7 | and hop h3 h7 =>
    simp [hop, h3, h7]
    rfl
  | mul hop h3 h7 | mulh hop h3 h7 | mulhsu hop h3 h7 | mulhu hop h3 h7 | div hop h3 h7 | divu hop h3 h7
  | rem hop h3 h7 | remu hop h3 h7 | add hop h3 h7 | sub hop h3 h7 | srl hop h3 h7 | sra hop h3 h7 | ecall hop h3 h7
  | ebreak hop h3 h7 | wfi hop h3 h7 =>
    simp [hop, h3, h7]
    rfl

end Sys2Proof
end

section
/-! The host's answers (R102): a meaning that asks the host nothing does the same whatever the counter of the answers
taken stands at. -/

namespace Sys2Proof.Machine

/-- The state with the counter at `d`: other answers of the host are still to come. -/
def State.withDraws (s : State) (d : Nat) : State := { s with draws := d }

/-! ## The operations do the same at any counter -/

section
variable (s : State) (d : Nat)

@[simp] theorem State.withDraws_cfg : (s.withDraws d).cfg = s.cfg := rfl

@[simp] theorem State.withDraws_draws : (s.withDraws d).draws = d := rfl

@[simp] theorem readReg_withDraws (r : RegIdx) : readReg (s.withDraws d) r = readReg s r := rfl

@[simp] theorem baseAddress_withDraws (rs1 : RegIdx) (imm : Word) :
    baseAddress (s.withDraws d) rs1 imm = baseAddress s rs1 imm := rfl

@[simp] theorem memRead_withDraws (addr : Word) (w : Width) : memRead (s.withDraws d) addr w = memRead s addr w := rfl

theorem writeReg_withDraws (rd : RegIdx) (v : Word) :
    writeReg (s.withDraws d) rd v = (writeReg s rd v).withDraws d := by
  by_cases h : rd = 0#5
  · simp only [h, writeReg_zero]
  · simp only [writeReg, if_neg h]; rfl

theorem jumpTo_withDraws (target : Word) : jumpTo (s.withDraws d) target = (jumpTo s target).withDraws d := by
  rw [jumpTo, jumpTo]
  cases targetMisaligned target <;> rfl

theorem memWrite_withDraws (addr : Word) (w : Width) (v : Word) :
    memWrite (s.withDraws d) addr w v = (memWrite s addr w v).map (·.withDraws d) := by
  rw [memWrite, memWrite, accessHalt_congr (t := s.withDraws d) (s := s) rfl]
  cases accessHalt s addr w <;> rfl

theorem load_withDraws (w : Width) (extend : Word → Word) (rd rs1 : RegIdx) (imm : Word) :
    load w extend rd rs1 imm (s.withDraws d) = (load w extend rd rs1 imm s).withDraws d := by
  rw [load, load, baseAddress_withDraws, memRead_withDraws]
  cases memRead s (baseAddress s rs1 imm) w with
  | error status => rfl
  | ok v => exact congrArg advance (writeReg_withDraws s d rd (extend v))

theorem htifWrite_withDraws (ptr len : Word) :
    htifWrite (s.withDraws d) ptr len = (htifWrite s ptr len).map (·.withDraws d) := by
  have hr : rangeOutOfBounds (s.withDraws d) ptr len = rangeOutOfBounds s ptr len := rfl
  rw [htifWrite, htifWrite, hr]
  cases rangeOutOfBounds s ptr len <;> rfl

theorem acknowledge_withDraws : acknowledge (s.withDraws d) = (acknowledge s).map (·.withDraws d) := by
  have hb : beyondCapacity (s.withDraws d) (s.withDraws d).cfg.fromhostAddr 4 =
    beyondCapacity s s.cfg.fromhostAddr 4 := rfl
  rw [acknowledge, acknowledge, hb]
  cases beyondCapacity s s.cfg.fromhostAddr 4 <;> rfl

theorem magicSyscall_withDraws (p : Word) : magicSyscall (s.withDraws d) p = (magicSyscall s p).withDraws d := by
  have hd : readDescriptor (s.withDraws d) p = readDescriptor s p := rfl
  rw [magicSyscall, magicSyscall, hd]
  cases readDescriptor s p with
  | error status => rfl
  | ok entries =>
    simp only [htifWrite_withDraws]
    cases htifWrite s entries.1 entries.2 with
    | error status => rfl
    | ok written =>
      simp only [Except.map, acknowledge_withDraws]
      cases acknowledge written <;> rfl

theorem tohostStore_withDraws (v : Word) : tohostStore (s.withDraws d) v = (tohostStore s v).withDraws d := by
  rw [tohostStore, tohostStore, magicSyscall_withDraws]
  cases v.getLsbD 0 <;> rfl

theorem store_withDraws (w : Width) (rs1 rs2 : RegIdx) (imm : Word) :
    store w rs1 rs2 imm (s.withDraws d) = (store w rs1 rs2 imm s).withDraws d := by
  by_cases hu : effective (baseAddress s rs1 imm) = s.cfg.uartAddr
  · rw [store_uart hu, store_uart (s := s.withDraws d) hu]; rfl
  by_cases ht : effective (baseAddress s rs1 imm) = s.cfg.tohostAddr
  · rw [store_tohost hu ht, store_tohost (s := s.withDraws d) hu ht]
    exact tohostStore_withDraws s d _
  simp only [store, baseAddress_withDraws, readReg_withDraws, State.withDraws_cfg, memWrite_withDraws,
    if_neg hu, if_neg ht]
  cases memWrite s (baseAddress s rs1 imm) w (readReg s rs2) <;> rfl

theorem csrRead_withDraws {csr : BitVec 12} (h : csrTakesDraw csr = false) :
    csrRead (s.withDraws d) csr = csrRead s csr := by
  obtain ⟨hlow, hhigh⟩ : csr ≠ csrMcycle ∧ csr ≠ csrMcycleh := by simpa [csrTakesDraw] using h
  simp only [csrRead, if_neg hlow, if_neg hhigh]
  rfl

end

/-! ## The meanings, one lemma for each shape -/

/-- The instruction does the same with the counter at `d`, and leaves it there. -/
def AnswersUnseen (i : Instr) (s : State) (d : Nat) : Prop :=
  ∃ t, exec i s = .next t ∧ exec i (s.withDraws d) = .next (t.withDraws d)

section
variable {i : Instr} {s : State} {d : Nat}

theorem answersUnseen_of_writeBack {rd : RegIdx} {v : Word} (e : exec i s = writeBack s rd v)
    (e' : exec i (s.withDraws d) = writeBack (s.withDraws d) rd v) : AnswersUnseen i s d := by
  rw [writeBack, writeReg_withDraws] at e'
  exact ⟨_, e, e'⟩

theorem answersUnseen_of_jumpAndLink {rd : RegIdx} {target : Word} (e : exec i s = jumpAndLink s rd target)
    (e' : exec i (s.withDraws d) = jumpAndLink (s.withDraws d) rd target) : AnswersUnseen i s d := by
  refine ⟨_, e, e'.trans (congrArg Host.Outcome.next ?_)⟩
  rw [writeReg_withDraws]
  cases targetMisaligned target <;> rfl

theorem answersUnseen_of_branchIf {taken : Bool} {imm : Word} (e : exec i s = branchIf taken s imm)
    (e' : exec i (s.withDraws d) = branchIf taken (s.withDraws d) imm) : AnswersUnseen i s d := by
  cases taken with
  | false => exact ⟨_, e, e'⟩
  | true => exact ⟨_, e, e'.trans (congrArg Host.Outcome.next (jumpTo_withDraws s d (pcRelative s imm)))⟩

theorem answersUnseen_of_load {w : Width} {extend : Word → Word} {rd rs1 : RegIdx} {imm : Word}
    (e : ∀ s, exec i s = .next (load w extend rd rs1 imm s)) : AnswersUnseen i s d :=
  ⟨_, e s, (e _).trans (congrArg _ (load_withDraws s d w extend rd rs1 imm))⟩

theorem answersUnseen_of_store {w : Width} {rs1 rs2 : RegIdx} {imm : Word}
    (hi : storeOperands i = some (w, rs1, rs2, imm)) : AnswersUnseen i s d :=
  ⟨_, exec_store hi s, (exec_store hi _).trans (congrArg _ (store_withDraws s d w rs1 rs2 imm))⟩

theorem answersUnseen_of_csrInstr {rd : RegIdx} {csr : BitVec 12} (e : ∀ s, exec i s = csrInstr s rd csr)
    (h : csrTakesDraw csr = false) : AnswersUnseen i s d := by
  simp only [csrInstr, afterCsrRead, h, Bool.false_eq_true, if_false] at e
  exact answersUnseen_of_writeBack (e s) ((e _).trans (by rw [csrRead_withDraws s d h]))

/-- The exit, the write and the ignored call; the forwarded one is excluded. -/
theorem answersUnseen_of_ecall (h : ecallIsForwarded s = false) : AnswersUnseen .ecall s d := by
  rcases execEcall_cases s with ⟨hexit, e⟩ | ⟨hwrite, e⟩ | ⟨hf, -⟩ | ⟨hne, hnw, hb, e⟩
  · exact ⟨_, e, by simp only [exec, execEcall, readReg_withDraws, hexit]; rfl⟩
  · exact ⟨_, e, by simp only [exec, execEcall, readReg_withDraws, hwrite]; rfl⟩
  · exact absurd hf (by simp [h])
  · exact ⟨_, e, by simp [exec, execEcall, hne, hnw, hb]; rfl⟩

end

/-- Every instruction that asks the host nothing. -/
theorem answersUnseen_of_not_asksHost {i : Instr} {s : State} (d : Nat) (h : asksHost i s = false) :
    AnswersUnseen i s d := by
  cases i with
  | lui | auipc => exact answersUnseen_of_writeBack rfl rfl
  | addi | slti | sltiu | xori | ori | andi | slli | srli | srai => exact answersUnseen_of_writeBack rfl rfl
  | mul | mulh | mulhsu | mulhu | div | divu | rem | remu => exact answersUnseen_of_writeBack rfl rfl
  | add | sub | srl | sra | sll | slt | sltu | xor | or | and => exact answersUnseen_of_writeBack rfl rfl
  | jal | jalr => exact answersUnseen_of_jumpAndLink rfl rfl
  | beq | bne | blt | bge | bltu | bgeu => exact answersUnseen_of_branchIf rfl rfl
  | lb | lh | lw | lbu | lhu => exact answersUnseen_of_load fun _ => rfl
  | sb | sh | sw => exact answersUnseen_of_store rfl
  | ebreak | wfi | unimp => exact ⟨_, rfl, rfl⟩
  | ecall => exact answersUnseen_of_ecall h
  | csrrw | csrrs | csrrc | csrr4 | csrrwi | csrrsi | csrrci =>
    exact answersUnseen_of_csrInstr (fun _ => rfl) ((asksHost_csr rfl (by simp)).symm.trans h)

/-! ## The statement -/

/-- Settles O24: the run with the counter at `d` leaves it at `d`; at `s.draws`, where it is the run itself, that says
the counter has not moved. -/
theorem hostAnswersReachOnlyHostReads : Obligations.HostAnswersReachOnlyHostReads := by
  intro i s t d ha h
  have same : ∀ d, exec i (s.withDraws d) = .next (t.withDraws d) := by
    intro d
    obtain ⟨t', e, e'⟩ := answersUnseen_of_not_asksHost d ha
    rw [h] at e
    cases e
    exact e'
  have kept : t = t.withDraws s.draws := Host.Outcome.next.inj (h.symm.trans (same s.draws))
  exact ⟨by rw [kept, State.withDraws_draws], same d⟩

end Sys2Proof.Machine
end

section
/-! The step (R90 to R99): which instruction it runs, and where it runs none. -/

namespace Sys2Proof.Machine

/-- The four bytes at an offset decode to what the word fetched there decodes to (R39, R91). -/
theorem decodeBytes_bytes_four (m : Memory) (a : Nat) :
    decodeBytes (Memory.bytes m a 4) = .ok (decode (Memory.readLE m a 4), []) := by
  rw [Memory.readLE_four]
  rfl

/-- Settles O9: of the cases of `step_cases` only the last has a running state and a fetch in bounds. -/
theorem stepRunsDecodedInstruction : Obligations.StepRunsDecodedInstruction := by
  intro s i hrun hin hdec
  rw [decodeBytes_bytes_four] at hdec
  cases hdec
  rcases step_cases s with ⟨status, hr, -⟩ | ⟨-, hout, -⟩ | ⟨-, -, e⟩
  · rw [hrun] at hr; cases hr
  · exact absurd hin (Nat.not_le.mpr hout)
  · exact e

/-- Settles O10: of the cases of `step_cases` only the second has a running state and a fetch out of bounds. -/
theorem fetchOutOfBoundsHalts : Obligations.FetchOutOfBoundsHalts := by
  intro s hrun hout
  rcases step_cases s with ⟨status, hr, -⟩ | ⟨-, -, e⟩ | ⟨-, hin, -⟩
  · rw [hrun] at hr; cases hr
  · exact e
  · exact absurd hin (Nat.not_le.mpr hout)

/-- Settles O11: of the cases of `step_cases` only the first has a halted state. -/
theorem haltedRunTakesNoStep : Obligations.HaltedRunTakesNoStep := by
  intro s status hhalt
  rcases step_cases s with ⟨status', hr, e⟩ | ⟨hr, -⟩ | ⟨hr, -⟩ <;> rw [hhalt] at hr <;> cases hr
  exact e

end Sys2Proof.Machine
end

section
/-! Loads and stores (41_load_store.md): where they complete and with what, where they end the run, and which bytes of
memory an instruction can change at all. -/

namespace Sys2Proof.Machine

/-! ## An access that is refused (R34) -/

/-- The meaning of a load is `load` on its operands. -/
theorem exec_load {i : Instr} {w : Width} {rs1 : RegIdx} {imm : Word} (hi : loadOperands i = some (w, rs1, imm)) :
    ∃ extend rd, ∀ s, exec i s = .next (load w extend rd rs1 imm s) := by
  cases i with
  | lb | lh | lw | lbu | lhu => cases hi; exact ⟨_, _, fun _ => rfl⟩
  | _ => cases hi

theorem load_of_accessHalt {w : Width} (extend : Word → Word) (rd : RegIdx) {rs1 : RegIdx} {imm : Word} {s : State}
    {status : Status} (h : accessHalt s (baseAddress s rs1 imm) w = some status) :
    load w extend rd rs1 imm s = halt s status := by
  rw [load, memRead_error h]

theorem store_of_accessHalt {w : Width} {rs1 : RegIdx} (rs2 : RegIdx) {imm : Word} {s : State} {status : Status}
    (hn : NotIntercepted s (baseAddress s rs1 imm)) (h : accessHalt s (baseAddress s rs1 imm) w = some status) :
    store w rs1 rs2 imm s = halt s status := by
  obtain ⟨huart, htohost⟩ := hn
  simp only [store, if_neg huart, if_neg htohost, memWrite_error _ h]

/-- An instruction that ends the run with whatever its access raises does so out of bounds and, in bounds, misaligned
under `ALIGN_CHECK` (the order is decision D23). -/
theorem halts_of_accessHalt {i : Instr} {s : State} {addr : Word} {w : Width}
    (h : ∀ status, accessHalt s addr w = some status → exec i s = .next (halt s status)) :
    (s.cfg.capacity < offsetOf addr + w.bytes → exec i s = .next (halt s .invalidMemoryAccess)) ∧
    (offsetOf addr + w.bytes ≤ s.cfg.capacity → s.cfg.alignCheck = true → offsetOf addr % w.bytes ≠ 0 →
      exec i s = .next (halt s .misalignedMemoryAccess)) :=
  ⟨fun hout => h _ (accessHalt_outOfBounds hout), fun hin hcheck hmis => h _ (accessHalt_misaligned hin hcheck hmis)⟩

/-! ## What a load extends (R37), over the bytes of memory -/

section
variable (m : Memory) (a : Nat)

theorem signExtendByte_readLE : (signExtendByte (Memory.readLE m a 1)).toInt = (Memory.read m a).toInt := by
  rw [Memory.readLE_one]
  simp [signExtendByte, BitVec.toInt_signExtend_of_le]

theorem zeroExtendByte_readLE : (zeroExtendByte (Memory.readLE m a 1)).toNat = (Memory.read m a).toNat := by
  rw [Memory.readLE_one]
  simp [zeroExtendByte]
  omega

theorem signExtendHalf_readLE : (signExtendHalf (Memory.readLE m a 2)).toInt =
    (Memory.read m (a + 1) ++ Memory.read m a : BitVec 16).toInt := by
  rw [Memory.readLE_two]
  simp [signExtendHalf, BitVec.toInt_signExtend_of_le]

/-- One more byte below: the number is that byte plus 256 times the rest (the order is decision D1). -/
theorem toNat_append_byte {n : Nat} (high : BitVec n) (low : Byte) :
    (high ++ low).toNat = low.toNat + 2 ^ 8 * high.toNat := by
  rw [BitVec.toNat_append, ← Nat.shiftLeft_add_eq_or_of_lt low.isLt, Nat.shiftLeft_eq]
  omega

theorem zeroExtendHalf_readLE : (zeroExtendHalf (Memory.readLE m a 2)).toNat =
    (Memory.read m a).toNat + 2 ^ 8 * (Memory.read m (a + 1)).toNat := by
  rw [Memory.readLE_two, ← toNat_append_byte]
  simp [zeroExtendHalf]
  omega

theorem toNat_readLE_four : (Memory.readLE m a 4).toNat =
    (Memory.read m a).toNat + 2 ^ 8 * (Memory.read m (a + 1)).toNat +
      2 ^ 16 * (Memory.read m (a + 2)).toNat + 2 ^ 24 * (Memory.read m (a + 3)).toNat := by
  rw [Memory.readLE_four, toNat_append_byte, toNat_append_byte, toNat_append_byte]
  omega

end

/-! ## A store that completes (R116) -/

theorem completesStoring_of_store {i : Instr} {s : State} {w : Width} {rs1 rs2 : RegIdx} {imm : Word}
    (hi : storeOperands i = some (w, rs1, rs2, imm)) (hn : NotIntercepted s (baseAddress s rs1 imm))
    (ha : AccessAllowed s (baseAddress s rs1 imm) w) :
    CompletesStoring i s (offsetOf (baseAddress s rs1 imm)) w.bytes (readReg s rs2) := by
  rw [CompletesStoring, exec_store hi, store_of_allowed hn ha]
  exact ⟨_, rfl, Memory.read_writeLE s.mem _ w.bytes _, fun _ => rfl, rfl, rfl, rfl, rfl, rfl, rfl⟩

/-! ## The bytes an instruction stores to (R40, R116, R244, R253) -/

section
variable {i : Instr} {s : State} {w : Width} {rs1 rs2 : RegIdx} {imm : Word} (a : Nat)

theorem storesTo_of_notIntercepted (hi : storeOperands i = some (w, rs1, rs2, imm))
    (hn : NotIntercepted s (baseAddress s rs1 imm)) :
    storesTo i s a = inRange a (offsetOf (baseAddress s rs1 imm)) w.bytes := by
  obtain ⟨huart, htohost⟩ := hn
  simp only [storesTo, hi, if_neg huart, if_neg htohost]

theorem storesTo_of_even_packet (hi : storeOperands i = some (w, rs1, rs2, imm))
    (hu : effective (baseAddress s rs1 imm) ≠ s.cfg.uartAddr)
    (ht : effective (baseAddress s rs1 imm) = s.cfg.tohostAddr) (he : (readReg s rs2).getLsbD 0 = false) :
    storesTo i s a = inRange a (offsetOf s.cfg.fromhostAddr) 4 := by
  simp only [storesTo, hi, if_neg hu, if_pos ht, he, Bool.not_false, Bool.true_and]

theorem storesTo_of_forwarded (hf : ecallIsForwarded s = true) :
    storesTo .ecall s a = decide (a < s.cfg.capacity) := by
  simp [storesTo, storeOperands, hf]

end

theorem Memory.read_writeLE_outside (m : Memory) {a n x : Nat} (v : Word) (h : inRange x a n = false) :
    Memory.read (Memory.writeLE m a n v) x = Memory.read m x := by
  rw [Memory.read_writeLE, if_neg]
  simpa [inRange] using h

/-- The memory frame: what the instruction does not store to reads as before. -/
theorem effect_read {i : Instr} {s t : State} {a : Nat} (h : Effect i s t) (ha : storesTo i s a = false) :
    Memory.read t.mem a = Memory.read s.mem a := by
  cases h with
  | stores w rs1 rs2 imm hi hn =>
    rw [storesTo_of_notIntercepted a hi hn] at ha
    exact Memory.read_writeLE_outside s.mem _ ha
  | magicWrites w rs1 rs2 imm bytes hi hu ht he =>
    rw [storesTo_of_even_packet a hi hu ht he] at ha
    exact Memory.read_writeLE_outside s.mem _ ha
  | forwards hi hf =>
    subst hi
    rw [storesTo_of_forwarded a hf, decide_eq_false_iff_not] at ha
    rw [advance_mem, ecallForward_mem, read_applyWrites_outside _ _ (Nat.not_lt.mp ha)]
  | writes | draws | links => simp
  | halts | falls | branches | uart | magicHalts | ecallWrites | ignores => rfl

/-! ## The statements -/

/-- Settles O23: of the effects an instruction can have, three write memory, and each writes the bytes `storesTo` names
(`effect_read`). -/
theorem memoryUnchangedOutsideStores : Obligations.MemoryUnchangedOutsideStores :=
  fun _ _ _ h _ ha => effect_read (effect_of_exec h) ha

/-- Settles O41: `completesWith_of_load` for each load, with its extension read over the bytes of memory. -/
theorem loadsComplete : Obligations.LoadsComplete := by
  rintro rd rs1 imm s a rfl
  refine ⟨fun ha => ?bytes, fun ha => ?halves, fun ha => ?words⟩
  case bytes =>
    exact ⟨⟨_, completesWith_of_load rfl ha, signExtendByte_readLE s.mem _⟩,
      _, completesWith_of_load rfl ha, zeroExtendByte_readLE s.mem _⟩
  case halves =>
    exact ⟨⟨_, completesWith_of_load rfl ha, signExtendHalf_readLE s.mem _⟩,
      _, completesWith_of_load rfl ha, zeroExtendHalf_readLE s.mem _⟩
  case words => exact ⟨_, completesWith_of_load (extend := id) rfl ha, toNat_readLE_four s.mem _⟩

/-- Settles O42: a load ends the run with whatever its access raises (`load_of_accessHalt`), with `rd = 0` too. -/
theorem loadsHaltWhereNotAllowed : Obligations.LoadsHaltWhereNotAllowed := by
  intro i w rs1 imm s hi
  obtain ⟨extend, rd, hexec⟩ := exec_load hi
  exact halts_of_accessHalt fun status h => by rw [hexec, load_of_accessHalt extend rd h]

/-- Settles O43: `completesStoring_of_store` at each width. -/
theorem storesComplete : Obligations.StoresComplete := fun _ _ _ _ hn =>
  ⟨completesStoring_of_store rfl hn, completesStoring_of_store rfl hn, completesStoring_of_store rfl hn⟩

/-- Settles O44: a store that is not intercepted ends the run with whatever its access raises
(`store_of_accessHalt`). -/
theorem storesHaltWhereNotAllowed : Obligations.StoresHaltWhereNotAllowed := by
  intro i w rs1 rs2 imm s hi hn
  exact halts_of_accessHalt fun status h => by rw [exec_store hi, store_of_accessHalt rs2 hn h]

end Sys2Proof.Machine
end

section
/-! Integer register-immediate instructions (42_int_imm.md): each meaning is one write-back of a word function, and what
that function computes is said here over any two words or any word and amount. -/

namespace Sys2Proof.Machine

/-! ## The truth value a comparison writes (R132, R133) -/

theorem boolWord_lessSigned (a b : Word) : boolWord (lessSigned a b) = if a.toInt < b.toInt then 1#32 else 0#32 := by
  simp [boolWord, lessSigned]

theorem boolWord_lessUnsigned (a b : Word) :
    boolWord (lessUnsigned a b) = if a.toNat < b.toNat then 1#32 else 0#32 := by
  simp [boolWord, lessUnsigned]

/-! ## A shift as multiplication or division by a power of two (R137 to R139) -/

section
variable (v : Word) (n : Nat)

theorem toNat_shiftLeft_eq_mul_mod : (v <<< n).toNat = v.toNat * 2 ^ n % 2 ^ 32 := by
  rw [BitVec.toNat_shiftLeft, Nat.shiftLeft_eq]

theorem toNat_ushiftRight_eq_div : (v >>> n).toNat = v.toNat / 2 ^ n := by
  rw [BitVec.toNat_ushiftRight, Nat.shiftRight_eq_div_pow]

/-- The divisor is positive, so the rounding of `>>>`, which is that of `/`, is down. -/
theorem toInt_sshiftRight_eq_fdiv : (v.sshiftRight n).toInt = v.toInt.fdiv (2 ^ n) := by
  have hpos : (0 : Int) ≤ 2 ^ n := by positivity
  rw [BitVec.toInt_sshiftRight, Int.shiftRight_eq_div_pow, Int.fdiv_eq_ediv_of_nonneg _ hpos]
  norm_cast

end

/-! ## The statements -/

/-- Settles O29: each shift is one write-back, of the word its shift lemma reads as a product or a quotient. -/
theorem shiftImmediateComplete : Obligations.ShiftImmediateComplete := by
  intro rd rs1 shamt s
  refine ⟨⟨_, completesWith_of_writeBack rfl, ?left⟩, ⟨_, completesWith_of_writeBack rfl, ?logical⟩,
    ⟨_, completesWith_of_writeBack rfl, ?arithmetic⟩⟩
  case left => exact toNat_shiftLeft_eq_mul_mod _ _
  case logical => exact toNat_ushiftRight_eq_div _ _
  case arithmetic => exact toInt_sshiftRight_eq_fdiv _ _

/-- Settles O27: each is one write-back, of the sum or of the comparison's truth value. -/
theorem addAndCompareImmediateComplete : Obligations.AddAndCompareImmediateComplete := by
  intro rd rs1 imm s
  refine ⟨⟨_, completesWith_of_writeBack rfl, BitVec.toNat_add _ _⟩, ?signed, ?unsigned⟩
  case signed => rw [← boolWord_lessSigned]; exact completesWith_of_writeBack rfl
  case unsigned => rw [← boolWord_lessUnsigned]; exact completesWith_of_writeBack rfl

/-- Settles O28: each is one write-back, of a word the library reads bit by bit. -/
theorem logicImmediateComplete : Obligations.LogicImmediateComplete := by
  intro rd rs1 imm s
  refine ⟨⟨_, completesWith_of_writeBack rfl, fun _ _ => ?xor⟩, ⟨_, completesWith_of_writeBack rfl, fun _ _ => ?or⟩,
    ⟨_, completesWith_of_writeBack rfl, fun _ _ => ?and⟩⟩
  case xor => exact BitVec.getLsbD_xor
  case or => exact BitVec.getLsbD_or
  case and => exact BitVec.getLsbD_and

end Sys2Proof.Machine
end

section
/-! Integer register-register instructions (43_int_reg.md): each meaning is one write-back of a word function of two
registers. The word functions are those of the register-immediate family but for the difference and the shift amount. -/

namespace Sys2Proof.Machine

/-- The difference modulo 2^32, taken over the integers, where it may be negative (R152). -/
theorem toNat_sub_eq_emod (a b : Word) : ((a - b).toNat : Int) = (a.toNat - b.toNat : Int) % 2 ^ 32 := by
  rw [BitVec.toNat_sub]
  omega

/-- The low five bits are the remainder by 32 (R153, R157, R158; decision D42). -/
theorem shiftAmount_eq_mod (v : Word) : shiftAmount v = v.toNat % 32 := by
  rw [shiftAmount, BitVec.extractLsb'_toNat, Nat.shiftRight_zero]

/-! ## The statements -/

/-- Settles O30: each is one write-back, of the sum, the difference or the comparison's truth value. -/
theorem addAndCompareRegisterComplete : Obligations.AddAndCompareRegisterComplete := by
  intro rd rs1 rs2 s
  refine ⟨⟨_, completesWith_of_writeBack rfl, BitVec.toNat_add _ _⟩,
    ⟨_, completesWith_of_writeBack rfl, toNat_sub_eq_emod _ _⟩, ?signed, ?unsigned⟩
  case signed => rw [← boolWord_lessSigned]; exact completesWith_of_writeBack rfl
  case unsigned => rw [← boolWord_lessUnsigned]; exact completesWith_of_writeBack rfl

/-- Settles O32: the amount is `shiftAmount`, and each shift by it is the product or quotient of O29's lemmas. -/
theorem shiftRegisterComplete : Obligations.ShiftRegisterComplete := by
  rintro rd rs1 rs2 s _ rfl
  rw [← shiftAmount_eq_mod]
  refine ⟨⟨_, completesWith_of_writeBack rfl, ?left⟩, ⟨_, completesWith_of_writeBack rfl, ?logical⟩,
    ⟨_, completesWith_of_writeBack rfl, ?arithmetic⟩⟩
  case left => exact toNat_shiftLeft_eq_mul_mod _ _
  case logical => exact toNat_ushiftRight_eq_div _ _
  case arithmetic => exact toInt_sshiftRight_eq_fdiv _ _

/-- Settles O31: each is one write-back, of a word the library reads bit by bit. -/
theorem logicRegisterComplete : Obligations.LogicRegisterComplete := fun _ _ _ _ =>
  ⟨⟨_, completesWith_of_writeBack rfl, fun _ _ => BitVec.getLsbD_xor⟩,
    ⟨_, completesWith_of_writeBack rfl, fun _ _ => BitVec.getLsbD_or⟩,
    ⟨_, completesWith_of_writeBack rfl, fun _ _ => BitVec.getLsbD_and⟩⟩

end Sys2Proof.Machine
end

section
/-! Multiply and divide (44_muldiv.md): each meaning is one write-back of a word function of two registers. A quotient
or a remainder is, outside the special cases, the word that the library's own division answers. -/

namespace Sys2Proof.Machine

/-! ## Products (R171 to R174) -/

/-- The low word does not depend on the signs the operands are read with (R171). -/
theorem mulLow_eq_mul (a b : Word) : mulLow a b = a * b := by
  rw [mulLow, BitVec.ofInt_mul, BitVec.ofInt_toInt, BitVec.ofInt_toInt]

/-- Bits 63 to 32 are the product divided by 2^32, rounded down, whatever its sign. -/
theorem highWord_eq_ofInt_ediv (p : Int) : highWord p = BitVec.ofInt 32 (p / 2 ^ 32) := by
  apply BitVec.eq_of_toNat_eq
  rw [highWord, BitVec.extractLsb'_toNat, BitVec.toNat_ofInt, BitVec.toNat_ofInt, Nat.shiftRight_eq_div_pow]
  omega

theorem toInt_highWord {p : Int} (hlow : -2 ^ 63 ≤ p) (hhigh : p < 2 ^ 63) : (highWord p).toInt = p.fdiv (2 ^ 32) := by
  rw [highWord_eq_ofInt_ediv, Int.fdiv_eq_ediv_of_nonneg _ (by decide)]
  exact BitVec.toInt_ofInt_eq_self (by decide) (by omega) (by omega)

theorem toNat_highWord_natCast {n : Nat} (h : n < 2 ^ 64) : (highWord n).toNat = n / 2 ^ 32 := by
  rw [highWord_eq_ofInt_ediv, BitVec.toNat_ofInt]
  omega

theorem toInt_mulHighSigned (a b : Word) : (mulHighSigned a b).toInt = (a.toInt * b.toInt).fdiv (2 ^ 32) := by
  have hlow : -2 ^ 62 ≤ a.toInt * b.toInt := BitVec.le_toInt_mul_toInt
  have hhigh : a.toInt * b.toInt ≤ 2 ^ 62 := BitVec.toInt_mul_toInt_le
  exact toInt_highWord (by omega) (by omega)

theorem toInt_mulHighMixed (a b : Word) : (mulHighMixed a b).toInt = (a.toInt * b.toNat).fdiv (2 ^ 32) := by
  have hb := b.isLt
  have hlow : -2 ^ 31 * (b.toNat : Int) ≤ a.toInt * b.toNat := Int.mul_le_mul_of_nonneg_right a.le_toInt (by omega)
  have hhigh : a.toInt * b.toNat ≤ 2 ^ 31 * (b.toNat : Int) :=
    Int.mul_le_mul_of_nonneg_right BitVec.toInt_lt.le (by omega)
  exact toInt_highWord (by omega) (by omega)

theorem toNat_mulHighUnsigned (a b : Word) : (mulHighUnsigned a b).toNat = a.toNat * b.toNat / 2 ^ 32 := by
  rw [mulHighUnsigned, ← Int.natCast_mul]
  have hlt : a.toNat * b.toNat < 2 ^ 32 * 2 ^ 32 := Nat.mul_lt_mul'' a.isLt b.isLt
  exact toNat_highWord_natCast (by omega)

/-! ## The fixed results of division (R175 to R178) -/

section
variable {a b : Word}

theorem divSigned_of_eq_zero (h : b = 0#32) : divSigned a b = 0xFFFFFFFF#32 := if_pos h

theorem divUnsigned_of_eq_zero (h : b = 0#32) : divUnsigned a b = 0xFFFFFFFF#32 := if_pos h

theorem remSigned_of_eq_zero (h : b = 0#32) : remSigned a b = a := if_pos h

theorem remUnsigned_of_eq_zero (h : b = 0#32) : remUnsigned a b = a := if_pos h

theorem divOverflows_iff : divOverflows a b ↔ a.toInt = -2 ^ 31 ∧ b.toInt = -1 := by
  simp [divOverflows, ← BitVec.toInt_inj]

theorem ne_zero_of_divOverflows (h : divOverflows a b) : b ≠ 0#32 := by
  rintro rfl
  simp [divOverflows] at h

theorem divSigned_of_divOverflows (h : divOverflows a b) : divSigned a b = a := by
  rw [divSigned, if_neg (ne_zero_of_divOverflows h), if_pos h]

theorem remSigned_of_divOverflows (h : divOverflows a b) : remSigned a b = 0#32 := by
  rw [remSigned, if_neg (ne_zero_of_divOverflows h), if_pos h]

/-! ## Quotient and remainder outside the special cases (R175 to R179) -/

theorem toInt_divSigned (hb : b ≠ 0#32) (h : ¬divOverflows a b) : (divSigned a b).toInt = a.toInt.tdiv b.toInt := by
  have hne : a ≠ BitVec.intMin 32 ∨ b ≠ -1#32 := by
    rwa [divOverflows, decide_eq_true_iff, Classical.not_and_iff_not_or_not] at h
  rw [divSigned, if_neg hb, if_neg h, ← BitVec.toInt_sdiv_of_ne_or_ne a b hne, BitVec.ofInt_toInt]

theorem toInt_remSigned (hb : b ≠ 0#32) (h : ¬divOverflows a b) : (remSigned a b).toInt = a.toInt.tmod b.toInt := by
  rw [remSigned, if_neg hb, if_neg h, ← Int.tmod_def, ← BitVec.toInt_srem, BitVec.ofInt_toInt]

theorem divUnsigned_eq_udiv (hb : b ≠ 0#32) : divUnsigned a b = a / b := by
  rw [divUnsigned, if_neg hb, BitVec.udiv_def]

theorem remUnsigned_eq_umod (hb : b ≠ 0#32) : remUnsigned a b = a % b := by
  rw [remUnsigned, if_neg hb, BitVec.umod_def]

end

/-- A truncating remainder has the sign of the dividend: the library says it for a dividend that is not negative. -/
theorem tmod_nonpos_of_nonpos {m : Int} (n : Int) (h : m ≤ 0) : m.tmod n ≤ 0 := by
  have hneg := Int.tmod_nonneg n (Int.neg_nonneg_of_nonpos h)
  rw [Int.neg_tmod] at hneg
  omega

/-- Where a meaning is the register-register form, the instruction completes with what its word function answers. -/
theorem completesWith_of_regOp {i : Instr} {s : State} {f : Word → Word → Word} {rd rs1 rs2 : RegIdx} {v : Word}
    (h : exec i s = regOp f rd rs1 rs2 s) (hv : f (readReg s rs1) (readReg s rs2) = v) : CompletesWith i s rd v :=
  hv ▸ completesWith_of_writeBack h

/-! ## The statements -/

/-- Settles O33: each is one write-back, and the exact product is within the 64 bits its high word is taken from. -/
theorem multiplyComplete : Obligations.MultiplyComplete := by
  intro rd rs1 rs2 s
  refine ⟨⟨_, completesWith_of_writeBack rfl, ?low⟩, ⟨_, completesWith_of_writeBack rfl, ?signed⟩,
    ⟨_, completesWith_of_writeBack rfl, ?mixed⟩, ⟨_, completesWith_of_writeBack rfl, ?unsigned⟩⟩
  case low => rw [mulLow_eq_mul, BitVec.toNat_mul]
  case signed => exact toInt_mulHighSigned _ _
  case mixed => exact toInt_mulHighMixed _ _
  case unsigned => exact toNat_mulHighUnsigned _ _

/-- Settles O34: each is one write-back, of the fixed result of its special case. -/
theorem divisionSpecialCases : Obligations.DivisionSpecialCases := by
  intro rd rs1 rs2 s
  refine ⟨fun hzero => ?zero, fun hmin hneg => ?overflow⟩
  case zero =>
    exact ⟨completesWith_of_regOp rfl (divSigned_of_eq_zero hzero),
      completesWith_of_regOp rfl (divUnsigned_of_eq_zero hzero),
      completesWith_of_regOp rfl (remSigned_of_eq_zero hzero),
      completesWith_of_regOp rfl (remUnsigned_of_eq_zero hzero)⟩
  case overflow =>
    have ho := divOverflows_iff.mpr ⟨hmin, hneg⟩
    exact ⟨completesWith_of_regOp rfl (divSigned_of_divOverflows ho),
      completesWith_of_regOp rfl (remSigned_of_divOverflows ho)⟩

/-- Settles O35: the two words written are the library's truncating quotient and remainder. -/
theorem signedDivisionLaw : Obligations.SignedDivisionLaw := by
  intro rd rs1 rs2 s hb ho
  rw [← divOverflows_iff] at ho
  refine ⟨_, _, completesWith_of_writeBack rfl, completesWith_of_writeBack rfl, ?_⟩
  rw [toInt_divSigned hb ho, toInt_remSigned hb ho]
  refine ⟨(Int.mul_tdiv_add_tmod _ _).symm, ?smaller, Int.tmod_nonneg _, tmod_nonpos_of_nonpos _⟩
  case smaller =>
    have hpos : 0 < (readReg s rs2).toInt.natAbs := Int.natAbs_pos.mpr (BitVec.toInt_inj.not.mpr hb)
    rw [Int.natAbs_tmod]
    exact Nat.mod_lt _ hpos

/-- Settles O36: the two words written are the library's quotient and remainder of words. -/
theorem unsignedDivisionLaw : Obligations.UnsignedDivisionLaw := by
  intro rd rs1 rs2 s hb
  have hpos : 0 < (readReg s rs2).toNat := Nat.pos_of_ne_zero (BitVec.toNat_inj.not.mpr hb)
  refine ⟨_, _, completesWith_of_writeBack rfl, completesWith_of_writeBack rfl, ?_⟩
  rw [divUnsigned_eq_udiv hb, remUnsigned_eq_umod hb, BitVec.toNat_udiv, BitVec.toNat_umod]
  exact ⟨(Nat.div_add_mod _ _).symm, Nat.mod_lt _ hpos⟩

end Sys2Proof.Machine
end

section
/-! Upper immediates (45_lui_auipc.md): each meaning is one write-back, of the immediate or of the unmasked pc plus it. -/

namespace Sys2Proof.Machine

/-- Settles O26: LUI writes back its immediate as it is, AUIPC the sum, which the library reads modulo 2^32. -/
theorem upperImmediatesComplete : Obligations.UpperImmediatesComplete := by
  intro rd imm s
  refine ⟨?lui, pcRelative s imm, ?auipc, ?sum⟩
  case lui => exact completesWith_of_writeBack rfl
  case auipc => exact completesWith_of_writeBack rfl
  case sum => exact BitVec.toNat_add s.pc imm

end Sys2Proof.Machine
end

section
/-! Control transfer (46_control_transfer.md): a branch is decided by one comparison of two registers, a jump by its
target alone; the model's own case lemmas say where each goes. -/

namespace Sys2Proof.Machine

/-! ## The comparison that decides a branch (R199 to R201, R205) -/

section
variable (a b : Word)

theorem lessSigned_iff : lessSigned a b = true ↔ a.toInt < b.toInt := decide_eq_true_iff

theorem lessUnsigned_iff : lessUnsigned a b = true ↔ a.toNat < b.toNat := decide_eq_true_iff

theorem not_lessSigned_iff : (!lessSigned a b) = true ↔ b.toInt ≤ a.toInt := by
  rw [Bool.not_eq_true', ← Bool.not_eq_true, lessSigned_iff, Int.not_lt]

theorem not_lessUnsigned_iff : (!lessUnsigned a b) = true ↔ b.toNat ≤ a.toNat := by
  rw [Bool.not_eq_true', ← Bool.not_eq_true, lessUnsigned_iff, Nat.not_lt]

end

/-! ## Branches (R195, R196, R204) -/

section
variable {i : Instr} {s : State} {imm : Word} {taken : Bool} {condition : Prop}

theorem branchCompletes_of_branchIf (h : exec i s = branchIf taken s imm) (ht : taken = true ↔ condition) :
    BranchCompletes i s imm condition := by
  rw [BranchCompletes, ← ht, h]
  rcases branchIf_cases taken s imm with ⟨rfl, e⟩ | ⟨rfl, -, e⟩ | ⟨rfl, hm, -⟩
  · exact ⟨fun htrue => absurd htrue Bool.false_ne_true, fun _ => e⟩
  · exact ⟨fun _ _ => e, fun hfalse => absurd rfl hfalse⟩
  · exact ⟨fun _ ha => absurd ha hm, fun hfalse => absurd rfl hfalse⟩

theorem branchTraps_of_branchIf (h : exec i s = branchIf taken s imm) (ht : taken = true ↔ condition) :
    BranchTraps i s imm condition := by
  intro hc hm
  obtain rfl := ht.mpr hc
  rcases branchIf_cases true s imm with ⟨hfalse, -⟩ | ⟨-, ha, -⟩ | ⟨-, -, e⟩
  · cases hfalse
  · exact absurd ha hm
  · exact h.trans e

end

/-! ## Jumps (R202 to R204) -/

section
variable {i : Instr} {s : State} {rd : RegIdx} {target : Word}

theorem completesJumping_of_jumpAndLink (h : exec i s = jumpAndLink s rd target) (ha : target.toNat % 4 = 0) :
    CompletesJumping i s rd target := by
  rcases jumpAndLink_cases s rd target with ⟨-, e⟩ | ⟨hm, -⟩
  · exact ⟨_, h.trans e, rfl, fun r => by rw [readReg_setPc, readReg_writeReg], by simp⟩
  · exact absurd ha hm

theorem jumpAndLink_of_misaligned (hm : target.toNat % 4 ≠ 0) :
    jumpAndLink s rd target = .next (halt s .misalignedMemoryAccess) := by
  rcases jumpAndLink_cases s rd target with ⟨ha, -⟩ | ⟨-, e⟩
  · exact absurd ha hm
  · exact e

end

/-- Clearing bit 0 leaves bit 1, which alone can then misalign JALR's target (R203, R204). -/
theorem jalrTarget_misaligned {s : State} {rs1 : RegIdx} {imm : Word} (h : (readReg s rs1 + imm).toNat % 4 / 2 = 1) :
    (jalrTarget s rs1 imm).toNat % 4 ≠ 0 := by
  rw [jalrTarget_toNat, ← BitVec.toNat_add]
  omega

/-! ## The statements -/

/-- Settles O49: each meaning is `branchIf` on a comparison that holds exactly where the condition does. -/
theorem branchesComplete : Obligations.BranchesComplete := fun _ _ _ _ =>
  ⟨branchCompletes_of_branchIf rfl decide_eq_true_iff, branchCompletes_of_branchIf rfl decide_eq_true_iff,
    branchCompletes_of_branchIf rfl (lessSigned_iff _ _), branchCompletes_of_branchIf rfl (not_lessSigned_iff _ _),
    branchCompletes_of_branchIf rfl (lessUnsigned_iff _ _), branchCompletes_of_branchIf rfl (not_lessUnsigned_iff _ _)⟩

/-- Settles O50: both meanings are `jumpAndLink`, and the target named by its value is the model's own. -/
theorem jumpsLinkAndJump : Obligations.JumpsLinkAndJump := by
  refine ⟨fun rd imm target s ht ha => ?jal, fun rd rs1 imm target s ht ha => ?jalr⟩
  case jal =>
    obtain rfl : target = pcRelative s imm := BitVec.eq_of_toNat_eq (ht.trans (BitVec.toNat_add s.pc imm).symm)
    exact completesJumping_of_jumpAndLink rfl ha
  case jalr =>
    obtain rfl : target = jalrTarget s rs1 imm := BitVec.eq_of_toNat_eq (ht.trans (jalrTarget_toNat s rs1 imm).symm)
    exact completesJumping_of_jumpAndLink rfl ha

/-- Settles O51: the branches by the comparisons of O49, the jumps by the misaligned case of `jumpAndLink`, whose JALR
target keeps bit 1 of the sum. -/
theorem misalignedTargetsHalt : Obligations.MisalignedTargetsHalt := by
  refine ⟨fun rs1 rs2 imm s => ?branches, fun rd rs1 imm s => ⟨fun hm => ?jal, fun hbit => ?jalr⟩⟩
  case branches =>
    exact ⟨branchTraps_of_branchIf rfl decide_eq_true_iff, branchTraps_of_branchIf rfl decide_eq_true_iff,
      branchTraps_of_branchIf rfl (lessSigned_iff _ _), branchTraps_of_branchIf rfl (not_lessSigned_iff _ _),
      branchTraps_of_branchIf rfl (lessUnsigned_iff _ _), branchTraps_of_branchIf rfl (not_lessUnsigned_iff _ _)⟩
  case jal => exact jumpAndLink_of_misaligned hm
  case jalr => exact jumpAndLink_of_misaligned (jalrTarget_misaligned hbit)

end Sys2Proof.Machine
end

section
/-! The CSR file (47_system_csr.md): each of the seven forms is one write-back of what the address reads as, over the
state with one more host answer taken where the address is a half of the clock. -/

namespace Sys2Proof.Machine

/-! ## The two halves of a 64-bit counter (R228) -/

theorem toNat_lowHalf (x : BitVec 64) : (x.extractLsb' 0 32).toNat = x.toNat % 2 ^ 32 := by
  rw [BitVec.extractLsb'_toNat, Nat.shiftRight_zero]

theorem toNat_highHalf (x : BitVec 64) : (x.extractLsb' 32 32).toNat = x.toNat / 2 ^ 32 := by
  have := x.isLt
  rw [BitVec.extractLsb'_toNat, Nat.shiftRight_eq_div_pow]
  omega

/-! ## What an address reads as (R228 to R230) -/

section
variable {s : State} {csr : BitVec 12}

theorem toNat_csrRead_of_not_clock (hlow : csr ≠ csrMcycle) (hhigh : csr ≠ csrMcycleh) :
    (csrRead s csr).toNat = if csr = csrMinstret then s.instret.toNat % 2 ^ 32
      else if csr = csrMinstreth then s.instret.toNat / 2 ^ 32 else 0 := by
  by_cases hl : csr = csrMinstret
  · subst hl; exact toNat_lowHalf s.instret
  by_cases hh : csr = csrMinstreth
  · subst hh; exact toNat_highHalf s.instret
  simp [csrRead, hlow, hhigh, hl, hh]

theorem toNat_csrRead_of_clock (h : csr = csrMcycle ∨ csr = csrMcycleh) :
    (csrRead s csr).toNat = if csr = csrMcycle then (Config.now s.draws).toNat % 2 ^ 32
      else (Config.now s.draws).toNat / 2 ^ 32 := by
  rcases h with rfl | rfl
  · exact toNat_lowHalf _
  · exact toNat_highHalf _

/-! ## The common rule (R220) -/

theorem csrInstr_of_not_clock (rd : RegIdx) (hlow : csr ≠ csrMcycle) (hhigh : csr ≠ csrMcycleh) :
    csrInstr s rd csr = writeBack s rd (csrRead s csr) := by
  simp [csrInstr, afterCsrRead, csrTakesDraw, hlow, hhigh]

theorem csrInstr_of_clock (rd : RegIdx) (h : csr = csrMcycle ∨ csr = csrMcycleh) :
    csrInstr s rd csr = writeBack (takeDraw s) rd (csrRead s csr) := by
  simp [csrInstr, afterCsrRead, csrTakesDraw, h]

end

/-- Where a meaning is one write-back over the state with one more answer taken, the instruction completes so. -/
theorem completesWithDraw_of_writeBack {i : Instr} {s : State} {rd : RegIdx} {v : Word}
    (h : exec i s = writeBack (takeDraw s) rd v) : CompletesWithDraw i s rd v :=
  ⟨_, h, fun r => by rw [readReg_advance, readReg_writeReg, readReg_takeDraw], by simp⟩

/-! ## The statements -/

/-- Settles O56: away from the clock the common rule is one write-back of what the address reads as. -/
theorem csrReadsComplete : Obligations.CsrReadsComplete := by
  intro rd rs1 csr uimm v s hlow hhigh hv
  obtain rfl : v = csrRead s csr := BitVec.eq_of_toNat_eq (hv.trans (toNat_csrRead_of_not_clock hlow hhigh).symm)
  have e := csrInstr_of_not_clock (s := s) rd hlow hhigh
  exact ⟨completesWith_of_writeBack e, completesWith_of_writeBack e, completesWith_of_writeBack e,
    completesWith_of_writeBack e, completesWith_of_writeBack e, completesWith_of_writeBack e,
    completesWith_of_writeBack e⟩

/-- Settles O57: at the clock's addresses the write-back is over the state with the answer taken, whatever `rd` is. -/
theorem csrClockReadsTakeAnAnswer : Obligations.CsrClockReadsTakeAnAnswer := by
  intro rd rs1 csr uimm v s hclock hv
  obtain rfl : v = csrRead s csr := BitVec.eq_of_toNat_eq (hv.trans (toNat_csrRead_of_clock hclock).symm)
  have e := csrInstr_of_clock (s := s) rd hclock
  exact ⟨completesWithDraw_of_writeBack e, completesWithDraw_of_writeBack e, completesWithDraw_of_writeBack e,
    completesWithDraw_of_writeBack e, completesWithDraw_of_writeBack e, completesWithDraw_of_writeBack e,
    completesWithDraw_of_writeBack e⟩

end Sys2Proof.Machine
end

section
/-! The two ports (48_syscall_htif_uart.md): a store of any width to the UART, to the HTIF mailbox with an odd packet,
and with an even one, which is a magic syscall. -/

namespace Sys2Proof.Machine

/-! ## The UART (R247) -/

theorem lowByte_eq_setWidth (v : Word) : lowByte v = v.setWidth 8 :=
  (BitVec.setWidth_eq_extractLsb' (by decide)).symm

/-- Where a meaning is one byte emitted and the normal end, the instruction completes so. -/
theorem completesEmitting_of_emit {i : Instr} {s : State} {v : Word}
    (h : exec i s = .next (advance (emit s (lowByte v)))) : CompletesEmitting i s (v.setWidth 8) := by
  rw [lowByte_eq_setWidth] at h
  exact ⟨_, h, rfl, rfl, fun _ => rfl, rfl, rfl, rfl, rfl, rfl⟩

theorem completesEmitting_of_uart {i : Instr} {w : Width} {rs1 rs2 : RegIdx} {imm : Word} {s : State}
    (hi : storeOperands i = some (w, rs1, rs2, imm)) (hu : effective (baseAddress s rs1 imm) = s.cfg.uartAddr) :
    CompletesEmitting i s ((readReg s rs2).setWidth 8) :=
  completesEmitting_of_emit (by rw [exec_store hi, store_uart hu])

/-! ## The packet (R248, R249) -/

section
variable {i : Instr} {w : Width} {rs1 rs2 : RegIdx} {imm p : Word} {s : State}

theorem exec_odd_packet (hi : storeOperands i = some (w, rs1, rs2, imm))
    (hu : effective (baseAddress s rs1 imm) ≠ s.cfg.uartAddr)
    (ht : effective (baseAddress s rs1 imm) = s.cfg.tohostAddr) (ho : (readReg s rs2).toNat % 2 = 1) :
    exec i s = .next (halt s (.guestExit (exitCode (truncateTo w (readReg s rs2))) true)) := by
  have hbit : (truncateTo w (readReg s rs2)).getLsbD 0 = true :=
    (truncateTo_bit_zero w _).trans ((isTestFlag_iff _).mpr ho)
  rw [exec_store hi, store_tohost hu ht]
  rcases tohostStore_cases s (truncateTo w (readReg s rs2)) with ⟨-, e⟩ | ⟨hz, -⟩
  · rw [e]
  · rw [hbit] at hz; cases hz

/-- An even packet is a descriptor pointer, truncated to the width of the store (decision D12). -/
theorem exec_even_packet (hi : storeOperands i = some (w, rs1, rs2, imm))
    (hu : effective (baseAddress s rs1 imm) ≠ s.cfg.uartAddr)
    (ht : effective (baseAddress s rs1 imm) = s.cfg.tohostAddr)
    (hp : p.toNat = (readReg s rs2).toNat % 2 ^ (8 * w.bytes)) (he : p.toNat % 2 = 0) :
    exec i s = .next (magicSyscall s p) := by
  obtain rfl : p = truncateTo w (readReg s rs2) := BitVec.eq_of_toNat_eq (hp.trans (truncateTo_toNat w _).symm)
  rw [exec_store hi, store_tohost hu ht]
  rcases tohostStore_cases s (truncateTo w (readReg s rs2)) with ⟨hbit, -⟩ | ⟨-, e⟩
  · have hodd := (isTestFlag_iff _).mp hbit
    omega
  · rw [e]

end

/-! ## The descriptor (R250, R252) -/

section
variable {s : State} {p ptr len : Word} {status : Status}

theorem readDescriptor_of_number_unreadable (h : memRead s p .word = .error status) :
    readDescriptor s p = .error status := by
  simp [readDescriptor, h]

theorem readDescriptor_of_other_number {number : Word} (h : memRead s p .word = .ok number) (hn : number ≠ sysWrite) :
    readDescriptor s p = .error .unimplementedMagicSyscall := by
  simp [readDescriptor, h, hn]

theorem readDescriptor_of_pointer_unreadable (hn : memRead s p .word = .ok sysWrite)
    (h : memRead s (p + 16#32) .word = .error status) : readDescriptor s p = .error status := by
  simp [readDescriptor, hn, h]

theorem readDescriptor_of_length_unreadable (hn : memRead s p .word = .ok sysWrite)
    (hptr : memRead s (p + 16#32) .word = .ok ptr) (h : memRead s (p + 24#32) .word = .error status) :
    readDescriptor s p = .error status := by
  simp [readDescriptor, hn, hptr, h]

theorem readDescriptor_of_readable (hn : memRead s p .word = .ok sysWrite)
    (hptr : memRead s (p + 16#32) .word = .ok ptr) (hlen : memRead s (p + 24#32) .word = .ok len) :
    readDescriptor s p = .ok (ptr, len) := by
  simp [readDescriptor, hn, hptr, hlen]

/-! ## Where a magic syscall ends the run (R250 to R253, R282) -/

theorem magicSyscall_of_descriptor_error (h : readDescriptor s p = .error status) :
    magicSyscall s p = halt s status := by
  rw [magicSyscall, h]

theorem magicSyscall_of_range_out (h : readDescriptor s p = .ok (ptr, len))
    (hr : s.cfg.capacity < offsetOf ptr + len.toNat) : magicSyscall s p = halt s .invalidMemoryAccess := by
  simp [magicSyscall, h, htifWrite, rangeOutOfBounds, hr]

/-- The bytes emitted before the acknowledge fails are not undone (R280). -/
theorem magicSyscall_of_acknowledge_out (h : readDescriptor s p = .ok (ptr, len))
    (hr : offsetOf ptr + len.toNat ≤ s.cfg.capacity) (ha : s.cfg.capacity < offsetOf s.cfg.fromhostAddr + 4) :
    magicSyscall s p =
      halt (emitAll s (Memory.bytes s.mem (offsetOf ptr) len.toNat)) .invalidMemoryAccess := by
  simp [magicSyscall, h, htifWrite, rangeOutOfBounds, Nat.not_lt.mpr hr, acknowledge, beyondCapacity, ha]

end

/-! ## The acknowledge (R253) -/

/-- The word 1 stored from an offset up: its low byte there and three zeros above (R36; decision D1). -/
theorem Memory.read_writeLE_one (m : Memory) (base a : Nat) :
    Memory.read (Memory.writeLE m base 4 1#32) a =
      if a = base then 1#8 else if base < a ∧ a < base + 4 then 0#8 else Memory.read m a := by
  rw [Memory.read_writeLE]
  by_cases hbase : a = base
  · subst hbase; simp
  by_cases hin : base < a ∧ a < base + 4
  · rw [if_pos ⟨hin.1.le, hin.2⟩, if_neg hbase, if_pos hin]
    obtain h | h | h : a - base = 1 ∨ a - base = 2 ∨ a - base = 3 := by omega
    all_goals rw [h]; rfl
  · rw [if_neg (by omega), if_neg hbase, if_neg hin]

/-! ## The statements -/

/-- Settles O45: a store to the UART is one `emit` at each width. -/
theorem storesToUartEmit : Obligations.StoresToUartEmit := fun _ _ _ _ hu =>
  ⟨completesEmitting_of_uart rfl hu, completesEmitting_of_uart rfl hu, completesEmitting_of_uart rfl hu⟩

/-- Settles O46: the exit code is half of the truncated packet. -/
theorem oddTohostStoreExits : Obligations.OddTohostStoreExits := by
  intro i w rs1 rs2 imm s hi hu ht ho
  exact ⟨_, exec_odd_packet hi hu ht ho, by rw [exitCode_toNat, truncateTo_toNat]⟩

/-- Settles O47: the syscall in full (`magicSyscall_write`), with the acknowledge read byte by byte. -/
theorem magicWriteCompletes : Obligations.MagicWriteCompletes := by
  intro i w rs1 rs2 imm p ptr len s hi hu ht hp he hn hptr hlen hr ha
  obtain ⟨hna, hnv⟩ := memRead_ok hn
  obtain ⟨hpa, hpv⟩ := memRead_ok hptr
  obtain ⟨hla, hlv⟩ := memRead_ok hlen
  have e := exec_even_packet hi hu ht hp he
  rw [magicSyscall_write hna hpa hla hnv hpv hlv hr ha] at e
  exact ⟨_, e, rfl, Memory.read_writeLE_one s.mem _, fun _ => rfl, rfl, rfl, rfl, rfl, rfl⟩

/-- Settles O48: one case of `magicSyscall` for each halt, in the order the entries are read and the checks made. -/
theorem magicSyscallHalts : Obligations.MagicSyscallHalts := by
  intro i w rs1 rs2 imm p s hi hu ht hp he
  have e := exec_even_packet hi hu ht hp he
  have unreadable {status : Status} (h : readDescriptor s p = .error status) : exec i s = .next (halt s status) := by
    rw [e, magicSyscall_of_descriptor_error h]
  refine ⟨fun status h => unreadable (readDescriptor_of_number_unreadable h),
    fun number h hne => unreadable (readDescriptor_of_other_number h hne),
    fun hn => ⟨fun status h => unreadable (readDescriptor_of_pointer_unreadable hn h),
      fun ptr status hptr h => unreadable (readDescriptor_of_length_unreadable hn hptr h),
      fun ptr len hptr hlen => ⟨fun hr => ?range, fun hr ha => ?acknowledge⟩⟩⟩
  case range => rw [e, magicSyscall_of_range_out (readDescriptor_of_readable hn hptr hlen) hr]; rfl
  case acknowledge => rw [e, magicSyscall_of_acknowledge_out (readDescriptor_of_readable hn hptr hlen) hr ha]; rfl

end Sys2Proof.Machine
end

section
/-! ECALL, EBREAK, WFI and the words that are no instruction (47_system_csr.md, 48_syscall_htif_uart.md). -/

namespace Sys2Proof.Machine

/-! ## ECALL's dispatch, case by case (R240 to R246) -/

section
variable {s : State}

theorem exec_ecall_of_exit (h : readReg s regA7 = sysExit) : exec .ecall s = .next (ecallExit s) :=
  congrArg Host.Outcome.next (if_pos h)

theorem exec_ecall_of_write (h : readReg s regA7 = sysWrite) :
    exec .ecall s = .next (advance (emit s (lowByte (readReg s regA0)))) := by
  have hne : readReg s regA7 ≠ sysExit := by rw [h]; decide
  exact congrArg Host.Outcome.next ((if_neg hne).trans (if_pos h))

theorem exec_ecall_of_bridge (hb : s.cfg.bridgePresent = true) (hexit : readReg s regA7 ≠ sysExit)
    (hwrite : readReg s regA7 ≠ sysWrite) : exec .ecall s = .next (advance (ecallForward s)) :=
  congrArg Host.Outcome.next ((if_neg hexit).trans ((if_neg hwrite).trans (if_pos hb)))

theorem exec_ecall_of_no_bridge (hb : s.cfg.bridgePresent = false) (hexit : readReg s regA7 ≠ sysExit)
    (hwrite : readReg s regA7 ≠ sysWrite) : exec .ecall s = .next (advance s) :=
  congrArg Host.Outcome.next ((if_neg hexit).trans ((if_neg hwrite).trans (if_neg (by simp [hb]))))

end

/-! ## The statements -/

/-- Settles O52: the exit splits `x10` into its code and its flag, the write is one `emit`. -/
theorem ecallExitAndWrite : Obligations.EcallExitAndWrite := fun _ =>
  ⟨fun h => ⟨_, _, exec_ecall_of_exit h, exitCode_toNat _, isTestFlag_iff _⟩,
    fun h => completesEmitting_of_emit (exec_ecall_of_write h)⟩

/-- Settles O53: the last case of the dispatch is the normal end and nothing else. -/
theorem ecallWithoutBridgeIsIgnored : Obligations.EcallWithoutBridgeIsIgnored :=
  fun _ hb hexit hwrite => exec_ecall_of_no_bridge hb hexit hwrite

/-- Settles O54: the call handed over is `bridgeCallOf`, and each field of the state after it is a law of
`ecallForward`. -/
theorem ecallForwardsToBridge : Obligations.EcallForwardsToBridge := by
  intro s hb hexit hwrite
  refine ⟨_, bridgeCallOf s, exec_ecall_of_bridge hb hexit hwrite, rfl, rfl, rfl, ?result, fun r hr => ?frame,
    fun a ha => ?outside, by simp⟩
  case result => exact (readReg_ecallForward s regA0).trans (if_pos rfl)
  case frame => exact (readReg_ecallForward s r).trans (if_neg hr)
  case outside => rw [advance_mem, ecallForward_mem, read_applyWrites_outside _ _ ha]

/-- Settles O55: each of the three meanings is one `halt`. -/
theorem ebreakWfiUnimpHalt : Obligations.EbreakWfiUnimpHalt := fun _ _ => ⟨rfl, rfl, rfl⟩

end Sys2Proof.Machine
end

section
/-! How a run ends (60_exceptions.md): of the effects an instruction can have, two end the run, one with nothing but
the run state changed and one with output before it (R280's only case). -/

namespace Sys2Proof.Machine

/-- The instruction stores a packet with this low bit to `TOHOST_ADDR` (R248). -/
def StoresPacket (i : Instr) (s : State) (bit : Nat) : Prop :=
  ∃ w rs1 rs2 imm, storeOperands i = some (w, rs1, rs2, imm) ∧
    effective (baseAddress s rs1 imm) = s.cfg.tohostAddr ∧ (readReg s rs2).toNat % 2 = bit

theorem toNat_even_of_bit_zero {v : Word} (h : v.getLsbD 0 = false) : v.toNat % 2 = 0 := by
  have hodd : ¬v.toNat % 2 = 1 := (isTestFlag_iff v).not.mp (Bool.eq_false_iff.mp h)
  omega

theorem storesPacket_of_even {i : Instr} {s : State} {w : Width} {rs1 rs2 : RegIdx} {imm : Word}
    (hi : storeOperands i = some (w, rs1, rs2, imm)) (ht : effective (baseAddress s rs1 imm) = s.cfg.tohostAddr)
    (he : (readReg s rs2).getLsbD 0 = false) : StoresPacket i s 0 :=
  ⟨w, rs1, rs2, imm, hi, ht, toNat_even_of_bit_zero he⟩

theorem storesPacket_isStore {i : Instr} {s : State} {bit : Nat} (h : StoresPacket i s bit) :
    (storeOperands i).isSome = true := by
  obtain ⟨w, rs1, rs2, imm, hi, -⟩ := h
  simp [hi]

/-- Everything an instruction that ends a running run has done. -/
theorem effect_halted_cases {i : Instr} {s t : State} {status : Status} (h : Effect i s t) (hrun : s.run = .running)
    (ht : t.run = .halted status) :
    (HaltCause i s status ∧ t = halt s status) ∨
    (StoresPacket i s 0 ∧ status = .invalidMemoryAccess ∧ s.cfg.capacity < offsetOf s.cfg.fromhostAddr + 4 ∧
      ∃ bytes, t = halt (emitAll s bytes) status) := by
  cases h with
  | halts status' hc => cases ht; exact .inl ⟨hc, rfl⟩
  | magicHalts w rs1 rs2 imm bytes hi _ htohost he hb =>
    cases ht; exact .inr ⟨storesPacket_of_even hi htohost he, rfl, hb, bytes, rfl⟩
  | writes | draws | falls | branches | links | stores | uart | magicWrites | ecallWrites | forwards | ignores =>
    simp [hrun] at ht

theorem running_of_step_next {s t : State} (h : step s = .next t) : s.run = .running := by
  rcases step_cases s with ⟨status, -, e⟩ | ⟨hrun, -⟩ | ⟨hrun, -⟩
  · rw [e] at h; cases h
  · exact hrun
  · exact hrun

/-! ## The statements -/

/-- Settles O17: the halt at the fetch and the two effects that end the run (`effect_halted_cases`); each changes the
run state of the counted state and, in R280's case, stdout. -/
theorem haltIsPrecise : Obligations.HaltIsPrecise := by
  intro s t status h ht
  have hrun := running_of_step_next h
  rcases step_next_cases h with ⟨-, rfl⟩ | ⟨-, he⟩
  · exact ⟨rfl, rfl, rfl, rfl, rfl, rfl, [], (List.append_nil _).symm, .inl rfl⟩
  rcases effect_halted_cases he hrun ht with ⟨-, rfl⟩ | ⟨hp, hst, hb, bytes, rfl⟩
  · exact ⟨rfl, rfl, rfl, rfl, rfl, rfl, [], (List.append_nil _).symm, .inl rfl⟩
  · exact ⟨rfl, rfl, rfl, rfl, rfl, rfl, bytes, rfl, .inr ⟨hp, hst, hb⟩⟩

/-- Settles O18: the causes of `HaltCause`, each with its status; an access raises one of two (`accessHalt_some`). -/
theorem eachStatusHasItsCause : Obligations.EachStatusHasItsCause := by
  intro i s t status hrun h ht
  rcases effect_halted_cases (effect_of_exec h) hrun ht with ⟨hc, -⟩ | ⟨hp, rfl, -⟩
  case inr => exact .inr (storesPacket_isStore hp)
  cases hc with
  | load w rs1 imm _ hi ha =>
    have hl : (loadOperands i).isSome = true := by simp [hi]
    rcases accessHalt_some ha with rfl | ⟨rfl, hcheck⟩
    · exact .inl hl
    · exact .inr ⟨hcheck, .inl hl⟩
  | store w rs1 rs2 imm _ hi _ ha =>
    have hs : (storeOperands i).isSome = true := by simp [hi]
    rcases accessHalt_some ha with rfl | ⟨rfl, hcheck⟩
    · exact .inr hs
    · exact .inr ⟨hcheck, .inr hs⟩
  | packet w rs1 rs2 imm hi _ htohost ho =>
    exact .inr ⟨rfl, w, rs1, rs2, imm, hi, htohost, (isTestFlag_iff _).mp ho⟩
  | syscall w rs1 rs2 imm _ hi _ htohost he hcause =>
    have hp := storesPacket_of_even hi htohost he
    rcases hcause with rfl | rfl | ⟨addr, ha⟩
    · exact hp
    · exact .inr (storesPacket_isStore hp)
    · rcases accessHalt_some ha with rfl | ⟨rfl, hcheck⟩
      · exact .inr (storesPacket_isStore hp)
      · exact .inr ⟨hcheck, .inr (storesPacket_isStore hp)⟩
  | target hi => exact .inl hi
  | exit hi h93 => exact .inl ⟨hi, h93, exitCode_toNat _, isTestFlag_iff _⟩
  | ebreak hi => exact hi
  | wfi hi => exact hi
  | unimp w hi => exact ⟨w, hi⟩

end Sys2Proof.Machine
end

section
/-! That the machine is never stuck (R312), that a launch starts from the invariant, and the words the spec prints. -/

namespace Sys2Proof.Machine

/-- Settles O13: `exec_effect` for the instructions; a running step is the halt at the fetch or one of them. -/
theorem runningAlwaysHasNextStep : Obligations.RunningAlwaysHasNextStep := by
  have answers (i : Instr) (s : State) : ∃ t, exec i s = .next t := (exec_effect i s).imp fun _ => And.left
  refine ⟨answers, fun s hrun => ?_⟩
  rcases step_cases s with ⟨status, hhalt, -⟩ | ⟨-, -, e⟩ | ⟨-, -, e⟩
  · rw [hrun] at hhalt; cases hhalt
  · exact ⟨_, e⟩
  · rw [e]; exact answers _ _

/-- Settles O16: slot 0 by the precondition on the caller's registers, pc 0, and the image of a program that fits or
the empty memory of one that does not. -/
theorem launchMeetsInvariant : Obligations.LaunchMeetsInvariant := by
  intro cfg initial program s h
  obtain ⟨ha, ⟨hfit, rfl⟩ | ⟨-, rfl⟩⟩ := launch_next_cases h
  · exact ⟨bootState_slot_zero ha _, rfl, Memory.image_wf program hfit⟩
  · exact ⟨bootState_slot_zero ha [], rfl, rfl⟩

/-- Settles O1: seventeen closed words, decoded by evaluation. -/
theorem decodesWordsOfTheSpec : Obligations.DecodesWordsOfTheSpec := by
  unfold Obligations.DecodesWordsOfTheSpec
  decide

end Sys2Proof.Machine
end
